-- ==== Sys2Proof/Word.lean ====
section
/-! DEFINITION. The widths of the block's quantities (00_scope.md R9: every quantity is unsigned). -/

namespace Sys2Proof

/-- A byte of the Register Map, of the bus and of the pointer (R9, R21, R36). -/
abbrev Byte := BitVec 8

/-- The ADC's answer and its threshold (R39, R43). -/
abbrev Half := BitVec 16

/-- The millisecond counter and what is compared with it (R39). -/
abbrev Word := BitVec 32

end Sys2Proof
end

