-- ==== Sys2Proof/Syntax.lean ====
section
/-! DEFINITION. The names of the block: instances, directions, sequencer steps, the input alphabet (41_bus_engine.md R141, 10_state.md R43, 30_encoding.md R106) and the operations of opcode_table.json, one constructor a row (30_encoding.md R108). -/

namespace Sys2Proof

/-- A bus address with its own Register Map and engine state: `i = 1` primary, `i = 2` secondary (00_scope.md, glossary). -/
inductive Inst where
  | primary
  | secondary
  deriving DecidableEq, Repr, Inhabited

/-- The direction bit of an address byte (30_encoding.md R92): 0 = `W`, host to device; 1 = `R`, device to host. -/
inductive Dir where
  | W
  | R
  deriving DecidableEq, Repr, Inhabited

/-- The sequencer's step names (43_power_sequencer.md R201), in the order of the scan. -/
inductive SeqStep where
  | msPublish
  | trigLoad
  | trigAct
  | trigClear
  | adcCheck
  | adcWait
  | adcStore
  | battEval
  | gpioRefresh
  | shdnLoad
  | shdnAct
  deriving DecidableEq, Repr, Inhabited

/-- The logical levels of the four GPIO inputs, true = asserted (10_state.md R43). -/
structure Pins where
  charge  : Bool
  standby : Bool
  radio   : Bool
  button  : Bool
  deriving DecidableEq, Repr, Inhabited

/-- What can happen next, as plain data: the bus events of R141 with the address byte still raw, the turn of an internal agent
(R6, R11), and the environment's events (R43). A schedule is a list of these (30_encoding.md R106). -/
inductive Event where
  /-- A start or repeated start followed by this address byte (format A, R92). -/
  | addr (b : Byte)
  /-- One byte received from the host. -/
  | rxByte (b : Byte)
  /-- The host clocks one byte out of the device. -/
  | txReq
  | stop
  | busErr
  | arbLost
  /-- The sequencer's turn; `pick` names which outstanding byte of a multi-byte field is stored (R127: any order). -/
  | seq (pick : Byte)
  /-- The serializer's turn. -/
  | ser
  | tick
  /-- The converter answers. -/
  | adcDone (v : Half)
  /-- The pins change to these levels. -/
  | pin (p : Pins)
  | powerLoss
  | reset
  /-- One line of host traffic (R106): the bytes between a start and a stop. As 44_host_client.md R241 to R243 write them it is one whole command,
with no other agent's step inside; any other line is the bus events it stands for. -/
  | txn (bs : List Byte)
  deriving DecidableEq, Repr, Inhabited

/-- The operations of the block (30_encoding.md R108 and the two command values of R102), one constructor for each row of
opcode_table.json. -/
inductive Instr where
  /-- R142. -/
  | addrW (i : Inst)
  /-- R143. -/
  | addrR (i : Inst)
  /-- R144; `p` is the pointer byte. -/
  | regsel (p : Byte)
  /-- R145; `d` is the data byte. -/
  | wdata (d : Byte)
  /-- R146. -/
  | rdata
  /-- R147. -/
  | stop
  /-- R148; `j` is the active instance. -/
  | restart (j : Inst)
  /-- R150. -/
  | buserr
  /-- R151. -/
  | arblost
  /-- R149. -/
  | wrhook (i : Inst) (offset : Byte) (length : Nat)
  /-- R181, R182. -/
  | ledStart (n : Nat)
  /-- R183. -/
  | ledFetch
  /-- R185. -/
  | ledBit
  /-- R186. -/
  | ledDone
  /-- R202; `pick` chooses which outstanding byte is stored. -/
  | msPublish (pick : Byte)
  /-- R203. -/
  | trigLoad
  /-- R204. -/
  | trigAct
  /-- R205. -/
  | trigClear
  /-- R206. -/
  | adcCheck
  /-- R207; `v` is the value of the `ADC_DONE(v)` event. -/
  | adcWait (v : Half)
  /-- R208; `pick` chooses which outstanding byte is stored. -/
  | adcStore (pick : Byte)
  /-- R209. -/
  | battEval
  /-- R212. -/
  | gpioRefresh
  /-- R213. -/
  | shdnLoad
  /-- R214. -/
  | shdnAct
  /-- R217. -/
  | tick
  /-- R220. -/
  | powerLoss
  /-- R300. -/
  | reset
  /-- R102, R204: the data byte `v != 0` at offset 11 of the primary map. -/
  | triggerLed (v : Byte)
  /-- R102, R214: the data byte 0xFF at offset 31 of the primary map. -/
  | triggerShutdown
  /-- R242. -/
  | cmdSetLed (r g b : Byte)
  /-- R243. -/
  | cmdShutdown
  /-- R241: `m` bytes from offset `p`; the full read is `p = 0`, `m = 32`. -/
  | cmdRead (p m : Byte)
  deriving DecidableEq, Repr, Inhabited

end Sys2Proof
end

