-- ==== Sys2Proof/Config.lean ====
section
/-! DEFINITION. The parameters of 00_scope.md R7 as one record that takes the whole table, and the values the spec leaves open: constants with no body. -/

namespace Sys2Proof

/-- The size of a Register Map as a bound of types: "a fixed 32-byte addressable region" (R3, R7, R21). -/
abbrev mapBytes : Nat := 32

/-- `CHANNEL_ORDER` (R7, R184): one of the six orders of the three colour bytes. -/
inductive ChannelOrder where
  | rgb
  | rbg
  | grb
  | gbr
  | brg
  | bgr
  deriving DecidableEq, Repr, Inhabited

/-- The durations `T0H`, `T0L`, `T1H`, `T1L`, `T_LATCH` (R7, R104); no unit is given and no rule depends on them. The pulse width encodes the
bit, so `T1H != T0H` (R104). -/
structure Durations where
  t0h : Nat
  t0l : Nat
  t1h : Nat
  t1l : Nat
  tLatch : Nat
  distinct : (t1h != t0h) = true
  deriving DecidableEq, Repr

/-- An exact decimal: `mantissa / 10 ^ places`. -/
structure Decimal where
  mantissa : Nat
  places : Nat
  deriving DecidableEq, Repr

/-- The host-side rows of R7: `ADC_MAX`, `VREF`, `DIVIDER_RATIO` (R247), `POLL_INPUT_MS`, `POLL_ADC_MS` (R245). Nothing in the block reads
them. -/
structure HostSide where
  adcMax : Nat := 1024
  vref : Decimal := ⟨33, 1⟩
  dividerRatio : Decimal := ⟨20, 1⟩
  pollInputMs : Nat := 100
  pollAdcMs : Nat := 5000
  deriving DecidableEq, Repr

/-- The configuration record of R7, every row of its table: what an implementation fixes and no operation changes (R152, R184). `MAP_SIZE`,
`READ_FILL` and `SHUTDOWN_SENTINEL`, fixed or decided there, carry their value; that `N_LEDS` is 1 is a constraint of R8. -/
structure Config where
  mapSize : Nat := 32
  addr1 : BitVec 7
  hasSecondary : Bool
  addr2 : BitVec 7
  ro1 : Bool
  ro2 : Bool
  readFill : Byte := 0x00#8
  uid : Vector Byte 12
  nLeds : Nat
  channelOrder : ChannelOrder
  durations : Durations
  adcLowThreshold : Half
  hystInit : Nat
  sampleInterval : Word
  shutdownSentinel : Byte := 0xFF#8
  hookImmediateShutdown : Bool
  host : HostSide := { }
  mapSize_fixed : mapSize = mapBytes := by rfl
  readFill_decided : readFill = 0x00#8 := by rfl
  shutdownSentinel_fixed : shutdownSentinel = 0xFF#8 := by rfl
  deriving DecidableEq, Repr

/-- `ADDR2` (R7: OPEN, no default). -/
opaque Config.openAddr2 : BitVec 7

/-- `UID` (R7: OPEN; R29: an opaque byte string). -/
opaque Config.openUid : Vector Byte 12

/-- `CHANNEL_ORDER` (R7: OPEN, no default). -/
opaque Config.openChannelOrder : ChannelOrder

/-- `T0H` (R7: OPEN, no figure in the source). -/
opaque Config.openT0h : Nat

/-- `T0L` (R7: OPEN). -/
opaque Config.openT0l : Nat

/-- Which of the lengths other than `T0H` is `T1H` (R7: OPEN; R104: not `T0H`). -/
opaque Config.openT1h : Nat

/-- `T1L` (R7: OPEN). -/
opaque Config.openT1l : Nat

/-- `T_LATCH` (R7: OPEN). -/
opaque Config.openTLatch : Nat

/-- The `n`-th number other than `a`: every one of them for some `n`. -/
def otherThan (a n : Nat) : Nat := if n < a then n else n + 1

theorem otherThan_ne (a n : Nat) : (otherThan a n != a) = true := by
  unfold otherThan
  split <;> simp <;> omega

/-- The `n`-th event when the schedule has run out: any agent may take its next step (R6, R11), so nothing constrains it
(log entry 2). -/
opaque Config.freeEvent : Nat → Event

/-- This hardware, R7's column "value for this hardware": its defaults where it gives them, the open constants where it gives none
(log entries 3 and 4). -/
def Config.machine : Config where
  addr1 := 0x09#7
  hasSecondary := false
  addr2 := Config.openAddr2
  ro1 := false
  ro2 := false
  uid := Config.openUid
  nLeds := 1
  channelOrder := Config.openChannelOrder
  durations :=
    { t0h := Config.openT0h
      t0l := Config.openT0l
      t1h := otherThan Config.openT0h Config.openT1h
      t1l := Config.openT1l
      tLatch := Config.openTLatch
      distinct := otherThan_ne _ _ }
  adcLowThreshold := 560#16
  hystInit := 10
  sampleInterval := 5000#32
  hookImmediateShutdown := false

end Sys2Proof
end

