-- ==== Sys2Proof/WellFormed.lean ====
section
/-! DEFINITION. Which configurations have a meaning (00_scope.md R8) and which instruction terms are operations of the block under a configuration. -/

namespace Sys2Proof

/-- The constraints of R8. The order of colours is one of six by its type. -/
def Config.valid (c : Config) : Bool :=
  (!c.hasSecondary || c.addr2 != c.addr1) && decide (1 ≤ c.hystInit) && c.nLeds == 1

/-- Instance 2 exists only when `HAS_SECONDARY` (R34, R35). -/
def Config.present (c : Config) : Inst → Bool
  | .primary => true
  | .secondary => c.hasSecondary

/-- The operand constraints of the table's rows: the instance exists, a hook reports at most 32 bytes (R221 item 6), `LED_START` is
for `N_LEDS` (R181), an LED trigger is not zero (R102). -/
def Instr.wf (c : Config) : Instr → Bool
  | .addrW i => c.present i
  | .addrR i => c.present i
  | .restart j => c.present j
  | .wrhook i _ length => c.present i && decide (length ≤ c.mapSize)
  | .ledStart n => n == 1
  | .triggerLed v => v != 0x00#8
  | .regsel _ => true
  | .wdata _ => true
  | .rdata => true
  | .stop => true
  | .buserr => true
  | .arblost => true
  | .ledFetch => true
  | .ledBit => true
  | .ledDone => true
  | .msPublish _ => true
  | .trigLoad => true
  | .trigAct => true
  | .trigClear => true
  | .adcCheck => true
  | .adcWait _ => true
  | .adcStore _ => true
  | .battEval => true
  | .gpioRefresh => true
  | .shdnLoad => true
  | .shdnAct => true
  | .tick => true
  | .powerLoss => true
  | .reset => true
  | .triggerShutdown => true
  | .cmdSetLed _ _ _ => true
  | .cmdShutdown => true
  | .cmdRead _ _ => true

end Sys2Proof
end

