-- ==== Sys2Proof/Decode.lean ====
section
/-! DEFINITION. The encodings of 30_encoding.md and opcode_table.json: a code is the table's format, which its context selects, and the bytes; the decoder is total and rejects by name; the encoder is written from the same rows. -/

namespace Sys2Proof

/-- The format column of opcode_table.json. `MAPVALUE` names the offset of the primary map the data byte goes to. -/
inductive Fmt where
  | A
  | P
  | D
  | COND
  | INTERNAL
  | PULSE
  | SEQSTEP
  | ENV
  | MAPVALUE (offset : Byte)
  | TXN
  deriving DecidableEq, Repr

/-- One encoded operation: its format and its bytes, the first on the wire first. -/
structure Code where
  fmt : Fmt
  bytes : List Byte
  deriving DecidableEq, Repr

/-- Why a code is no operation. -/
inductive Reject where
  /-- An address byte that matches no instance (R93). -/
  | foreignAddress
  /-- A selector no condition, internal event or environment event has (log entry 11). -/
  | noSuchSelector
  /-- A step index that R109 does not give. -/
  | noSuchStep
  /-- A command byte for an offset other than 11 and 31 (R102). -/
  | noSuchCommandOffset
  /-- Bytes that are none of the host commands of R241 to R243. -/
  | noSuchCommand
  /-- Too many or too few bytes for the format. -/
  | wrongLength
  deriving DecidableEq, Repr

/-- The seven-bit address of an instance (R93). -/
def Config.addr (c : Config) : Inst → BitVec 7
  | .primary => c.addr1
  | .secondary => c.addr2

/-- The direction bit (R92). -/
def Dir.bit : Dir → BitVec 1
  | .W => 0#1
  | .R => 1#1

/-- The address byte of R92: address in bits 7 to 1, direction in bit 0. -/
def addrByte (c : Config) (i : Inst) (d : Dir) : Byte :=
  c.addr i ++ d.bit

/-- R93: which instance a seven-bit address matches, if any. -/
def addrMatch (c : Config) (a : BitVec 7) : Option Inst :=
  if a = c.addr1 then some .primary
  else if c.hasSecondary && a == c.addr2 then some .secondary
  else none

/-- R92: bits 7 to 1 of an address byte. -/
def addrField (b : Byte) : BitVec 7 := b.extractLsb' 1 7

/-- R92: bit 0 of an address byte. -/
def dirField (b : Byte) : Dir := if b.getLsbD 0 then .R else .W

/-- The step numbers 0 to 10 (R109). -/
def SeqStep.index : SeqStep → Nat
  | .msPublish => 0
  | .trigLoad => 1
  | .trigAct => 2
  | .trigClear => 3
  | .adcCheck => 4
  | .adcWait => 5
  | .adcStore => 6
  | .battEval => 7
  | .gpioRefresh => 8
  | .shdnLoad => 9
  | .shdnAct => 10

/-- Format A (R92, R93). -/
def decodeAddr (c : Config) : List Byte → Except Reject Instr
  | [b] =>
    match addrMatch c (addrField b), dirField b with
    | some i, .W => .ok (.addrW i)
    | some i, .R => .ok (.addrR i)
    | none, _ => .error .foreignAddress
  | _ => .error .wrongLength

/-- Format P (R94). -/
def decodePointer : List Byte → Except Reject Instr
  | [b] => .ok (.regsel b)
  | _ => .error .wrongLength

/-- Format D: a byte from the host (R95), or a request for one, which brings no bits (R96). -/
def decodeData : List Byte → Except Reject Instr
  | [] => .ok .rdata
  | [b] => .ok (.wdata b)
  | _ => .error .wrongLength

/-- Instance numbers 1 and 2 (R10). -/
def Inst.number : Inst → Byte
  | .primary => 1#8
  | .secondary => 2#8

/-- The instance a number names. -/
def instOfNumber (b : Byte) : Option Inst :=
  if b = 1#8 then some .primary else if b = 2#8 then some .secondary else none

/-- Bus conditions (R91), which carry no bits: selectors of the model's own (log entry 11). -/
def decodeCond : List Byte → Except Reject Instr
  | [b] =>
    if b = 0#8 then .ok .stop
    else if b = 2#8 then .ok .buserr
    else if b = 3#8 then .ok .arblost
    else .error .noSuchSelector
  | [b, j] =>
    if b = 1#8 then
      match instOfNumber j with
      | some j => .ok (.restart j)
      | none => .error .noSuchSelector
    else .error .noSuchSelector
  | _ => .error .wrongLength

/-- Internal operations, which have no encoding: selectors of the model's own (log entry 11). -/
def decodeInternal : List Byte → Except Reject Instr
  | [b] =>
    if b = 2#8 then .ok .ledFetch
    else if b = 3#8 then .ok .ledDone
    else .error .noSuchSelector
  | [b, n] => if b = 1#8 then .ok (.ledStart n.toNat) else .error .noSuchSelector
  | [b, i, offset, length] =>
    if b = 0#8 then
      match instOfNumber i with
      | some i => .ok (.wrhook i offset length.toNat)
      | none => .error .noSuchSelector
    else .error .noSuchSelector
  | _ => .error .wrongLength

/-- Format PULSE: the bit is an output, the head of `led_q` (R185), so no bits come in. -/
def decodePulse : List Byte → Except Reject Instr
  | [] => .ok .ledBit
  | _ => .error .wrongLength

/-- The operation of a step index, its operands zero (R109; log entry 6 for `pick`). -/
def decodeStepIndex : Nat → Except Reject Instr
  | 0 => .ok (.msPublish 0#8)
  | 1 => .ok .trigLoad
  | 2 => .ok .trigAct
  | 3 => .ok .trigClear
  | 4 => .ok .adcCheck
  | 5 => .ok (.adcWait 0#16)
  | 6 => .ok (.adcStore 0#8)
  | 7 => .ok .battEval
  | 8 => .ok .gpioRefresh
  | 9 => .ok .shdnLoad
  | 10 => .ok .shdnAct
  | _ => .error .noSuchStep

/-- Format SEQSTEP (R109): the step index, then the operand's bytes, low byte first, where the step has one; operand bytes that are
left out are zero. -/
def decodeStep : List Byte → Except Reject Instr
  | [b] => decodeStepIndex b.toNat
  | [b, pick] =>
    if b = 0#8 then .ok (.msPublish pick)
    else if b = 6#8 then .ok (.adcStore pick)
    else .error .wrongLength
  | [b, lo, hi] => if b = 5#8 then .ok (.adcWait (hi ++ lo)) else .error .wrongLength
  | _ => .error .wrongLength

/-- Environment events, which have no encoding: selectors of the model's own (log entry 11). -/
def decodeEnv : List Byte → Except Reject Instr
  | [b] =>
    if b = 0#8 then .ok .tick
    else if b = 1#8 then .ok .powerLoss
    else if b = 2#8 then .ok .reset
    else .error .noSuchSelector
  | _ => .error .wrongLength

/-- Command values carried as data (R102): any nonzero byte at offset 11, the sentinel at offset 31; every other byte there is plain data. -/
def decodeMapValue (c : Config) (offset : Byte) : List Byte → Except Reject Instr
  | [b] =>
    if offset = 11#8 then .ok (if b = 0#8 then .wdata b else .triggerLed b)
    else if offset = 31#8 then .ok (if b = c.shutdownSentinel then .triggerShutdown else .wdata b)
    else .error .noSuchCommandOffset
  | _ => .error .wrongLength

/-- Host commands (R241 to R243). The read half of a partial read is written as its address byte and the count (log entry 21). -/
def decodeTxn (c : Config) : List Byte → Except Reject Instr
  | [a, p] =>
    if a = addrByte c .primary .W ∧ p = 0#8 then .ok (.cmdRead 0#8 32#8) else .error .noSuchCommand
  | [a, p, d] =>
    if a = addrByte c .primary .W ∧ p = 0x1F#8 ∧ d = c.shutdownSentinel then .ok .cmdShutdown else .error .noSuchCommand
  | [a, p, a', m] =>
    if a = addrByte c .primary .W ∧ a' = addrByte c .primary .R then .ok (.cmdRead p m) else .error .noSuchCommand
  | [a, p, r, g, b, t] =>
    if a = addrByte c .primary .W ∧ p = 0x08#8 ∧ t = 0x01#8 then .ok (.cmdSetLed r g b) else .error .noSuchCommand
  | _ => .error .noSuchCommand

/-- The decoder: the format says which context read the bytes (30_encoding.md R99, R108). -/
def decode (c : Config) (w : Code) : Except Reject Instr :=
  match w.fmt with
  | .A => decodeAddr c w.bytes
  | .P => decodePointer w.bytes
  | .D => decodeData w.bytes
  | .COND => decodeCond w.bytes
  | .INTERNAL => decodeInternal w.bytes
  | .PULSE => decodePulse w.bytes
  | .SEQSTEP => decodeStep w.bytes
  | .ENV => decodeEnv w.bytes
  | .MAPVALUE offset => decodeMapValue c offset w.bytes
  | .TXN => decodeTxn c w.bytes

/-- The bytes of a sixteen-bit operand, low byte first. -/
def halfBytes (v : Half) : List Byte := [v.extractLsb' 0 8, v.extractLsb' 8 8]

/-- The encoder: the format and the bytes of each operation (30_encoding.md R92 to R96, R102, R109; 44_host_client.md R241 to
R243). -/
def encode (c : Config) : Instr → Code
  | .addrW i => ⟨.A, [addrByte c i .W]⟩
  | .addrR i => ⟨.A, [addrByte c i .R]⟩
  | .regsel p => ⟨.P, [p]⟩
  | .wdata d => ⟨.D, [d]⟩
  | .rdata => ⟨.D, []⟩
  | .stop => ⟨.COND, [0#8]⟩
  | .restart j => ⟨.COND, [1#8, j.number]⟩
  | .buserr => ⟨.COND, [2#8]⟩
  | .arblost => ⟨.COND, [3#8]⟩
  | .wrhook i offset length => ⟨.INTERNAL, [0#8, i.number, offset, BitVec.ofNat 8 length]⟩
  | .ledStart n => ⟨.INTERNAL, [1#8, BitVec.ofNat 8 n]⟩
  | .ledFetch => ⟨.INTERNAL, [2#8]⟩
  | .ledDone => ⟨.INTERNAL, [3#8]⟩
  | .ledBit => ⟨.PULSE, []⟩
  | .msPublish pick => ⟨.SEQSTEP, [0#8, pick]⟩
  | .trigLoad => ⟨.SEQSTEP, [1#8]⟩
  | .trigAct => ⟨.SEQSTEP, [2#8]⟩
  | .trigClear => ⟨.SEQSTEP, [3#8]⟩
  | .adcCheck => ⟨.SEQSTEP, [4#8]⟩
  | .adcWait v => ⟨.SEQSTEP, 5#8 :: halfBytes v⟩
  | .adcStore pick => ⟨.SEQSTEP, [6#8, pick]⟩
  | .battEval => ⟨.SEQSTEP, [7#8]⟩
  | .gpioRefresh => ⟨.SEQSTEP, [8#8]⟩
  | .shdnLoad => ⟨.SEQSTEP, [9#8]⟩
  | .shdnAct => ⟨.SEQSTEP, [10#8]⟩
  | .tick => ⟨.ENV, [0#8]⟩
  | .powerLoss => ⟨.ENV, [1#8]⟩
  | .reset => ⟨.ENV, [2#8]⟩
  | .triggerLed v => ⟨.MAPVALUE 11#8, [v]⟩
  | .triggerShutdown => ⟨.MAPVALUE 31#8, [c.shutdownSentinel]⟩
  | .cmdSetLed r g b => ⟨.TXN, [addrByte c .primary .W, 0x08#8, r, g, b, 0x01#8]⟩
  | .cmdShutdown => ⟨.TXN, [addrByte c .primary .W, 0x1F#8, c.shutdownSentinel]⟩
  | .cmdRead p m =>
    ⟨.TXN, if p = 0#8 ∧ m = 32#8 then [addrByte c .primary .W, p]
      else [addrByte c .primary .W, p, addrByte c .primary .R, m]⟩

/-- The `n` bytes of a table word, the most significant first, as opcode_table.json writes the bits of its rows from left to right
(log entry 10). -/
def tableBytes (n w : Nat) : List Byte :=
  (List.range n).map fun j => BitVec.ofNat 8 (w >>> (8 * (n - 1 - j)))

/-- The format that reads a table word, which the word itself does not say: more than one byte is a host command; one byte is read by
the row with the most fixed bits that it fits (log entry 10). -/
def tableCode (nbits w : Nat) : Code :=
  if 8 < nbits then ⟨.TXN, tableBytes (nbits / 8) w⟩
  else if w = 255 then ⟨.MAPVALUE 31#8, tableBytes 1 w⟩
  else if w ≤ 10 then ⟨.SEQSTEP, tableBytes 1 w⟩
  else ⟨.A, tableBytes 1 w⟩

/-- The instruction the decoder reads from a table word, under this hardware's configuration. -/
def decodeTableWord (nbits w : Nat) : Option Instr :=
  (decode Config.machine (tableCode nbits w)).toOption

end Sys2Proof
end

