-- ==== Sys2Proof/Machine/State.lean ====
section
/-! DEFINITION. The state of the block (10_state.md R20), grouped as R20 groups it, its reset value (R46), and the reasons a step can stop. -/

namespace Sys2Proof.Machine

/-- One Register Map: its bytes as (offset, byte) cells, offsets strictly rising, none equal to what an unlisted offset reads as
(20_memory.md R60; log entry 17). -/
abbrev Memory := List Host.Cell

/-- The states of the protocol engine (R35). `error` is passed through inside a fault step and never rests (R150). -/
inductive EngSt where
  | idle
  | addressed
  | registerSelect
  | writeBurst
  | readBurst
  | error
  deriving DecidableEq, Repr

/-- The engine registers of one instance (R35, R36). -/
structure Engine where
  st : EngSt
  dir : Dir
  ptr : Byte
  boff : Byte
  blen : Nat
  deriving DecidableEq, Repr

/-- The serializer's states (R37). -/
inductive LedSt where
  | idle
  | armed
  | shift
  deriving DecidableEq, Repr

/-- What stands on the LED wire's trace (R37, R104). -/
inductive Mark where
  | sym0
  | sym1
  | latch
  deriving DecidableEq, Repr

/-- The serializer registers (R37). `q` is head first; `wire` is the trace, oldest first. -/
structure Serializer where
  busy : Bool
  st : LedSt
  idx : Nat
  q : List Bool
  wire : List Mark
  deriving DecidableEq, Repr

/-- The sequencer registers (R39). `pend` is the set of byte indices still to be stored, rising, no repeats. -/
structure Sequencer where
  spc : SeqStep
  pend : List Nat
  ms : Word
  msSnap : Word
  lastSample : Word
  hyst : Nat
  inState : Byte
  t11 : Byte
  t31 : Byte
  adcPending : Bool
  adcV : Half
  deriving DecidableEq, Repr

/-- The two bus-level faults (60_exceptions.md R261). -/
inductive FaultKind where
  | busError
  | arbLost
  deriving DecidableEq, Repr

/-- The events of the observable output trace (00_scope.md R10, 60_exceptions.md R275): the hook, the symbols of the LED wire, changes of
power-enable, bus faults, conversion requests. -/
inductive OutEvent where
  | wrHook (i : Inst) (offset : Byte) (length : Nat)
  | led (m : Mark)
  | powerEn (level : Bool)
  | busFault (kind : FaultKind)
  | adcReq
  deriving DecidableEq, Repr

/-- What the host sees of a bus step (R45): the acknowledge of a byte it sent, or a byte it clocked out. -/
inductive BusOut where
  | ack (i : Inst)
  | byte (i : Inst) (b : Byte)
  deriving DecidableEq, Repr

/-- The environment's side of the step relation, which R20 makes its arguments: pin levels (R43), the schedule, the count of free
events taken, and whether the bus carries another device's transaction (R93). -/
structure Env where
  pins : Pins
  sched : List Event
  draws : Nat
  foreign : Bool
  deriving DecidableEq, Repr

/-- The two output records, oldest first (log entry 8). -/
structure Obs where
  trace : List OutEvent
  busOut : List BusOut
  deriving DecidableEq, Repr

/-- The whole state: R20 (a) to (g), and the model's own `cfg`, `env` and `obs` (log entries 1, 3, 5, 8, 9). -/
@[ext]
structure State where
  cfg : Config
  map1 : Memory
  map2 : Memory
  eng1 : Engine
  eng2 : Engine
  led : Serializer
  seq : Sequencer
  powerEn : Bool
  powered : Bool
  env : Env
  obs : Obs
  deriving DecidableEq, Repr

/-- What stops the machine. The spec gives the block nothing that does: out-of-range and read-only accesses are silent (R264), the bus
faults are next states (R268), the ADC hang is a hold (R271). No one raises it: it has no constructor. -/
inductive Fault where
  deriving DecidableEq, Repr

/-- Why a step does not exist. Each is SAFE: the model stops where the spec gives no step. -/
inductive Refusal where
  /-- An instruction with no meaning yet; raised by exec's refused arms only. -/
  | notModelled (mnemonic : String)
  /-- `UNENABLED_EVENT` (R155, R261): a received byte in read direction, or a byte request in write direction; raised by step. -/
  | unenabledEvent
  /-- `BAD_CONFIG` (R8, R261): the configuration breaks a constraint; raised by step. -/
  | badConfig
  /-- `LED_START(n)` with `n != N_LEDS = 1` (R181, R261); raised by LED_START's meaning. -/
  | badLedCount
  /-- `POWER_LOSS` while `power_en = 1` is not enabled (R220); raised by POWER_LOSS's meaning. -/
  | supplyHeld
  /-- The operation names instance 2 and there is none (R34); raised by the meanings that name an instance. -/
  | absentInstance
  /-- The block has no supply: no agent has a step (R42); raised by every meaning but RESET's. -/
  | unpowered
  /-- The state does not select this operation (the "selected by" column of R108); raised by the meanings, and never by step, whose
  decoder reads the state first. -/
  | notEnabled
  deriving DecidableEq, Repr

/-- `st_i = IDLE`, `dir_i = W`, pointer and counts 0 (R46). -/
def Engine.reset : Engine where
  st := .idle
  dir := .W
  ptr := 0#8
  boff := 0#8
  blen := 0

/-- The serializer idle, nothing on the wire (R46). -/
def Serializer.reset : Serializer where
  busy := false
  st := .idle
  idx := 0
  q := []
  wire := []

/-- The sequencer at its entry point, the hysteresis counter full (R46, R303). -/
def Sequencer.reset (c : Config) : Sequencer where
  spc := .msPublish
  pend := []
  ms := 0#32
  msSnap := 0#32
  lastSample := 0#32
  hyst := c.hystInit
  inState := 0#8
  t11 := 0#8
  t31 := 0#8
  adcPending := false
  adcV := 0#16

/-- The environment before anything has happened: pins 0, nothing scheduled (DESIGN CHOICE, log entries 1, 2, 5, 9). -/
def Env.reset : Env where
  pins := ⟨false, false, false, false⟩
  sched := []
  draws := 0
  foreign := false

/-- Nothing observed yet (DESIGN CHOICE, log entry 8). -/
def Obs.reset : Obs where
  trace := []
  busOut := []

/-- The reset values of R46 under a configuration, beside an environment and an output record. The maps list nothing: an unlisted
offset reads as its reset contents. -/
def State.resetWith (c : Config) (env : Env) (obs : Obs) : State where
  cfg := c
  map1 := []
  map2 := []
  eng1 := Engine.reset
  eng2 := Engine.reset
  led := Serializer.reset
  seq := Sequencer.reset c
  powerEn := true
  powered := true
  env := env
  obs := obs

/-- This hardware right after reset (R46, R300 to R303). -/
def State.reset : State := State.resetWith Config.machine Env.reset Obs.reset

end Sys2Proof.Machine
end

