-- ==== Sys2Proof/Machine/Flags.lean ====
section
/-! DEFINITION. The status flags (10_state.md R44): the bits of the input-state byte (R28, R101), the classification of a sample (R210), the derived Battery/Power State (R40). -/

namespace Sys2Proof.Machine

/-- Bit positions of the input-state byte (R28, R101, decision D13). -/
abbrev bitCharge : Nat := 0
abbrev bitStandby : Nat := 1
abbrev bitRadio : Nat := 2
abbrev bitButton : Nat := 3
abbrev bitBatteryLow : Nat := 4

/-- R210: low when `adc_v <= ADC_LOW_THRESHOLD`, unsigned sixteen bits. -/
def isLow (threshold adcV : Half) : Bool := decide (adcV ≤ threshold)

/-- One bit of a byte set or cleared. -/
def setBit (b : Byte) (n : Nat) (v : Bool) : Byte :=
  if v then b ||| (1#8 <<< n) else b &&& ~~~(1#8 <<< n)

/-- `in_state[4] <- low` (R209). -/
def setBatteryLow (inState : Byte) (low : Bool) : Byte := setBit inState bitBatteryLow low

/-- R212: bits 0 to 3 from the pins, bits 7 to 5 zero, bit 4 kept. -/
def refreshInputs (inState : Byte) (p : Pins) : Byte :=
  setBit (setBit (setBit (setBit (inState &&& 0x10#8) bitCharge p.charge) bitStandby p.standby) bitRadio p.radio) bitButton
    p.button

/-- R26, R44: the update trigger is pending when nonzero. -/
def isPending (t11 : Byte) : Bool := t11 != 0#8

/-- R30, R44: only the sentinel asks for shutdown. -/
def isSentinel (c : Config) (t31 : Byte) : Bool := t31 == c.shutdownSentinel

/-- The three supervisor states (R40, R218). -/
inductive Supervisor where
  | normal
  | lowWarning
  | shutdown
  deriving DecidableEq, Repr

/-- R40: derived, not stored. -/
def supervisorOf (s : State) : Supervisor :=
  if !s.powerEn then .shutdown else if s.seq.inState.getLsbD bitBatteryLow then .lowWarning else .normal

end Sys2Proof.Machine
end

