-- ==== Sys2Proof/Machine/Operands.lean ====
section
/-! DEFINITION. The operand forms and the fixed-width arithmetic of the block (43_power_sequencer.md R221): the saturating pointer, bytes of a field, the outstanding byte a store step takes, the bits of an LED frame. -/

namespace Sys2Proof.Machine

/-- `sat_inc` (R36): plus one, 255 stays 255. -/
def satInc (p : Byte) : Byte := if p = 255#8 then 255#8 else p + 1#8

/-- Byte `j` of a number, `v[8j+7:8j]` (R10, R127, R221 item 8). -/
def byteOf (v j : Nat) : Byte := BitVec.ofNat 8 (v >>> (8 * j))

/-- The byte index a store step takes out of the outstanding ones: any of them, as `pick` says (R127, R202; log entry 6). -/
def pickOf (pend : List Nat) (pick : Byte) : Nat := pend.getD (pick.toNat % pend.length) 0

/-- The bits of a byte, most significant first (R63, R103). -/
def bitsMsbFirst (b : Byte) : List Bool := (List.range 8).map fun m => b.getLsbD (7 - m)

/-- `CHANNEL_ORDER` applied to the triple (R, G, B) (R103, R184). -/
def permute : ChannelOrder → Byte → Byte → Byte → List Byte
  | .rgb, r, g, b => [r, g, b]
  | .rbg, r, g, b => [r, b, g]
  | .grb, r, g, b => [g, r, b]
  | .gbr, r, g, b => [g, b, r]
  | .brg, r, g, b => [b, r, g]
  | .bgr, r, g, b => [b, g, r]

/-- The 24 bits of a frame: `c0[7] … c0[0], c1[7] … c2[0]` (R103, R183). -/
def frameBits (o : ChannelOrder) (r g b : Byte) : List Bool := (permute o r g b).flatMap bitsMsbFirst

/-- The symbol of a bit (R104, R185). -/
def symbolOf : Bool → Mark
  | false => .sym0
  | true => .sym1

/-- The high and low times of what the wire carries (R104). No rule depends on them. -/
def pulseOf (d : Durations) : Mark → Nat × Nat
  | .sym0 => (d.t0h, d.t0l)
  | .sym1 => (d.t1h, d.t1l)
  | .latch => (0, d.tLatch)

/-- Whether a sample is due: `(ms - last_sample) mod 2^32 >= SAMPLE_INTERVAL_TICKS`, unsigned (R206, R221 item 3). -/
def sampleDue (interval ms lastSample : Word) : Bool := decide (interval ≤ ms - lastSample)

end Sys2Proof.Machine
end

