-- ==== Sys2Proof/Machine/Ops.lean ====
section
/-! DEFINITION. The named operations the meanings share: the Register Map primitives (40_register_map_ops.md R120 to R127), the engine's transaction steps, the bus fault (60_exceptions.md R268), power-enable (R215), the serializer's start (R181). -/

namespace Sys2Proof.Machine

/-! ## Memory cells -/

/-- The byte at an offset; `dflt` is what an unlisted offset reads as. -/
def Memory.read (dflt : Nat → Byte) : Memory → Nat → Byte
  | [], a => dflt a
  | (k, v) :: rest, a => if k = a then v else Memory.read dflt rest a

/-- The cells without an offset. -/
def Memory.remove : Memory → Nat → Memory
  | [], _ => []
  | (k, v) :: rest, a => if k = a then Memory.remove rest a else (k, v) :: Memory.remove rest a

/-- The cells with an offset's byte put in its place. -/
def Memory.insert : Memory → Nat → Byte → Memory
  | [], a, b => [(a, b)]
  | (k, v) :: rest, a, b =>
    if a < k then (a, b) :: (k, v) :: rest
    else if a = k then (a, b) :: rest
    else (k, v) :: Memory.insert rest a b

/-- A store that keeps the canonical form: the value an unlisted offset reads as is not listed. -/
def Memory.write (dflt : Nat → Byte) (m : Memory) (a : Nat) (b : Byte) : Memory :=
  if b = dflt a then Memory.remove m a else Memory.insert m a b

/-- The canonical form: offsets strictly rising and below `MAP_SIZE`, no listed byte equal to what an unlisted offset reads as. -/
abbrev Memory.wf (dflt : Nat → Byte) (m : Memory) : Prop :=
  List.Pairwise (fun x y => x.1 < y.1) m ∧ ∀ c ∈ m, c.1 < mapBytes ∧ c.2 ≠ dflt c.1

/-- What an unlisted offset reads as: the reset contents of R46, `UID` at 16 to 27 of the primary map (R29, R302) and zero elsewhere. -/
def resetByte (c : Config) : Inst → Nat → Byte
  | .primary, k => if h : 16 ≤ k ∧ k < 28 then c.uid[k - 16] else 0#8
  | .secondary, _ => 0#8

/-! ## State by instance -/

/-- `Mi` (R10). -/
def State.map (s : State) : Inst → Memory
  | .primary => s.map1
  | .secondary => s.map2

/-- The engine registers of an instance (R35). -/
def State.eng (s : State) : Inst → Engine
  | .primary => s.eng1
  | .secondary => s.eng2

/-- The state with another map for an instance. -/
def State.setMap (s : State) (i : Inst) (m : Memory) : State :=
  match i with
  | .primary => { s with map1 := m }
  | .secondary => { s with map2 := m }

/-- The state with other engine registers for an instance. -/
def State.setEng (s : State) (i : Inst) (e : Engine) : State :=
  match i with
  | .primary => { s with eng1 := e }
  | .secondary => { s with eng2 := e }

/-- `RO_i` (R152). -/
def readOnly (c : Config) : Inst → Bool
  | .primary => c.ro1
  | .secondary => c.ro2

/-- `emit X(...)` (R10): one event more on the trace, which holds the events of every agent in the order of their steps. -/
def State.emit (s : State) (e : OutEvent) : State := { s with obs := { s.obs with trace := s.obs.trace ++ [e] } }

/-- What the host sees of a bus step (R45, R97). -/
def State.respond (s : State) (r : BusOut) : State := { s with obs := { s.obs with busOut := s.obs.busOut ++ [r] } }

/-! ## Register Map primitives -/

/-- The byte of a map at an offset. -/
def readByte (s : State) (i : Inst) (k : Nat) : Byte := Memory.read (resetByte s.cfg i) (s.map i) k

/-- `MapLoad(i, k)` (R120). -/
def mapLoad (s : State) (i : Inst) (k : Fin mapBytes) : Byte := readByte s i k

/-- `MapStore(i, k, v)` (R121). -/
def mapStore (s : State) (i : Inst) (k : Fin mapBytes) (v : Byte) : State :=
  s.setMap i (Memory.write (resetByte s.cfg i) (s.map i) k v)

/-- `BusRead(i, p)` (R124). -/
def busRead (s : State) (i : Inst) (p : Byte) : Byte :=
  if h : p.toNat < s.cfg.mapSize then mapLoad s i ⟨p.toNat, s.cfg.mapSize_fixed ▸ h⟩ else s.cfg.readFill

/-- `BusWrite(i, p, v)` (R125): the state after it, and whether the byte was stored. -/
def busWrite (s : State) (i : Inst) (p v : Byte) : State × Bool :=
  if h : p.toNat < s.cfg.mapSize ∧ readOnly s.cfg i = false then (mapStore s i ⟨p.toNat, s.cfg.mapSize_fixed ▸ h.1⟩ v, true)
  else (s, false)

/-- The offsets of the two edge-triggered bytes (R33). -/
abbrev offsetTrigger : Fin mapBytes := 11
abbrev offsetShutdown : Fin mapBytes := 31

/-- `Consume(k)` (R126). -/
def consume (s : State) (k : Fin mapBytes) : State := mapStore s .primary k 0#8

/-- `MemRead(i, off, n)` (R10): little-endian, each byte by a `MapLoad` of its own, inside the map. -/
def memRead (s : State) (i : Inst) (off : Nat) : (n : Nat) → off + n ≤ mapBytes → Nat
  | 0, _ => 0
  | n + 1, h => (mapLoad s i ⟨off, by omega⟩).toNat + 256 * memRead s i (off + 1) n (by omega)

/-- One of the `n` byte stores of `MemWrite(i, off, n, v)` (R10) and of `FieldStore` (R127): byte `j` of `v` goes to offset `off + j`. It is a step
of its own where the update is not atomic (R67). -/
def memWriteByte (s : State) (i : Inst) (off n v j : Nat) (h : off + n ≤ mapBytes) : State :=
  if hj : j < n then mapStore s i ⟨off + j, by omega⟩ (byteOf v j) else s

/-- `MemWrite(i, off, n, v)` (R10): its `n` byte stores one after another, with no other step between them. -/
def memWrite (s : State) (i : Inst) (off n v : Nat) (h : off + n ≤ mapBytes) : State :=
  (List.range n).foldl (fun t j => memWriteByte t i off n v j h) s

/-- The running millisecond counter as the host reads it, `{M[7], M[6], M[5], M[4]}` (R24, R62, R100). -/
def publishedCounter (s : State) : Nat := memRead s .primary 4 4 (by decide)

/-- The last ADC sample as the host reads it, `{M[13], M[12]}` (R27, R62, R100). -/
def publishedSample (s : State) : Nat := memRead s .primary 12 2 (by decide)

/-! ## Power-enable -/

/-- `power_en <- 0 ; emit POWER_EN(0)` (R215): idempotent, no second edge. -/
def deassertPower (s : State) : State :=
  if s.powerEn then { s with powerEn := false }.emit (.powerEn false) else s

/-! ## Transactions -/

/-- The active instance (R141, R158): the one whose state is not `IDLE`. -/
def activeInst (s : State) : Option Inst :=
  if s.eng1.st ≠ .idle then some .primary
  else if s.cfg.hasSecondary = true ∧ s.eng2.st ≠ .idle then some .secondary
  else none

/-- `WRHOOK(i, offset, length)` with the hook action of R149 and R216. -/
def hook (s : State) (i : Inst) (offset : Byte) (length : Nat) : State :=
  let t := s.emit (.wrHook i offset length)
  if s.cfg.hookImmediateShutdown = true ∧ i = .primary ∧ 0 < length ∧ offset.toNat ≤ 31 ∧ 31 < offset.toNat + length ∧
      mapLoad s .primary offsetShutdown = s.cfg.shutdownSentinel then
    deassertPower t
  else t

/-- `EndTxn(i)` (R149): the hook, if a write burst ends. -/
def endTxn (s : State) (i : Inst) : State :=
  if (s.eng i).st = .writeBurst then hook s i (s.eng i).boff (s.eng i).blen else s

/-- The engine state of one instance set, the other registers kept. -/
def setEngSt (s : State) (i : Inst) (st : EngSt) : State := s.setEng i { s.eng i with st := st }

/-- `EndTxn(j) ; st_j <- IDLE` (R147, R148). -/
def endAndIdle (s : State) (j : Inst) : State := setEngSt (endTxn s j) j .idle

/-- The same for an instance that exists and is not `IDLE`; nothing otherwise (R147). -/
def stopInst (s : State) (j : Inst) : State :=
  if s.cfg.present j = true ∧ (s.eng j).st ≠ .idle then endAndIdle s j else s

/-- `STOP` (R147): every instance. -/
def stopAll (s : State) : State := stopInst (stopInst s .primary) .secondary

/-- An address match (R142, R143): the active transaction ends first (R148), then the instance is addressed. -/
def addressMatch (s : State) (i : Inst) (d : Dir) : State :=
  let u := match activeInst s with
    | some j => endAndIdle s j
    | none => s
  (u.setEng i { u.eng i with st := .addressed, dir := d }).respond (.ack i)

/-- The pointer byte (R144). -/
def selectRegister (s : State) (i : Inst) (b : Byte) : State :=
  (s.setEng i { s.eng i with st := .registerSelect, ptr := b, boff := b, blen := 0 }).respond (.ack i)

/-- One data byte from the host (R145). -/
def receiveData (s : State) (i : Inst) (b : Byte) : State :=
  let e := s.eng i
  let w := busWrite s i e.ptr b
  (w.1.setEng i
    { e with st := .writeBurst, ptr := satInc e.ptr, blen := if w.2 then e.blen + 1 else e.blen }).respond (.ack i)

/-- One data byte to the host (R146). -/
def sendData (s : State) (i : Inst) : State :=
  let e := s.eng i
  (s.setEng i { e with st := .readBurst, ptr := satInc e.ptr }).respond (.byte i (busRead s i e.ptr))

/-- `m` data bytes to the host, one after another (R98 form b, R241). -/
def sendMany (i : Inst) : Nat → State → State
  | 0, s => s
  | m + 1, s => sendMany i m (sendData s i)

/-! ## The exception: a bus fault -/

/-- `raise BusFault(kind)` (R268): nothing is saved, every instance goes through `ERROR` to `IDLE`, there is no handler and no vector; the
kind goes onto the trace (R150, R151). There is no return operation (R269). -/
def raiseBusFault (s : State) (kind : FaultKind) : State :=
  (setEngSt (setEngSt s .primary .idle) .secondary .idle).emit (.busFault kind)

/-! ## The serializer's start -/

/-- What `LED_START` returns (R181). -/
inductive StartResult where
  | started
  | rejected
  deriving DecidableEq, Repr

/-- `LED_START` (R181): rejected with no state change while a transmission is in flight (R182). -/
def startLed (s : State) : State × StartResult :=
  if s.led.busy then (s, .rejected)
  else ({ s with led := { s.led with busy := true, st := .armed, idx := 0, q := [] } }, .started)

/-- One symbol or the latch gap on the LED wire (R185, R186): it stands on the wire's own trace (R37) and on the block's (R10). -/
def driveWire (s : State) (m : Mark) : State := { s with led := { s.led with wire := s.led.wire ++ [m] } }.emit (.led m)

/-! ## Sequencer helpers -/

/-- `spc <- S` (R10). -/
def gotoStep (s : State) (p : SeqStep) : State := { s with seq := { s.seq with spc := p } }

/-! ## Enabling -/

/-- An operation that the state selects gives its next state; one it does not select has no step (R42, R108). -/
def whenEnabled (s : State) (enabled : Bool) (t : State) : Host.Outcome State Fault Refusal :=
  if s.powered then (if enabled then .next t else .refused .notEnabled) else .refused .unpowered

end Sys2Proof.Machine
end

