-- ==== Sys2Proof/Machine/Bus.lean ====
section
/-! DEFINITION. The bus-slave protocol engine (41_bus_engine.md R142 to R151) and the two command values carried as data (30_encoding.md R102). -/

namespace Sys2Proof.Machine

/-- Whether an instance waits for its pointer byte (R144). -/
def awaitsPointer (e : Engine) : Bool := e.dir == .W && e.st == .addressed

/-- Whether an instance takes data bytes (R145). -/
def awaitsData (e : Engine) : Bool := e.dir == .W && (e.st == .registerSelect || e.st == .writeBurst)

/-- Whether an instance sends data bytes (R146). -/
def sendsData (e : Engine) : Bool := e.dir == .R && (e.st == .addressed || e.st == .readBurst)

/-- An operation on the active instance, enabled when that instance's registers allow it. -/
def onActive (s : State) (ok : Engine → Bool) (op : Inst → State) : Host.Outcome State Fault Refusal :=
  match activeInst s with
  | some i => whenEnabled s (ok (s.eng i)) (op i)
  | none => whenEnabled s false s

/-- `ADDR_W(i)` (R142). -/
def execAddrW (i : Inst) (s : State) : Host.Outcome State Fault Refusal :=
  if s.cfg.present i then whenEnabled s true (addressMatch s i .W) else .refused .absentInstance

/-- `ADDR_R(i)` (R143). -/
def execAddrR (i : Inst) (s : State) : Host.Outcome State Fault Refusal :=
  if s.cfg.present i then whenEnabled s true (addressMatch s i .R) else .refused .absentInstance

/-- `REGSEL(b)` (R144). -/
def execRegsel (p : Byte) (s : State) : Host.Outcome State Fault Refusal :=
  onActive s awaitsPointer fun i => selectRegister s i p

/-- `WDATA(b)` (R145). -/
def execWdata (d : Byte) (s : State) : Host.Outcome State Fault Refusal :=
  onActive s awaitsData fun i => receiveData s i d

/-- `RDATA` (R146). -/
def execRdata (s : State) : Host.Outcome State Fault Refusal :=
  onActive s sendsData fun i => sendData s i

/-- `STOP` (R147). -/
def execStop (s : State) : Host.Outcome State Fault Refusal := whenEnabled s true (stopAll s)

/-- `RESTART(j)` (R148): the active instance's transaction ends; the address match that follows is `ADDR_W` or `ADDR_R`. -/
def execRestart (j : Inst) (s : State) : Host.Outcome State Fault Refusal :=
  if s.cfg.present j then whenEnabled s ((s.eng j).st != .idle) (endAndIdle s j) else .refused .absentInstance

/-- `BUSERR` (R150). -/
def execBuserr (s : State) : Host.Outcome State Fault Refusal := whenEnabled s true (raiseBusFault s .busError)

/-- `ARBLOST` (R151). -/
def execArblost (s : State) : Host.Outcome State Fault Refusal := whenEnabled s true (raiseBusFault s .arbLost)

/-- `WRHOOK(i, offset, length)` (R149, R270). -/
def execWrhook (i : Inst) (offset : Byte) (length : Nat) (s : State) : Host.Outcome State Fault Refusal :=
  if s.cfg.present i then whenEnabled s true (hook s i offset length) else .refused .absentInstance

/-- Whether the primary instance is the active one and takes a data byte at this offset. -/
def awaitsDataAt (s : State) (offset : Byte) : Bool :=
  decide (activeInst s = some .primary) && awaitsData s.eng1 && s.eng1.ptr == offset

/-- `TRIGGER_LED(v)`: `WDATA(v)`, `v != 0`, with `ptr_1 = 11` (R102, R145). -/
def execTriggerLed (v : Byte) (s : State) : Host.Outcome State Fault Refusal :=
  whenEnabled s (awaitsDataAt s 11#8 && v != 0#8) (receiveData s .primary v)

/-- `TRIGGER_SHUTDOWN`: `WDATA(0xFF)` with `ptr_1 = 31` (R102, R145). -/
def execTriggerShutdown (s : State) : Host.Outcome State Fault Refusal :=
  whenEnabled s (awaitsDataAt s 31#8) (receiveData s .primary s.cfg.shutdownSentinel)

end Sys2Proof.Machine
end

