-- ==== Sys2Proof/Machine/Environment.lean ====
section
/-! DEFINITION. The time base, the supply and reset (43_power_sequencer.md R217, R220; 70_reset_and_hazards.md R300). -/

namespace Sys2Proof.Machine

/-- `TICK` (R217): `ms <- (ms + 1) mod 2^32`. -/
def execTick (s : State) : Host.Outcome State Fault Refusal :=
  whenEnabled s true { s with seq := { s.seq with ms := s.seq.ms + 1#32 } }

/-- `POWER_LOSS` (R220): enabled once `power_en = 0`. The rest of the state is meaningless afterwards; it keeps its bits, and nothing
reads them before `RESET` (log entry 13). -/
def execPowerLoss (s : State) : Host.Outcome State Fault Refusal :=
  if s.powered && s.powerEn then .refused .supplyHeld else whenEnabled s true { s with powered := false }

/-- `RESET` (R300): everything of R20 takes its value of R46, at any time; the environment and the output record are not the block's. -/
def execReset (s : State) : Host.Outcome State Fault Refusal := .next (State.resetWith s.cfg s.env s.obs)

end Sys2Proof.Machine
end

