-- ==== Sys2Proof/Machine/HostClient.lean ====
section
/-! DEFINITION. The host's pseudo-instructions (44_host_client.md R241 to R243) as the engine steps they expand to, and the host's own arithmetic (R247). -/

namespace Sys2Proof.Machine

/-- `S Ai+W p` (R106): address match, then the pointer byte. -/
def openAt (s : State) (i : Inst) (p : Byte) : State := selectRegister (addressMatch s i .W) i p

/-- `CMD_SET_LED` (R242): `S A1+W 08 RR GG BB 01 P`, with no other agent's step inside (log entry 12). -/
def execCmdSetLed (r g b : Byte) (s : State) : Host.Outcome State Fault Refusal :=
  whenEnabled s true
    (stopAll (receiveData (receiveData (receiveData (receiveData (openAt s .primary 8#8) .primary r) .primary g) .primary b) .primary 1#8))

/-- `CMD_SHUTDOWN` (R243): `S A1+W 1F FF P`. -/
def execCmdShutdown (s : State) : Host.Outcome State Fault Refusal :=
  whenEnabled s true (stopAll (receiveData (openAt s .primary 31#8) .primary s.cfg.shutdownSentinel))

/-- `CMD_READ` (R241): `S A1+W pp Sr A1+R <r0 ... <r(m-1) P`. -/
def execCmdRead (p m : Byte) (s : State) : Host.Outcome State Fault Refusal :=
  whenEnabled s true (stopAll (sendMany .primary m.toNat (addressMatch (openAt s .primary p) .primary .R)))

/-- The number a decimal stands for. -/
def decimalValue (d : Decimal) : ℚ := (d.mantissa : ℚ) / 10 ^ d.places

/-- `vbat` (R247), host side: `divider_ratio * reference_voltage * (adc_sample / adc_max)` in exact arithmetic. -/
def hostVbat (h : HostSide) (adcSample : Nat) : ℚ :=
  decimalValue h.dividerRatio * decimalValue h.vref * ((adcSample : ℚ) / (h.adcMax : ℚ))

/-- The daemon's polls (R245), host side: the period in milliseconds and the read command it repeats, offset 14 and offsets 12 to 13. -/
def daemonPolls (h : HostSide) : List (Nat × Instr) :=
  [(h.pollInputMs, .cmdRead 14#8 1#8), (h.pollAdcMs, .cmdRead 12#8 2#8)]

end Sys2Proof.Machine
end

