-- ==== Sys2Proof/Machine/Led.lean ====
section
/-! DEFINITION. The LED serializer (42_led_serializer.md R181 to R186). -/

namespace Sys2Proof.Machine

/-- `LED_START(n)` (R181): only `n = N_LEDS = 1`; while busy it is rejected and changes nothing (R182). -/
def execLedStart (n : Nat) (s : State) : Host.Outcome State Fault Refusal :=
  if n = 1 then whenEnabled s true (startLed s).1 else .refused .badLedCount

/-- `LED_FETCH` (R183): the three colour bytes in one step, permuted (R184), most significant bit first. -/
def execLedFetch (s : State) : Host.Outcome State Fault Refusal :=
  whenEnabled s (s.led.st == .armed)
    { s with
      led := { s.led with
        q := frameBits s.cfg.channelOrder (mapLoad s .primary 8) (mapLoad s .primary 9) (mapLoad s .primary 10)
        st := .shift } }

/-- `LED_BIT` (R185): the head of the queue goes onto the wire. -/
def execLedBit (s : State) : Host.Outcome State Fault Refusal :=
  whenEnabled s (s.led.st == .shift && !s.led.q.isEmpty)
    (driveWire { s with led := { s.led with q := s.led.q.tail } } (symbolOf (s.led.q.headD false)))

/-- `LED_DONE` (R186): the next LED, or the latch gap and the end of the transmission. -/
def execLedDone (s : State) : Host.Outcome State Fault Refusal :=
  whenEnabled s (s.led.st == .shift && s.led.q.isEmpty)
    (if s.led.idx + 1 < s.cfg.nLeds then { s with led := { s.led with idx := s.led.idx + 1, st := .armed } }
     else driveWire { s with led := { s.led with idx := s.led.idx + 1, st := .idle, busy := false } } .latch)

end Sys2Proof.Machine
end

