-- ==== Sys2Proof/Machine/Sequencer.lean ====
section
/-! DEFINITION. The power-rail shutdown sequencer (43_power_sequencer.md R202 to R214). -/

namespace Sys2Proof.Machine

/-- A step of the scan is enabled when `spc` names it (R201). -/
def atStep (s : State) (p : SeqStep) : Bool := s.seq.spc == p

/-- `MS_PUBLISH` (R202): with nothing outstanding, the snapshot; otherwise one of the outstanding bytes is stored, and after the last of
them the scan goes on. -/
def execMsPublish (pick : Byte) (s : State) : Host.Outcome State Fault Refusal :=
  whenEnabled s (atStep s .msPublish)
    (match s.seq.pend with
     | [] => { s with seq := { s.seq with msSnap := s.seq.ms, pend := [0, 1, 2, 3] } }
     | pend =>
       let j := pickOf pend pick
       let rest := pend.erase j
       let t := memWriteByte s .primary 4 4 s.seq.msSnap.toNat j (by decide)
       { t with seq := { s.seq with pend := rest, spc := if rest = [] then .trigLoad else .msPublish } })

/-- `TRIG_LOAD` (R203). -/
def execTrigLoad (s : State) : Host.Outcome State Fault Refusal :=
  whenEnabled s (atStep s .trigLoad) { s with seq := { s.seq with t11 := mapLoad s .primary offsetTrigger, spc := .trigAct } }

/-- `TRIG_ACT` (R204): start a transmission, or go on when nothing is pending or the serializer is busy. -/
def execTrigAct (s : State) : Host.Outcome State Fault Refusal :=
  whenEnabled s (atStep s .trigAct)
    (if isPending s.seq.t11 = true ∧ s.led.busy = false then gotoStep (startLed s).1 .trigClear else gotoStep s .adcCheck)

/-- `TRIG_CLEAR` (R205). -/
def execTrigClear (s : State) : Host.Outcome State Fault Refusal :=
  whenEnabled s (atStep s .trigClear) (gotoStep (consume s offsetTrigger) .adcCheck)

/-- `ADC_CHECK` (R206). -/
def execAdcCheck (s : State) : Host.Outcome State Fault Refusal :=
  whenEnabled s (atStep s .adcCheck)
    (if sampleDue s.cfg.sampleInterval s.seq.ms s.seq.lastSample then
      { s with seq := { s.seq with lastSample := s.seq.ms, adcPending := true, spc := .adcWait } }.emit .adcReq
     else gotoStep s .gpioRefresh)

/-- `ADC_WAIT` (R207): the converter has answered `v`. Without an answer there is no step (R271), which the fetch sees to. -/
def execAdcWait (v : Half) (s : State) : Host.Outcome State Fault Refusal :=
  whenEnabled s (atStep s .adcWait) { s with seq := { s.seq with adcV := v, adcPending := false, spc := .adcStore } }

/-- `ADC_STORE` (R208): two byte stores in either order. Both bytes are outstanding when the step is entered with an empty `pend` (log
entry 7). -/
def execAdcStore (pick : Byte) (s : State) : Host.Outcome State Fault Refusal :=
  whenEnabled s (atStep s .adcStore)
    (let pend := if s.seq.pend = [] then [0, 1] else s.seq.pend
     let j := pickOf pend pick
     let rest := pend.erase j
     let t := memWriteByte s .primary 12 2 s.seq.adcV.toNat j (by decide)
     { t with seq := { s.seq with pend := rest, spc := if rest = [] then .battEval else .adcStore } })

/-- The hysteresis counter after a sample (R209, R211): 0 stays 0, a low sample takes one off, a normal one reloads it. -/
def nextHyst (hystInit hyst : Nat) (low : Bool) : Nat := if hyst = 0 then 0 else if low then hyst - 1 else hystInit

/-- `BATT_EVAL` (R209): classify, count, drop the rail when the count reaches 0, publish the flag. -/
def execBattEval (s : State) : Host.Outcome State Fault Refusal :=
  whenEnabled s (atStep s .battEval)
    (let low := isLow s.cfg.adcLowThreshold s.seq.adcV
     let hyst := nextHyst s.cfg.hystInit s.seq.hyst low
     let inState := setBatteryLow s.seq.inState low
     let t := { s with seq := { s.seq with hyst := hyst, inState := inState, spc := .gpioRefresh } }
     let u := if s.seq.hyst ≠ 0 ∧ hyst = 0 then deassertPower t else t
     mapStore u .primary 14 inState)

/-- `GPIO_REFRESH` (R212): the four pins, sampled in this step. -/
def execGpioRefresh (s : State) : Host.Outcome State Fault Refusal :=
  whenEnabled s (atStep s .gpioRefresh)
    (let inState := refreshInputs s.seq.inState s.env.pins
     mapStore { s with seq := { s.seq with inState := inState, spc := .shdnLoad } } .primary 14 inState)

/-- `SHDN_LOAD` (R213). -/
def execShdnLoad (s : State) : Host.Outcome State Fault Refusal :=
  whenEnabled s (atStep s .shdnLoad) { s with seq := { s.seq with t31 := mapLoad s .primary offsetShutdown, spc := .shdnAct } }

/-- `SHDN_ACT` (R214): only the sentinel acts, and only then is the byte cleared. -/
def execShdnAct (s : State) : Host.Outcome State Fault Refusal :=
  whenEnabled s (atStep s .shdnAct)
    (gotoStep (if isSentinel s.cfg s.seq.t31 then consume (deassertPower s) offsetShutdown else s) .msPublish)

end Sys2Proof.Machine
end

