-- ==== Sys2Proof/Machine/Dispatch.lean ====
section
/-! DEFINITION. One arm per operation of opcode_table.json. -/

namespace Sys2Proof.Machine

/-- What each operation does (30_encoding.md R108). -/
def exec (i : Instr) (s : State) : Host.Outcome State Fault Refusal :=
  match i with
  -- the protocol engine
  | .addrW inst => Sys2Proof.Machine.execAddrW inst s
  | .addrR inst => Sys2Proof.Machine.execAddrR inst s
  | .regsel p => Sys2Proof.Machine.execRegsel p s
  | .wdata d => Sys2Proof.Machine.execWdata d s
  | .rdata => Sys2Proof.Machine.execRdata s
  | .stop => Sys2Proof.Machine.execStop s
  | .restart j => Sys2Proof.Machine.execRestart j s
  | .buserr => Sys2Proof.Machine.execBuserr s
  | .arblost => Sys2Proof.Machine.execArblost s
  | .wrhook inst offset length => Sys2Proof.Machine.execWrhook inst offset length s
  -- the serializer
  | .ledStart n => Sys2Proof.Machine.execLedStart n s
  | .ledFetch => Sys2Proof.Machine.execLedFetch s
  | .ledBit => Sys2Proof.Machine.execLedBit s
  | .ledDone => Sys2Proof.Machine.execLedDone s
  -- the sequencer
  | .msPublish pick => Sys2Proof.Machine.execMsPublish pick s
  | .trigLoad => Sys2Proof.Machine.execTrigLoad s
  | .trigAct => Sys2Proof.Machine.execTrigAct s
  | .trigClear => Sys2Proof.Machine.execTrigClear s
  | .adcCheck => Sys2Proof.Machine.execAdcCheck s
  | .adcWait v => Sys2Proof.Machine.execAdcWait v s
  | .adcStore pick => Sys2Proof.Machine.execAdcStore pick s
  | .battEval => Sys2Proof.Machine.execBattEval s
  | .gpioRefresh => Sys2Proof.Machine.execGpioRefresh s
  | .shdnLoad => Sys2Proof.Machine.execShdnLoad s
  | .shdnAct => Sys2Proof.Machine.execShdnAct s
  -- the environment
  | .tick => Sys2Proof.Machine.execTick s
  | .powerLoss => Sys2Proof.Machine.execPowerLoss s
  | .reset => Sys2Proof.Machine.execReset s
  -- commands carried as data, and host commands
  | .triggerLed v => Sys2Proof.Machine.execTriggerLed v s
  | .triggerShutdown => Sys2Proof.Machine.execTriggerShutdown s
  | .cmdSetLed r g b => Sys2Proof.Machine.execCmdSetLed r g b s
  | .cmdShutdown => Sys2Proof.Machine.execCmdShutdown s
  | .cmdRead p m => Sys2Proof.Machine.execCmdRead p m s

end Sys2Proof.Machine
end

