-- ==== Sys2Proof/Machine/Fetch.lean ====
section
/-! DEFINITION. What comes next: the event at the head of the schedule, the code the state reads it as (30_encoding.md R99, R108; 41_bus_engine.md R140, R141), and the operation it decodes to. -/

namespace Sys2Proof.Machine

/-- The next event: the schedule's head, or a free one when the schedule has run out (R6, R11; log entries 1 and 2). -/
def nextEvent (s : State) : Event :=
  match s.env.sched with
  | e :: _ => e
  | [] => Config.freeEvent s.env.draws

/-- Whether the bus carries another device's transaction after an event (R93): from an address that matches no instance to the next address
match or stop. -/
def foreignAfter (c : Config) (foreign : Bool) : Event → Bool
  | .addr b => (addrMatch c (addrField b)).isNone
  | .stop => false
  | .txn _ => false
  | .rxByte _ => foreign
  | .txReq => foreign
  | .busErr => foreign
  | .arbLost => foreign
  | .seq _ => foreign
  | .ser => foreign
  | .tick => foreign
  | .adcDone _ => foreign
  | .pin _ => foreign
  | .powerLoss => foreign
  | .reset => foreign

/-- The state with the next event taken out of the environment. -/
def advance (s : State) : State :=
  { s with
    env := { s.env with
      sched := s.env.sched.tail
      draws := if s.env.sched = [] then s.env.draws + 1 else s.env.draws
      foreign := foreignAfter s.cfg s.env.foreign (nextEvent s) } }

/-- How the block takes an event. -/
inductive Selected where
  /-- An operation, encoded as its format and bytes. -/
  | op (w : Code)
  /-- No step of the block: another device's traffic, a late ADC answer, an agent whose turn finds nothing to do. -/
  | none
  /-- The pins change; no step of the block. -/
  | pins (p : Pins)
  /-- No step exists (R155). -/
  | refuse (r : Refusal)
  deriving DecidableEq, Repr

/-- A received byte (R140 rows 3 to 5, 11, 12): nobody's, a pointer byte, a data byte (a command value at offsets 11 and 31 of the primary
map), or refused. -/
def selectRx (s : State) (b : Byte) : Selected :=
  if s.env.foreign then .none
  else
    match activeInst s with
    | none => .none
    | some i =>
      let e := s.eng i
      if awaitsPointer e then .op ⟨.P, [b]⟩
      else if awaitsData e then
        if i = .primary ∧ (e.ptr = 11#8 ∨ e.ptr = 31#8) then .op ⟨.MAPVALUE e.ptr, [b]⟩ else .op ⟨.D, [b]⟩
      else .refuse .unenabledEvent

/-- A byte request (R140 rows 6, 7, 11, 13). -/
def selectTx (s : State) : Selected :=
  if s.env.foreign then .none
  else
    match activeInst s with
    | none => .none
    | some i => if sendsData (s.eng i) then .op ⟨.D, []⟩ else .refuse .unenabledEvent

/-- The sequencer's turn (R201): the step `spc` names; at `ADC_WAIT` it busy-waits for the converter (R207, R271). -/
def selectSeq (s : State) (pick : Byte) : Selected :=
  match s.seq.spc with
  | .msPublish => .op (encode s.cfg (.msPublish pick))
  | .trigLoad => .op (encode s.cfg .trigLoad)
  | .trigAct => .op (encode s.cfg .trigAct)
  | .trigClear => .op (encode s.cfg .trigClear)
  | .adcCheck => .op (encode s.cfg .adcCheck)
  | .adcWait => .none
  | .adcStore => .op (encode s.cfg (.adcStore pick))
  | .battEval => .op (encode s.cfg .battEval)
  | .gpioRefresh => .op (encode s.cfg .gpioRefresh)
  | .shdnLoad => .op (encode s.cfg .shdnLoad)
  | .shdnAct => .op (encode s.cfg .shdnAct)

/-- The serializer's turn (R183, R185, R186, R190). -/
def selectSer (s : State) : Selected :=
  match s.led.st with
  | .idle => .none
  | .armed => .op (encode s.cfg .ledFetch)
  | .shift => if s.led.q.isEmpty then .op (encode s.cfg .ledDone) else .op (encode s.cfg .ledBit)

/-- How a powered block takes an event: the "selected by" column of R108. -/
def select (s : State) : Event → Selected
  | .addr b => if (addrMatch s.cfg (addrField b)).isSome then .op ⟨.A, [b]⟩ else .none
  | .rxByte b => selectRx s b
  | .txReq => selectTx s
  | .stop => .op (encode s.cfg .stop)
  | .busErr => .op (encode s.cfg .buserr)
  | .arbLost => .op (encode s.cfg .arblost)
  | .seq pick => selectSeq s pick
  | .ser => selectSer s
  | .tick => .op (encode s.cfg .tick)
  | .adcDone v => if s.seq.spc = .adcWait then .op (encode s.cfg (.adcWait v)) else .none
  | .pin p => .pins p
  | .powerLoss => .op (encode s.cfg .powerLoss)
  | .reset => .op (encode s.cfg .reset)
  | .txn bs => .op ⟨.TXN, bs⟩

/-- How a block without supply takes an event (R42): only `RESET` is a step; the pins are outside. -/
def selectUnpowered (s : State) : Event → Selected
  | .reset => .op (encode s.cfg .reset)
  | .pin p => .pins p
  | .addr _ => .none
  | .rxByte _ => .none
  | .txReq => .none
  | .stop => .none
  | .busErr => .none
  | .arbLost => .none
  | .seq _ => .none
  | .ser => .none
  | .tick => .none
  | .adcDone _ => .none
  | .powerLoss => .none
  | .txn _ => .none

/-- What a step does next. -/
inductive Fetched where
  /-- Run this operation. -/
  | run (i : Instr)
  /-- No step of the block: go on in this state. -/
  | idle (t : State)
  /-- No step exists. -/
  | stop (r : Refusal)
  deriving DecidableEq, Repr

/-- The state after the pins change. -/
def setPins (s : State) (p : Pins) : State := { s with env := { s.env with pins := p } }

/-- Events put at the head of the schedule. -/
def deliverAll (es : List Event) (s : State) : State := { s with env := { s.env with sched := es ++ s.env.sched } }

/-- The bus events of a line (R98, R106, R141): the start and its address byte, the bytes the host sends after it, the stop. -/
def lineEvents : List Byte → List Event
  | [] => [.stop]
  | a :: bs => .addr a :: (bs.map .rxByte ++ [.stop])

/-- The events that an event whose code is no operation stands for: a line that is no command is its bus events, one after another; nothing
else is made of others. -/
def expansion : Event → List Event
  | .txn bs => lineEvents bs
  | .addr _ => []
  | .rxByte _ => []
  | .txReq => []
  | .stop => []
  | .busErr => []
  | .arbLost => []
  | .seq _ => []
  | .ser => []
  | .tick => []
  | .adcDone _ => []
  | .pin _ => []
  | .powerLoss => []
  | .reset => []

/-- Read the next event in its context and decode it; what is no operation is replaced by the events it stands for (R105: no byte the host sends is
illegal); a configuration that breaks a constraint has no meaning (R8). -/
def fetch (s : State) : Fetched :=
  if s.cfg.valid then
    match if s.powered then select s (nextEvent s) else selectUnpowered s (nextEvent s) with
    | .op w =>
      match decode s.cfg w with
      | .ok i => .run i
      | .error _ => .idle (deliverAll (expansion (nextEvent s)) (advance s))
    | .none => .idle (advance s)
    | .pins p => .idle (setPins (advance s) p)
    | .refuse r => .stop r
  else .stop .badConfig

/-! ## Placing an operation where the next step fetches it -/

/-- An event put at the head of the schedule. -/
def deliver (e : Event) (s : State) : State := deliverAll [e] s

/-- The primary instance active with these registers, and an event on the bus for it. -/
def deliverOnBus (st : EngSt) (d : Dir) (ptr : Byte) (e : Event) (s : State) : State :=
  deliver e
    { s with
      eng1 := { s.eng1 with st := st, dir := d, ptr := ptr }
      eng2 := { s.eng2 with st := .idle }
      env := { s.env with foreign := false } }

/-- The sequencer at a step, and an event for it. -/
def deliverAtStep (p : SeqStep) (e : Event) (s : State) : State := deliver e (gotoStep s p)

/-- The serializer in a state with a queue, and its turn. -/
def deliverLed (st : LedSt) (q : List Bool) (s : State) : State :=
  deliver .ser { s with led := { s.led with busy := true, st := st, q := q } }

/-- The state in which the next step runs exactly this operation: its event at the head of the schedule, and what selects it (R108) set.
`RESTART`, `WRHOOK` and `LED_START` are parts of other steps and never fetched (log entry 18): they change nothing here. -/
def place (i : Instr) (s : State) : State :=
  match i with
  | .addrW inst => deliver (.addr (addrByte s.cfg inst .W)) s
  | .addrR inst => deliver (.addr (addrByte s.cfg inst .R)) s
  | .regsel p => deliverOnBus .addressed .W s.eng1.ptr (.rxByte p) s
  | .wdata d => deliverOnBus .registerSelect .W 0#8 (.rxByte d) s
  | .rdata => deliverOnBus .addressed .R s.eng1.ptr .txReq s
  | .stop => deliver .stop s
  | .restart _ => s
  | .buserr => deliver .busErr s
  | .arblost => deliver .arbLost s
  | .wrhook _ _ _ => s
  | .ledStart _ => s
  | .ledFetch => deliverLed .armed [] s
  | .ledBit => deliverLed .shift (false :: s.led.q.tail) s
  | .ledDone => deliverLed .shift [] s
  | .msPublish pick => deliverAtStep .msPublish (.seq pick) s
  | .trigLoad => deliverAtStep .trigLoad (.seq 0#8) s
  | .trigAct => deliverAtStep .trigAct (.seq 0#8) s
  | .trigClear => deliverAtStep .trigClear (.seq 0#8) s
  | .adcCheck => deliverAtStep .adcCheck (.seq 0#8) s
  | .adcWait v => deliverAtStep .adcWait (.adcDone v) s
  | .adcStore pick => deliverAtStep .adcStore (.seq pick) s
  | .battEval => deliverAtStep .battEval (.seq 0#8) s
  | .gpioRefresh => deliverAtStep .gpioRefresh (.seq 0#8) s
  | .shdnLoad => deliverAtStep .shdnLoad (.seq 0#8) s
  | .shdnAct => deliverAtStep .shdnAct (.seq 0#8) s
  | .tick => deliver .tick s
  | .powerLoss => deliver .powerLoss { s with powerEn := false }
  | .reset => deliver .reset s
  | .triggerLed v => deliverOnBus .registerSelect .W 11#8 (.rxByte v) s
  | .triggerShutdown => deliverOnBus .registerSelect .W 31#8 (.rxByte s.cfg.shutdownSentinel) s
  | .cmdSetLed r g b => deliver (.txn (encode s.cfg (.cmdSetLed r g b)).bytes) s
  | .cmdShutdown => deliver (.txn (encode s.cfg .cmdShutdown).bytes) s
  | .cmdRead p m => deliver (.txn (encode s.cfg (.cmdRead p m)).bytes) s

/-- A table word placed for the next step; a word that is no instruction is placed as what it is on the bus, an address byte or a line. -/
def placeWord (s : State) (nbits w : Nat) : State :=
  match decodeTableWord nbits w with
  | some i => place i s
  | none => deliver (if 8 < nbits then .txn (tableBytes (nbits / 8) w) else .addr (BitVec.ofNat 8 w)) s

end Sys2Proof.Machine
end

