-- ==== Sys2Proof/Machine/Step.lean ====
section
/-! DEFINITION. One step of the machine. -/

namespace Sys2Proof.Machine

/-- Fetch the next operation and run it on the state that the event has been taken out of. -/
def step (s : State) : Host.Outcome State Fault Refusal :=
  match fetch s with
  | .run i => exec i (advance s)
  | .idle t => .next t
  | .stop r => .refused r

/-- The state with a table word placed where `step` fetches its next instruction (log entry 22). -/
def State.withFetchWord (s : State) (nbits w : Nat) : State := placeWord s nbits w

end Sys2Proof.Machine
end

