-- ==== Sys2Proof/Safety.lean ====
section
/-! DEFINITION. What the claims speak of: runs of operations, what each event makes a step run, the invariant every step keeps, the hook's report, the reset values, the stores an operation may make, and the samples of the hysteresis law. -/

namespace Sys2Proof.Machine

/-! ## Runs -/

/-- Operations one after another, with no other agent's step between them; the first stop ends the run. -/
def runInstrs : List Instr → State → Host.Outcome State Fault Refusal
  | [], s => .next s
  | i :: rest, s =>
    match exec i s with
    | .next t => runInstrs rest t
    | .fault r => .fault r
    | .refused r => .refused r

/-- A battery sample classified: the sequencer at `BATT_EVAL` with the converter's answer `v`. -/
def withSample (s : State) (v : Half) : State := { s with seq := { s.seq with adcV := v, spc := .battEval } }

/-- Samples classified one after another (R211: the counter counts samples, whatever lies between them). -/
def runSamples : List Half → State → Host.Outcome State Fault Refusal
  | [], s => .next s
  | v :: rest, s =>
    match exec .battEval (withSample s v) with
    | .next t => runSamples rest t
    | .fault r => .fault r
    | .refused r => .refused r

/-! ## What a step runs -/

/-- The operation the sequencer runs at a step (R201); at `ADC_WAIT` it waits for the converter. -/
def stepInstr (p : SeqStep) (pick : Byte) : Option Instr :=
  match p with
  | .msPublish => some (.msPublish pick)
  | .trigLoad => some .trigLoad
  | .trigAct => some .trigAct
  | .trigClear => some .trigClear
  | .adcCheck => some .adcCheck
  | .adcWait => none
  | .adcStore => some (.adcStore pick)
  | .battEval => some .battEval
  | .gpioRefresh => some .gpioRefresh
  | .shdnLoad => some .shdnLoad
  | .shdnAct => some .shdnAct

/-- What a step of a powered block with a valid configuration runs, event by event: the "selected by" column of R108, and, where the spec gives an agent
no step, the model's choice (log entry 16). -/
structure StepsAsSelected (s : State) : Prop where
  /-- R92, R93, R140 rows 1, 2 and 10: the address byte of an instance that exists, by its direction bit. -/
  address : ∀ i b, nextEvent s = .addr b → s.cfg.present i = true → b.extractLsb' 1 7 = s.cfg.addr i →
    step s = exec (if b.getLsbD 0 = true then .addrR i else .addrW i) (advance s)
  /-- R140 row 3. -/
  pointerByte : ∀ i b, nextEvent s = .rxByte b → s.env.foreign = false → activeInst s = some i → (s.eng i).st = .addressed →
    (s.eng i).dir = .W → step s = exec (.regsel b) (advance s)
  /-- R140 rows 4 and 5, at every offset. -/
  dataByte : ∀ i b, nextEvent s = .rxByte b → s.env.foreign = false → activeInst s = some i →
    ((s.eng i).st = .registerSelect ∨ (s.eng i).st = .writeBurst) → (s.eng i).dir = .W → step s = exec (.wdata b) (advance s)
  /-- R102: a data byte that is a command value. -/
  commandByte : ∀ b, nextEvent s = .rxByte b → s.env.foreign = false → activeInst s = some .primary →
    (s.eng1.st = .registerSelect ∨ s.eng1.st = .writeBurst) → s.eng1.dir = .W →
    (s.eng1.ptr = 11#8 → b ≠ 0x00#8 → step s = exec (.triggerLed b) (advance s)) ∧
      (s.eng1.ptr = 31#8 → b = 0xFF#8 → step s = exec .triggerShutdown (advance s))
  /-- R140 rows 6 and 7. -/
  byteRequest : ∀ i, nextEvent s = .txReq → s.env.foreign = false → activeInst s = some i →
    ((s.eng i).st = .addressed ∨ (s.eng i).st = .readBurst) → (s.eng i).dir = .R → step s = exec .rdata (advance s)
  /-- R140 rows 8 and 9. -/
  stop : nextEvent s = .stop → step s = exec .stop (advance s)
  busErr : nextEvent s = .busErr → step s = exec .buserr (advance s)
  arbLost : nextEvent s = .arbLost → step s = exec .arblost (advance s)
  /-- R201: the sequencer runs the step `spc` names; the operand `pick` is the model's (log entry 6). -/
  scan : ∀ pick i, nextEvent s = .seq pick → stepInstr s.seq.spc pick = some i → step s = exec i (advance s)
  /-- R207, R271: at `ADC_WAIT` the sequencer has no step; that its turn changes only the schedule is the model's (log entry 16). -/
  wait : ∀ pick, nextEvent s = .seq pick → s.seq.spc = .adcWait → step s = .next (advance s)
  /-- R183, R185, R186. -/
  fetchFrame : nextEvent s = .ser → s.led.st = .armed → step s = exec .ledFetch (advance s)
  emitBit : nextEvent s = .ser → s.led.st = .shift → s.led.q ≠ [] → step s = exec .ledBit (advance s)
  endFrame : nextEvent s = .ser → s.led.st = .shift → s.led.q = [] → step s = exec .ledDone (advance s)
  /-- R190: the idle serializer has no step; that its turn changes only the schedule is the model's (log entry 16). -/
  serializerIdle : nextEvent s = .ser → s.led.st = .idle → step s = .next (advance s)
  /-- R207; an answer at any other step is ignored. -/
  answer : ∀ v, nextEvent s = .adcDone v → s.seq.spc = .adcWait → step s = exec (.adcWait v) (advance s)
  lateAnswer : ∀ v, nextEvent s = .adcDone v → s.seq.spc ≠ .adcWait → step s = .next (advance s)
  /-- R217, R220, R300. -/
  tick : nextEvent s = .tick → step s = exec .tick (advance s)
  powerLoss : nextEvent s = .powerLoss → step s = exec .powerLoss (advance s)
  reset : nextEvent s = .reset → step s = exec .reset (advance s)
  /-- R43: the pins change and nothing else does. -/
  pins : ∀ p, nextEvent s = .pin p → step s = .next (setPins (advance s) p)
  /-- R241 to R243; the host line as one event is the model's (log entry 12). -/
  setLed : ∀ r g b, nextEvent s = .txn [addrByte s.cfg .primary .W, 0x08#8, r, g, b, 0x01#8] →
    step s = exec (.cmdSetLed r g b) (advance s)
  shutdown : nextEvent s = .txn [addrByte s.cfg .primary .W, 0x1F#8, 0xFF#8] → step s = exec .cmdShutdown (advance s)
  readAll : nextEvent s = .txn [addrByte s.cfg .primary .W, 0x00#8] → step s = exec (.cmdRead 0#8 32#8) (advance s)
  /-- The count stands for the bytes the host clocks out (log entry 21). -/
  readPart : ∀ p m, nextEvent s = .txn [addrByte s.cfg .primary .W, p, addrByte s.cfg .primary .R, m] →
    step s = exec (.cmdRead p m) (advance s)
  /-- R90, R98, R105, R106: a line that is no command is its bus events, which come next; that the line itself is a step which changes only
the environment is the model's (log entry 12). -/
  line : ∀ bs q, nextEvent s = .txn bs → decode s.cfg ⟨.TXN, bs⟩ = .error q → step s = .next (deliverAll (lineEvents bs) (advance s))

/-! ## The hook's report -/

/-- The condition of the hook action (R149, R216). -/
abbrev HookShutsDown (s : State) (i : Inst) (offset : Byte) (length : Nat) : Prop :=
  s.cfg.hookImmediateShutdown = true ∧ i = .primary ∧ 0 < length ∧ offset.toNat ≤ 31 ∧ 31 < offset.toNat + length ∧
    readByte s .primary 31 = 0xFF#8

/-- `t` is `s` after the hook event, as far as power-enable and the trace go (R149, R215). -/
abbrev HookRun (s t : State) (i : Inst) (offset : Byte) (length : Nat) : Prop :=
  t.powerEn = (if HookShutsDown s i offset length then false else s.powerEn) ∧
  t.obs.trace = s.obs.trace ++ [.wrHook i offset length] ++
    (if HookShutsDown s i offset length ∧ s.powerEn = true then [.powerEn false] else [])

/-- The end of an instance's transaction, as far as power-enable and the trace go: the hook for a write burst, nothing otherwise (R147,
R149). -/
abbrev BurstReported (s t : State) (i : Inst) : Prop :=
  if (s.eng i).st = .writeBurst then HookRun s t i (s.eng i).boff (s.eng i).blen
  else t.powerEn = s.powerEn ∧ t.obs.trace = s.obs.trace

/-! ## The invariant -/

/-- The engine registers of one instance between steps: never `ERROR` (R35), the direction fits the state (R140), the burst's bytes are the
contiguous offsets from the pointer byte on (R149, R153), at most 32 of them (R221 item 6). -/
structure EngineOk (ro : Bool) (e : Engine) : Prop where
  noError : e.st ≠ .error
  readDir : e.st = .readBurst → e.dir = .R
  writeDir : e.st = .registerSelect ∨ e.st = .writeBurst → e.dir = .W
  burst : e.st = .registerSelect ∨ e.st = .writeBurst →
    e.boff.toNat ≤ e.ptr.toNat ∧
      e.blen = if ro then 0 else min e.ptr.toNat 32 - min e.boff.toNat 32
  blenLe : e.blen ≤ 32

/-- The serializer between steps: busy exactly when not idle (R189), at most 24 bits queued and only while shifting (R37), the index within
`N_LEDS` (R221 item 7). -/
structure SerializerOk (c : Config) (l : Serializer) : Prop where
  busy : l.busy = true ↔ l.st ≠ .idle
  queue : l.st ≠ .shift → l.q = []
  queueLen : l.q.length ≤ 24
  idx : l.idx ≤ c.nLeds
  idxBusy : l.st ≠ .idle → l.idx < c.nLeds

/-- The sequencer between steps: the counter within its range (R39), outstanding bytes only inside the two multi-byte updates (R39), a
conversion pending exactly at `ADC_WAIT` (R206, R207), bits 7 to 5 of the shadow zero (R28). -/
structure SequencerOk (c : Config) (q : Sequencer) : Prop where
  hyst : q.hyst ≤ c.hystInit
  pend : q.pend.Sublist [0, 1, 2, 3]
  pendAt : q.pend ≠ [] → q.spc = .msPublish ∨ q.spc = .adcStore
  pendAdc : q.spc = .adcStore → q.pend.Sublist [0, 1]
  adcPending : q.adcPending = true ↔ q.spc = .adcWait
  inState : q.inState.toNat < 32

/-- What every step keeps: a configuration with a meaning (R8), both maps in canonical form, at most one active instance (R158), no second
instance unless configured (R34), the three agents' registers in order, and the rail down once the counter is exhausted (R211). -/
structure BlockInv (s : State) : Prop where
  valid : s.cfg.valid = true
  map1 : Memory.wf (resetByte s.cfg .primary) s.map1
  map2 : Memory.wf (resetByte s.cfg .secondary) s.map2
  oneActive : s.eng1.st = .idle ∨ s.eng2.st = .idle
  absent : s.cfg.hasSecondary = false → s.eng2 = Engine.reset ∧ s.map2 = []
  eng1 : EngineOk s.cfg.ro1 s.eng1
  eng2 : EngineOk s.cfg.ro2 s.eng2
  led : SerializerOk s.cfg s.led
  seq : SequencerOk s.cfg s.seq
  railDown : s.seq.hyst = 0 → s.powerEn = false

/-! ## Reset -/

/-- The table of R46, value by value. -/
structure HasResetValues (s : State) : Prop where
  mapPrimary : ∀ k, k < 32 → ¬(16 ≤ k ∧ k < 28) → readByte s .primary k = 0x00#8
  mapUid : ∀ j, (h : j < 12) → readByte s .primary (16 + j) = s.cfg.uid[j]
  mapSecondary : ∀ k, k < 32 → readByte s .secondary k = 0x00#8
  engines : ∀ i, (s.eng i).st = .idle ∧ (s.eng i).dir = .W ∧ (s.eng i).ptr = 0#8 ∧ (s.eng i).boff = 0#8 ∧ (s.eng i).blen = 0
  led : s.led.busy = false ∧ s.led.st = .idle ∧ s.led.idx = 0 ∧ s.led.q = [] ∧ s.led.wire = []
  spc : s.seq.spc = .msPublish ∧ s.seq.pend = []
  counters : s.seq.ms = 0#32 ∧ s.seq.msSnap = 0#32 ∧ s.seq.lastSample = 0#32
  hyst : s.seq.hyst = s.cfg.hystInit
  latches : s.seq.inState = 0#8 ∧ s.seq.t11 = 0#8 ∧ s.seq.t31 = 0#8 ∧ s.seq.adcV = 0#16 ∧ s.seq.adcPending = false
  power : s.powerEn = true ∧ s.powered = true

/-! ## Roles -/

/-- The operations of the protocol engine, and the host commands made of them (R108). -/
def isBusOp : Instr → Bool
  | .addrW _ => true
  | .addrR _ => true
  | .regsel _ => true
  | .wdata _ => true
  | .rdata => true
  | .stop => true
  | .restart _ => true
  | .buserr => true
  | .arblost => true
  | .wrhook _ _ _ => true
  | .triggerLed _ => true
  | .triggerShutdown => true
  | .cmdSetLed _ _ _ => true
  | .cmdShutdown => true
  | .cmdRead _ _ => true
  | .ledStart _ => false
  | .ledFetch => false
  | .ledBit => false
  | .ledDone => false
  | .msPublish _ => false
  | .trigLoad => false
  | .trigAct => false
  | .trigClear => false
  | .adcCheck => false
  | .adcWait _ => false
  | .adcStore _ => false
  | .battEval => false
  | .gpioRefresh => false
  | .shdnLoad => false
  | .shdnAct => false
  | .tick => false
  | .powerLoss => false
  | .reset => false

/-- The operations that end a transaction and so may run the hook (R147, R148, R149). -/
def mayRunHook : Instr → Bool
  | .addrW _ => true
  | .addrR _ => true
  | .stop => true
  | .restart _ => true
  | .wrhook _ _ _ => true
  | .cmdSetLed _ _ _ => true
  | .cmdShutdown => true
  | .cmdRead _ _ => true
  | .regsel _ => false
  | .wdata _ => false
  | .rdata => false
  | .buserr => false
  | .arblost => false
  | .triggerLed _ => false
  | .triggerShutdown => false
  | .ledStart _ => false
  | .ledFetch => false
  | .ledBit => false
  | .ledDone => false
  | .msPublish _ => false
  | .trigLoad => false
  | .trigAct => false
  | .trigClear => false
  | .adcCheck => false
  | .adcWait _ => false
  | .adcStore _ => false
  | .battEval => false
  | .gpioRefresh => false
  | .shdnLoad => false
  | .shdnAct => false
  | .tick => false
  | .powerLoss => false
  | .reset => false

/-- The stores each operation may make (R32, R61, R153): instance `j`, offset `k`, new value `v`. -/
def MayStore (s : State) (j : Inst) (k : Nat) (v : Byte) : Instr → Prop
  | .wdata d => activeInst s = some j ∧ k = (s.eng j).ptr.toNat ∧ k < 32 ∧ v = d
  | .triggerLed d => j = .primary ∧ k = 11 ∧ v = d
  | .triggerShutdown => j = .primary ∧ k = 31 ∧ v = 0xFF#8
  | .cmdSetLed _ _ _ => j = .primary ∧ 8 ≤ k ∧ k ≤ 11
  | .cmdShutdown => j = .primary ∧ k = 31 ∧ v = 0xFF#8
  | .msPublish _ => j = .primary ∧ 4 ≤ k ∧ k ≤ 7
  | .trigClear => j = .primary ∧ k = 11 ∧ v = 0x00#8
  | .adcStore _ => j = .primary ∧ 12 ≤ k ∧ k ≤ 13
  | .battEval => j = .primary ∧ k = 14
  | .gpioRefresh => j = .primary ∧ k = 14
  | .shdnAct => j = .primary ∧ k = 31 ∧ v = 0x00#8
  | .reset => True
  | .addrW _ => False
  | .addrR _ => False
  | .regsel _ => False
  | .rdata => False
  | .stop => False
  | .restart _ => False
  | .buserr => False
  | .arblost => False
  | .wrhook _ _ _ => False
  | .ledStart _ => False
  | .ledFetch => False
  | .ledBit => False
  | .ledDone => False
  | .trigLoad => False
  | .trigAct => False
  | .adcCheck => False
  | .adcWait _ => False
  | .shdnLoad => False
  | .tick => False
  | .powerLoss => False
  | .cmdRead _ _ => False

/-- The offsets of the three colour bytes in wire order (R103, R184). -/
def wireOffsets : ChannelOrder → List Nat
  | .rgb => [8, 9, 10]
  | .rbg => [8, 10, 9]
  | .grb => [9, 8, 10]
  | .gbr => [9, 10, 8]
  | .brg => [10, 8, 9]
  | .bgr => [10, 9, 8]

end Sys2Proof.Machine
end

