-- ==== Sys2Proof/Certificates/Slice0/Obligations.lean ====
section
/-! DEFINITION. The statements for the provers. Each cites the rule of spec/ it formalises; `readByte s i k` is the model's read of byte `k` of the map of instance `i`. -/

open Sys2Proof Sys2Proof.Machine

/-! ## The protocol engine -/

/-- R142, R143: an address match of an instance that exists addresses it in the direction of the byte and is acknowledged; pointers, counts and
every map byte keep their values, and so does all the rest but what the end of an active transaction reports (R148). -/
def Obligations.AddressMatchAddressesInstance : Prop :=
  ∀ (s : State) (i : Inst) (d : Dir), s.powered = true → s.cfg.present i = true →
    ∃ t, exec (match d with | .W => .addrW i | .R => .addrR i) s = .next t ∧
      (t.eng i).st = .addressed ∧ (t.eng i).dir = d ∧
      (∀ j, (t.eng j).ptr = (s.eng j).ptr ∧ (t.eng j).boff = (s.eng j).boff ∧ (t.eng j).blen = (s.eng j).blen) ∧
      (∀ j, j ≠ i → (t.eng j).dir = (s.eng j).dir ∧ ((t.eng j).st = (s.eng j).st ∨ (t.eng j).st = .idle)) ∧
      (∀ j k, readByte t j k = readByte s j k) ∧
      t = { s with eng1 := t.eng1, eng2 := t.eng2, powerEn := t.powerEn, obs := t.obs } ∧
      t.obs.busOut = s.obs.busOut ++ [.ack i] ∧
      (activeInst s = none → t.powerEn = s.powerEn ∧ t.obs.trace = s.obs.trace) ∧
      (∀ j, activeInst s = some j → BurstReported s t j)

/-- R148: with at most one instance active (R158), a repeated start is a `STOP` followed by the new address match. -/
def Obligations.RepeatedStartIsStopThenMatch : Prop :=
  ∀ (s u : State) (i : Inst), s.eng1.st = .idle ∨ s.eng2.st = .idle → exec .stop s = .next u →
    exec (.addrW i) s = exec (.addrW i) u ∧ exec (.addrR i) s = exec (.addrR i) u

/-- R144: the first byte after a write-direction address match is the new pointer, taken raw; no map byte changes. -/
def Obligations.PointerByteSetsPointer : Prop :=
  ∀ (s : State) (i : Inst) (b : Byte), s.powered = true → activeInst s = some i → (s.eng i).st = .addressed → (s.eng i).dir = .W →
    ∃ t, exec (.regsel b) s = .next t ∧
      t.eng i = { st := .registerSelect, dir := .W, ptr := b, boff := b, blen := 0 } ∧
      (∀ j, j ≠ i → t.eng j = s.eng j) ∧
      (∀ j k, readByte t j k = readByte s j k) ∧
      t = { s with eng1 := t.eng1, eng2 := t.eng2, obs := t.obs } ∧
      t.obs.trace = s.obs.trace ∧ t.obs.busOut = s.obs.busOut ++ [.ack i]

/-- R145: a data byte is stored at the pointer when the pointer is below 32 and the instance is not read-only, and is dropped otherwise; the
pointer goes up by one and stays at 255; every byte of both maps but the stored one reads as before. -/
def Obligations.DataByteStoredAtPointer : Prop :=
  ∀ (s : State) (i : Inst) (b : Byte), s.powered = true → activeInst s = some i →
    ((s.eng i).st = .registerSelect ∨ (s.eng i).st = .writeBurst) → (s.eng i).dir = .W →
    ∃ t, exec (.wdata b) s = .next t ∧
      (∀ j k, readByte t j k =
        if j = i ∧ k = (s.eng i).ptr.toNat ∧ k < 32 ∧ readOnly s.cfg i = false then b else readByte s j k) ∧
      (t.eng i).st = .writeBurst ∧ (t.eng i).dir = .W ∧
      (t.eng i).ptr.toNat = min ((s.eng i).ptr.toNat + 1) 255 ∧
      (t.eng i).boff = (s.eng i).boff ∧
      (t.eng i).blen = (if (s.eng i).ptr.toNat < 32 ∧ readOnly s.cfg i = false then (s.eng i).blen + 1 else (s.eng i).blen) ∧
      (∀ j, j ≠ i → t.eng j = s.eng j) ∧
      t = { s with map1 := t.map1, map2 := t.map2, eng1 := t.eng1, eng2 := t.eng2, obs := t.obs } ∧
      t.obs.trace = s.obs.trace ∧ t.obs.busOut = s.obs.busOut ++ [.ack i]

/-- R102: the two commands carried as data are data bytes: at offset 11 a nonzero byte, at offset 31 the byte 0xFF; on a writable device the
byte is then in the map (log entry 19). -/
def Obligations.TriggerCommandsAreDataBytes : Prop :=
  ∀ (s : State) (v : Byte), s.powered = true → activeInst s = some .primary →
    (s.eng1.st = .registerSelect ∨ s.eng1.st = .writeBurst) → s.eng1.dir = .W →
    (s.eng1.ptr = 11#8 → v ≠ 0x00#8 →
      ∃ t, exec (.triggerLed v) s = .next t ∧ exec (.wdata v) s = .next t ∧
        (s.cfg.ro1 = false → readByte t .primary 11 = v)) ∧
    (s.eng1.ptr = 31#8 →
      ∃ t, exec .triggerShutdown s = .next t ∧ exec (.wdata 0xFF#8) s = .next t ∧
        (s.cfg.ro1 = false → readByte t .primary 31 = 0xFF#8))

/-- R146: a byte request returns the map's byte at the pointer, or 0x00 past the end, and advances the pointer; no map byte changes. -/
def Obligations.ByteRequestReturnsByteAtPointer : Prop :=
  ∀ (s : State) (i : Inst), s.powered = true → activeInst s = some i →
    ((s.eng i).st = .addressed ∨ (s.eng i).st = .readBurst) → (s.eng i).dir = .R →
    ∃ t, exec .rdata s = .next t ∧
      t.obs.busOut = s.obs.busOut ++
        [.byte i (if (s.eng i).ptr.toNat < 32 then readByte s i (s.eng i).ptr.toNat else 0x00#8)] ∧
      (t.eng i).ptr.toNat = min ((s.eng i).ptr.toNat + 1) 255 ∧
      (t.eng i) = { s.eng i with st := .readBurst, ptr := (t.eng i).ptr } ∧
      (∀ j, j ≠ i → t.eng j = s.eng j) ∧
      (∀ j k, readByte t j k = readByte s j k) ∧
      t = { s with eng1 := t.eng1, eng2 := t.eng2, obs := t.obs } ∧ t.obs.trace = s.obs.trace

/-- R147: a stop condition idles every instance that exists; pointers, counts and maps keep their values; the active transaction is reported if it
was a write burst, and nothing happens when there is none. The premise is R158. -/
def Obligations.StopEndsTransaction : Prop :=
  ∀ (s : State), s.powered = true → s.eng1.st = .idle ∨ s.eng2.st = .idle →
    ∃ t, exec .stop s = .next t ∧
      (∀ j, s.cfg.present j = true → t.eng j = { s.eng j with st := .idle }) ∧
      (∀ j k, readByte t j k = readByte s j k) ∧
      t = { s with eng1 := t.eng1, eng2 := t.eng2, powerEn := t.powerEn, obs := t.obs } ∧
      t.obs.busOut = s.obs.busOut ∧
      (activeInst s = none → t = s) ∧
      (∀ i, activeInst s = some i → BurstReported s t i)

/-- R148, first half: the active instance's transaction ends as at a stop; the other instance is untouched. -/
def Obligations.RestartEndsActiveTransaction : Prop :=
  ∀ (s : State) (j : Inst), s.powered = true → s.cfg.present j = true → (s.eng j).st ≠ .idle →
    ∃ t, exec (.restart j) s = .next t ∧
      t.eng j = { s.eng j with st := .idle } ∧ (∀ i, i ≠ j → t.eng i = s.eng i) ∧
      (∀ i k, readByte t i k = readByte s i k) ∧
      t = { s with eng1 := t.eng1, eng2 := t.eng2, powerEn := t.powerEn, obs := t.obs } ∧
      t.obs.busOut = s.obs.busOut ∧ BurstReported s t j

/-- R149: the hook emits its event with the instance, offset and length; it drops the rail only under the immediate-shutdown setting, for a
primary burst whose stored range holds offset 31, finding 0xFF there; it stores to no map. -/
def Obligations.HookReportsBurst : Prop :=
  ∀ (s : State) (i : Inst) (offset : Byte) (length : Nat), s.powered = true → s.cfg.present i = true →
    ∃ t, exec (.wrhook i offset length) s = .next t ∧ HookRun s t i offset length ∧
      (∀ j k, readByte t j k = readByte s j k) ∧
      t = { s with powerEn := t.powerEn, obs := t.obs } ∧ t.obs.busOut = s.obs.busOut

/-- R150, R151: a bus fault idles every instance and puts its kind on the trace; pointers, counts, stored bytes and everything else keep their
values, and no hook runs. -/
def Obligations.BusFaultIdlesEngine : Prop :=
  ∀ (s : State) (kind : FaultKind), s.powered = true →
    ∃ t, exec (match kind with | .busError => .buserr | .arbLost => .arblost) s = .next t ∧
      (∀ j, t.eng j = { s.eng j with st := .idle }) ∧
      (∀ j k, readByte t j k = readByte s j k) ∧
      t.obs.trace = s.obs.trace ++ [.busFault kind] ∧
      t = { s with eng1 := t.eng1, eng2 := t.eng2, obs := t.obs } ∧ t.obs.busOut = s.obs.busOut

/-- R145, R153 over a whole burst of any length: byte `k` of the map ends as the burst's byte for that offset, bytes past offset 31 are dropped
and never wrap to offset 0, and the pointer ends at `min (p + n) 255`. -/
def Obligations.WriteBurstFillsContiguousOffsets : Prop :=
  ∀ (s : State) (i : Inst) (ds : List Byte), s.powered = true → activeInst s = some i →
    ((s.eng i).st = .registerSelect ∨ (s.eng i).st = .writeBurst) → (s.eng i).dir = .W →
    ∃ t, runInstrs (ds.map .wdata) s = .next t ∧
      (∀ j k, readByte t j k =
        if j = i ∧ readOnly s.cfg i = false ∧ k < 32 ∧ (s.eng i).ptr.toNat ≤ k ∧ k < (s.eng i).ptr.toNat + ds.length then
          ds.getD (k - (s.eng i).ptr.toNat) 0x00#8
        else readByte s j k) ∧
      (t.eng i).ptr.toNat = min ((s.eng i).ptr.toNat + ds.length) 255 ∧
      (t.eng i).blen = (s.eng i).blen +
        (if readOnly s.cfg i = false then min ((s.eng i).ptr.toNat + ds.length) 32 - min (s.eng i).ptr.toNat 32 else 0) ∧
      (t.eng i).boff = (s.eng i).boff

/-- R31, R34, R73: a burst written to the map of an instance that exists and is not read-only, and read back at the same offset, with no other
agent's step between, returns the bytes written, in order. -/
def Obligations.BurstReadsBackAsWritten : Prop :=
  ∀ (s : State) (i : Inst) (p : Byte) (ds : List Byte), s.powered = true → s.cfg.present i = true → readOnly s.cfg i = false →
    p.toNat + ds.length ≤ 32 →
    ∃ t before,
      runInstrs ([.addrW i, .regsel p] ++ ds.map .wdata ++ [.stop, .addrW i, .regsel p, .addrR i] ++
        List.replicate ds.length .rdata ++ [.stop]) s = .next t ∧
      t.obs.busOut = before ++ ds.map (.byte i)

/-- R152: no operation of the engine, and no host command, changes a byte of a read-only instance's map. -/
def Obligations.ReadOnlyMapIsNotChangedByBus : Prop :=
  ∀ (s t : State) (i : Instr) (j : Inst) (k : Nat), isBusOp i = true → readOnly s.cfg j = true → exec i s = .next t →
    readByte t j k = readByte s j k

/-- R68: a bus read changes no map byte, in any of its operations and as a whole command. -/
def Obligations.BusReadsChangeNoMapByte : Prop :=
  ∀ (s t : State) (i : Instr),
    ((∃ j, i = .addrW j ∨ i = .addrR j) ∨ (∃ p, i = .regsel p) ∨ i = .rdata ∨ i = .stop ∨ ∃ p m, i = .cmdRead p m) →
    exec i s = .next t → ∀ j k, readByte t j k = readByte s j k

/-- R155: a received byte in read direction and a byte request in write direction have no step. -/
def Obligations.UnenabledBusEventsAreRefused : Prop :=
  ∀ (s : State) (i : Inst) (b : Byte), s.cfg.valid = true → s.powered = true → s.env.foreign = false → activeInst s = some i →
    (nextEvent s = .rxByte b → (s.eng i).dir = .R → step s = .refused .unenabledEvent) ∧
    (nextEvent s = .txReq → (s.eng i).dir = .W → step s = .refused .unenabledEvent)

/-- R156: while every instance is idle, received bytes, byte requests and stops are ignored: only the event is consumed. -/
def Obligations.EventsWhileIdleAreIgnored : Prop :=
  ∀ (s : State) (b : Byte), s.cfg.valid = true → s.powered = true → activeInst s = none →
    nextEvent s = .rxByte b ∨ nextEvent s = .txReq ∨ nextEvent s = .stop →
    step s = .next (advance s) ∧ advance s = { s with env := (advance s).env }

/-- R93: an address that matches no instance is no event for the block, and the bytes that follow it are not delivered to an instance whose
transaction is still open. The flag that remembers such a transaction is the model's (log entry 9). -/
def Obligations.ForeignTrafficIsNotDelivered : Prop :=
  ∀ (s : State) (b : Byte), s.cfg.valid = true → s.powered = true →
    (nextEvent s = .addr b → b.extractLsb' 1 7 ≠ s.cfg.addr1 → (s.cfg.hasSecondary = true → b.extractLsb' 1 7 ≠ s.cfg.addr2) →
      ∃ t, step s = .next t ∧ t = { s with env := t.env } ∧ t.env.foreign = true) ∧
    (s.env.foreign = true → nextEvent s = .rxByte b ∨ nextEvent s = .txReq →
      ∃ t, step s = .next t ∧ t = { s with env := t.env } ∧ t.env.foreign = true)

/-! ## The serializer -/

/-- R181, R182: a start arms the idle serializer, touches no map byte, is rejected without any change while busy, and is refused for any number of
LEDs but 1. -/
def Obligations.LedStartArmsOrIsRejected : Prop :=
  ∀ (s : State) (n : Nat), s.powered = true →
    (s.led.busy = false →
      ∃ t, exec (.ledStart 1) s = .next t ∧ startLed s = (t, .started) ∧
        t.led = { s.led with busy := true, st := .armed, idx := 0, q := [] } ∧
        (∀ j k, readByte t j k = readByte s j k) ∧ t = { s with led := t.led }) ∧
    (s.led.busy = true → exec (.ledStart 1) s = .next s ∧ startLed s = (s, .rejected)) ∧
    (n ≠ 1 → exec (.ledStart n) s = .refused .badLedCount)

/-- R183, R103: the fetch queues 24 bits: the three colour bytes of the map at this step, in channel order, each most significant bit first. -/
def Obligations.LedFetchQueuesFrame : Prop :=
  ∀ (s : State), s.powered = true → s.led.st = .armed →
    ∃ t, exec .ledFetch s = .next t ∧
      t.led.q.length = 24 ∧
      (∀ n m, n < 3 → m < 8 → t.led.q[8 * n + m]? =
        some ((readByte s .primary ((wireOffsets s.cfg.channelOrder).getD n 0)).getLsbD (7 - m))) ∧
      t.led = { s.led with q := t.led.q, st := .shift } ∧
      (∀ j k, readByte t j k = readByte s j k) ∧ t = { s with led := t.led }

/-- R185: one symbol, the head of the queue, goes onto the wire, and so onto the output trace (R10). -/
def Obligations.LedBitEmitsHead : Prop :=
  ∀ (s : State) (x : Bool) (rest : List Bool), s.powered = true → s.led.st = .shift → s.led.q = x :: rest →
    ∃ t, exec .ledBit s = .next t ∧
      t.led = { s.led with q := rest, wire := s.led.wire ++ [if x then .sym1 else .sym0] } ∧
      t.obs.trace = s.obs.trace ++ [.led (if x then .sym1 else .sym0)] ∧ t.obs.busOut = s.obs.busOut ∧
      (∀ j k, readByte t j k = readByte s j k) ∧ t = { s with led := t.led, obs := t.obs }

/-- R186: with an empty queue the index goes up; the last LED emits the latch gap, onto the output trace too (R10), and ends the
transmission; an earlier one is fetched next. -/
def Obligations.LedDoneEndsFrame : Prop :=
  ∀ (s : State), s.powered = true → s.led.st = .shift → s.led.q = [] →
    ∃ t, exec .ledDone s = .next t ∧
      (s.led.idx + 1 < s.cfg.nLeds →
        t.led = { s.led with idx := s.led.idx + 1, st := .armed } ∧ t.obs.trace = s.obs.trace) ∧
      (¬ s.led.idx + 1 < s.cfg.nLeds →
        t.led = { s.led with idx := s.led.idx + 1, st := .idle, busy := false, wire := s.led.wire ++ [.latch] } ∧
          t.obs.trace = s.obs.trace ++ [.led .latch]) ∧
      t.obs.busOut = s.obs.busOut ∧
      (∀ j k, readByte t j k = readByte s j k) ∧ t = { s with led := t.led, obs := t.obs }

/-- R180, R185, R186: from an armed serializer, a fetch, exactly 24 bits and the end of the frame bring the transmission to its end; the wire,
and with it the output trace (R10), carries the 24 symbols of the colour bytes as they were at the fetch, then the latch gap. -/
def Obligations.TransmissionEmitsFrame : Prop :=
  ∀ (s : State), s.cfg.nLeds = 1 → s.powered = true → s.led.st = .armed → s.led.idx = 0 →
    ∃ t, runInstrs ([.ledFetch] ++ List.replicate 24 .ledBit ++ [.ledDone]) s = .next t ∧
      t = { s with led := t.led, obs := t.obs } ∧ t.obs.busOut = s.obs.busOut ∧
      t.led.busy = false ∧ t.led.st = .idle ∧ t.led.q = [] ∧
      ∃ marks, t.led.wire = s.led.wire ++ marks ++ [.latch] ∧
        t.obs.trace = s.obs.trace ++ (marks ++ [.latch]).map .led ∧ marks.length = 24 ∧
        ∀ n m, n < 3 → m < 8 → marks[8 * n + m]? =
          some (if (readByte s .primary ((wireOffsets s.cfg.channelOrder).getD n 0)).getLsbD (7 - m) then .sym1 else .sym0)

/-- R190: the serializer leaves its idle state only through `TRIG_ACT` with a pending trigger. -/
def Obligations.TransmissionStartsOnlyByTrigger : Prop :=
  ∀ (s t : State), step s = .next t → s.led.st = .idle → t.led.st ≠ .idle →
    fetch s = .run .trigAct ∧ s.seq.spc = .trigAct ∧ s.seq.t11 ≠ 0x00#8 ∧ s.led.busy = false

/-! ## The sequencer -/

/-- R202, step a: the snapshot of the counter is taken and all four bytes are outstanding. -/
def Obligations.CounterSnapshotTaken : Prop :=
  ∀ (s : State) (pick : Byte), s.powered = true → s.seq.spc = .msPublish → s.seq.pend = [] →
    ∃ t, exec (.msPublish pick) s = .next t ∧
      t.seq = { s.seq with msSnap := s.seq.ms, pend := [0, 1, 2, 3] } ∧
      (∀ j k, readByte t j k = readByte s j k) ∧ t = { s with seq := t.seq }

/-- R202, steps b: one outstanding byte of the snapshot, any of them, goes to its offset; the scan goes on after the last. The
operand that picks it is the model's (log entry 6). -/
def Obligations.CounterByteStored : Prop :=
  ∀ (s : State), s.powered = true → s.seq.spc = .msPublish → s.seq.pend ≠ [] → s.seq.pend.Sublist [0, 1, 2, 3] →
    (∀ pick, ∃ j ∈ s.seq.pend, ∃ t, exec (.msPublish pick) s = .next t ∧
      (∀ i k, readByte t i k = if i = .primary ∧ k = 4 + j then s.seq.msSnap.extractLsb' (8 * j) 8 else readByte s i k) ∧
      t.seq = { s.seq with
        pend := s.seq.pend.erase j, spc := if s.seq.pend.erase j = [] then .trigLoad else .msPublish } ∧
      t = { s with map1 := t.map1, seq := t.seq }) ∧
    (∀ j ∈ s.seq.pend, ∃ pick t, exec (.msPublish pick) s = .next t ∧ t.seq.pend = s.seq.pend.erase j)

/-- R202, R127: whatever the order of the four stores, the update publishes the counter as it was at the snapshot, little-endian, and changes no
other byte. The operands that pick the order are the model's (log entry 6). -/
def Obligations.CounterPublishedInAnyOrder : Prop :=
  ∀ (s : State) (p0 p1 p2 p3 p4 : Byte), s.powered = true → s.seq.spc = .msPublish → s.seq.pend = [] →
    ∃ t, runInstrs [.msPublish p0, .msPublish p1, .msPublish p2, .msPublish p3, .msPublish p4] s = .next t ∧
      publishedCounter t = s.seq.ms.toNat ∧
      t.seq = { s.seq with msSnap := s.seq.ms, spc := .trigLoad } ∧
      (∀ i k, ¬(i = .primary ∧ 4 ≤ k ∧ k ≤ 7) → readByte t i k = readByte s i k)

/-- R203, R213: the two trigger bytes are loaded into their latches. -/
def Obligations.TriggerBytesLatched : Prop :=
  ∀ (s : State), s.powered = true →
    (s.seq.spc = .trigLoad → ∃ t, exec .trigLoad s = .next t ∧
      t.seq = { s.seq with t11 := readByte s .primary 11, spc := .trigAct } ∧
      (∀ j k, readByte t j k = readByte s j k) ∧ t = { s with seq := t.seq }) ∧
    (s.seq.spc = .shdnLoad → ∃ t, exec .shdnLoad s = .next t ∧
      t.seq = { s.seq with t31 := readByte s .primary 31, spc := .shdnAct } ∧
      (∀ j k, readByte t j k = readByte s j k) ∧ t = { s with seq := t.seq })

/-- R204: a pending trigger with the serializer idle starts one transmission; with nothing pending, or while busy, the step only goes on, the
trigger byte and the transmission in flight untouched. -/
def Obligations.TriggerStartsOrDefers : Prop :=
  ∀ (s : State), s.powered = true → s.seq.spc = .trigAct →
    ∃ t, exec .trigAct s = .next t ∧
      (s.seq.t11 ≠ 0x00#8 → s.led.busy = false →
        t.led = { s.led with busy := true, st := .armed, idx := 0, q := [] } ∧ t.seq = { s.seq with spc := .trigClear }) ∧
      (s.seq.t11 = 0x00#8 ∨ s.led.busy = true → t.led = s.led ∧ t.seq = { s.seq with spc := .adcCheck }) ∧
      (∀ j k, readByte t j k = readByte s j k) ∧ t = { s with led := t.led, seq := t.seq }

/-- R205: the update trigger is consumed, whatever it holds by then. -/
def Obligations.TriggerConsumed : Prop :=
  ∀ (s : State), s.powered = true → s.seq.spc = .trigClear →
    ∃ t, exec .trigClear s = .next t ∧
      (∀ j k, readByte t j k = if j = .primary ∧ k = 11 then 0x00#8 else readByte s j k) ∧
      t.seq = { s.seq with spc := .adcCheck } ∧ t = { s with map1 := t.map1, seq := t.seq }

/-- R206: a sample is due when `ms - last_sample` modulo 2^32 has reached the interval; then a conversion is requested. -/
def Obligations.SampleRequestedWhenDue : Prop :=
  ∀ (s : State), s.powered = true → s.seq.spc = .adcCheck →
    ∃ t, exec .adcCheck s = .next t ∧
      (s.cfg.sampleInterval.toNat ≤ (s.seq.ms.toNat + 2 ^ 32 - s.seq.lastSample.toNat) % 2 ^ 32 →
        t.seq = { s.seq with lastSample := s.seq.ms, adcPending := true, spc := .adcWait } ∧
        t.obs.trace = s.obs.trace ++ [.adcReq]) ∧
      (¬ s.cfg.sampleInterval.toNat ≤ (s.seq.ms.toNat + 2 ^ 32 - s.seq.lastSample.toNat) % 2 ^ 32 →
        t.seq = { s.seq with spc := .gpioRefresh } ∧ t.obs.trace = s.obs.trace) ∧
      (∀ j k, readByte t j k = readByte s j k) ∧ t = { s with seq := t.seq, obs := t.obs } ∧ t.obs.busOut = s.obs.busOut

/-- R207: the converter's answer is taken. -/
def Obligations.ConversionTaken : Prop :=
  ∀ (s : State) (v : Half), s.powered = true → s.seq.spc = .adcWait →
    ∃ t, exec (.adcWait v) s = .next t ∧
      t.seq = { s.seq with adcV := v, adcPending := false, spc := .adcStore } ∧
      (∀ j k, readByte t j k = readByte s j k) ∧ t = { s with seq := t.seq }

/-- R208: one outstanding byte of the sample, any of them, goes to its offset; the scan goes on after the last. The operand that
picks it, and that both bytes are outstanding when `pend` is empty, are the model's (log entries 6 and 7). -/
def Obligations.SampleByteStored : Prop :=
  ∀ (s : State) (out : List Nat), s.powered = true → s.seq.spc = .adcStore → s.seq.pend.Sublist [0, 1] →
    out = (if s.seq.pend = [] then [0, 1] else s.seq.pend) →
    (∀ pick, ∃ j ∈ out, ∃ t, exec (.adcStore pick) s = .next t ∧
      (∀ i k, readByte t i k = if i = .primary ∧ k = 12 + j then s.seq.adcV.extractLsb' (8 * j) 8 else readByte s i k) ∧
      t.seq = { s.seq with pend := out.erase j, spc := if out.erase j = [] then .battEval else .adcStore } ∧
      t = { s with map1 := t.map1, seq := t.seq }) ∧
    (∀ j ∈ out, ∃ pick t, exec (.adcStore pick) s = .next t ∧ t.seq.pend = out.erase j)

/-- R208, R127: in either order, the two stores publish the sample, little-endian, and change no other byte. The operands that pick the
order, and that the step is entered with nothing in `pend`, are the model's (log entries 6 and 7). -/
def Obligations.SamplePublishedInAnyOrder : Prop :=
  ∀ (s : State) (p q : Byte), s.powered = true → s.seq.spc = .adcStore → s.seq.pend = [] →
    ∃ t, runInstrs [.adcStore p, .adcStore q] s = .next t ∧
      publishedSample t = s.seq.adcV.toNat ∧
      t.seq = { s.seq with spc := .battEval } ∧
      (∀ i k, ¬(i = .primary ∧ 12 ≤ k ∧ k ≤ 13) → readByte t i k = readByte s i k)

/-- R209, R210: a sample at or below the threshold is low; it takes one off the counter, and at 0 the rail is dropped; a normal sample reloads the
counter; an exhausted counter stays 0; the flag goes to bit 4 of the shadow and to offset 14. -/
def Obligations.SampleClassifiedAndCounted : Prop :=
  ∀ (s : State), s.powered = true → s.seq.spc = .battEval →
    ∃ t, exec .battEval s = .next t ∧
      t.seq.hyst = (if s.seq.hyst = 0 then 0
        else if s.seq.adcV.toNat ≤ s.cfg.adcLowThreshold.toNat then s.seq.hyst - 1 else s.cfg.hystInit) ∧
      (∀ n, n < 8 → t.seq.inState.getLsbD n =
        if n = 4 then decide (s.seq.adcV.toNat ≤ s.cfg.adcLowThreshold.toNat) else s.seq.inState.getLsbD n) ∧
      (∀ j k, readByte t j k = if j = .primary ∧ k = 14 then t.seq.inState else readByte s j k) ∧
      t.powerEn = (if s.seq.hyst ≠ 0 ∧ t.seq.hyst = 0 then false else s.powerEn) ∧
      t.obs.trace = s.obs.trace ++
        (if s.seq.hyst ≠ 0 ∧ t.seq.hyst = 0 ∧ s.powerEn = true then [.powerEn false] else []) ∧
      t.seq = { s.seq with hyst := t.seq.hyst, inState := t.seq.inState, spc := .gpioRefresh } ∧
      t = { s with map1 := t.map1, seq := t.seq, powerEn := t.powerEn, obs := t.obs } ∧ t.obs.busOut = s.obs.busOut

/-- R212: the four pins go to bits 0 to 3, bits 7 to 5 are zero, bit 4 is kept, and the byte goes to offset 14. -/
def Obligations.PinsCopied : Prop :=
  ∀ (s : State), s.powered = true → s.seq.spc = .gpioRefresh →
    ∃ t, exec .gpioRefresh s = .next t ∧
      t.seq.inState.getLsbD 0 = s.env.pins.charge ∧ t.seq.inState.getLsbD 1 = s.env.pins.standby ∧
      t.seq.inState.getLsbD 2 = s.env.pins.radio ∧ t.seq.inState.getLsbD 3 = s.env.pins.button ∧
      t.seq.inState.getLsbD 4 = s.seq.inState.getLsbD 4 ∧ t.seq.inState.toNat < 32 ∧
      (∀ j k, readByte t j k = if j = .primary ∧ k = 14 then t.seq.inState else readByte s j k) ∧
      t.seq = { s.seq with inState := t.seq.inState, spc := .shdnLoad } ∧ t = { s with map1 := t.map1, seq := t.seq }

/-- R214: only the sentinel drops the rail and is cleared; the hysteresis counter is not touched; any other latched value does nothing. -/
def Obligations.SentinelDropsRail : Prop :=
  ∀ (s : State), s.powered = true → s.seq.spc = .shdnAct →
    ∃ t, exec .shdnAct s = .next t ∧
      (s.seq.t31 = 0xFF#8 → t.powerEn = false ∧
        t.obs.trace = s.obs.trace ++ (if s.powerEn = true then [.powerEn false] else []) ∧
        (∀ j k, readByte t j k = if j = .primary ∧ k = 31 then 0x00#8 else readByte s j k)) ∧
      (s.seq.t31 ≠ 0xFF#8 → t.powerEn = s.powerEn ∧ t.obs.trace = s.obs.trace ∧ ∀ j k, readByte t j k = readByte s j k) ∧
      t.seq = { s.seq with spc := .msPublish } ∧
      t = { s with map1 := t.map1, seq := t.seq, powerEn := t.powerEn, obs := t.obs } ∧ t.obs.busOut = s.obs.busOut

/-- R211: with a full counter, a run of low samples of any length drops the rail on the `HYST_INIT`-th, never earlier, and emits the edge exactly
once. -/
def Obligations.LowRunDropsRailExactlyOnce : Prop :=
  ∀ (s : State) (vs : List Half), s.powered = true → s.powerEn = true → 1 ≤ s.cfg.hystInit → s.seq.hyst = s.cfg.hystInit →
    (∀ v ∈ vs, v.toNat ≤ s.cfg.adcLowThreshold.toNat) →
    ∃ t, runSamples vs s = .next t ∧
      t.seq.hyst = s.cfg.hystInit - vs.length ∧
      (t.powerEn = true ↔ vs.length < s.cfg.hystInit) ∧
      t.obs.trace = s.obs.trace ++ (if vs.length < s.cfg.hystInit then [] else [.powerEn false])

/-- R218, the rows about samples, in states the invariant allows. -/
def Obligations.SupervisorFollowsSample : Prop :=
  ∀ (s t : State), BlockInv s → exec .battEval s = .next t →
    (supervisorOf s = .shutdown → supervisorOf t = .shutdown) ∧
    (supervisorOf s ≠ .shutdown →
      (s.cfg.adcLowThreshold.toNat < s.seq.adcV.toNat → supervisorOf t = .normal ∧ t.seq.hyst = s.cfg.hystInit) ∧
      (s.seq.adcV.toNat ≤ s.cfg.adcLowThreshold.toNat → 1 < s.seq.hyst →
        supervisorOf t = .lowWarning ∧ t.seq.hyst = s.seq.hyst - 1) ∧
      (s.seq.adcV.toNat ≤ s.cfg.adcLowThreshold.toNat → s.seq.hyst = 1 →
        supervisorOf t = .shutdown ∧ t.seq.hyst = 0 ∧ t.powerEn = false))

/-- R271, R207: while the converter does not answer, the sequencer at `ADC_WAIT` has no step: whatever else happens, only its counter moves. -/
def Obligations.ConversionHangHoldsSequencer : Prop :=
  ∀ (s t : State), s.powered = true → s.seq.spc = .adcWait → step s = .next t → (∀ v, nextEvent s ≠ .adcDone v) → nextEvent s ≠ .reset →
    t.seq = { s.seq with ms := t.seq.ms } ∧ (nextEvent s ≠ .tick → t.seq.ms = s.seq.ms)

/-! ## The environment and the host commands -/

/-- R217: one tick, modulo 2^32. -/
def Obligations.TickAdvancesCounter : Prop :=
  ∀ (s : State), s.powered = true →
    ∃ t, exec .tick s = .next t ∧ t.seq.ms.toNat = (s.seq.ms.toNat + 1) % 2 ^ 32 ∧
      t.seq = { s.seq with ms := t.seq.ms } ∧ (∀ j k, readByte t j k = readByte s j k) ∧ t = { s with seq := t.seq }

/-- R220: the supply collapses only after the rail is down; before, the event is not enabled. That the rest of the state keeps its bits,
which R42 calls meaningless then, and that the event is refused before, by that name, are the model's choices (log entries 13
and 14). -/
def Obligations.SupplyLostOnlyAfterRailDown : Prop :=
  ∀ (s : State), s.powered = true →
    (s.powerEn = false → exec .powerLoss s = .next { s with powered := false }) ∧
    (s.powerEn = true → exec .powerLoss s = .refused .supplyHeld)

/-- R300, R46: reset is enabled in every state and gives every piece of state its reset value; the configuration stays. -/
def Obligations.ResetGivesResetValues : Prop :=
  ∀ (s : State), ∃ t, exec .reset s = .next t ∧ HasResetValues t ∧ t.cfg = s.cfg

/-- R46 for the state the machine starts in, whose configuration is this hardware's (R7's default for the count, log entry 3). -/
def Obligations.StartStateHasResetValues : Prop :=
  HasResetValues State.reset ∧ State.reset.cfg.hystInit = 10

/-- R242: the colour and the trigger are in the map, the pointer registers are those of the burst, the engine is idle; every other byte reads as
before. From an idle engine the trace has the one hook event. The command as one operation is the model's choice (log entry 12). -/
def Obligations.SetLedCommandWritesColourAndTrigger : Prop :=
  ∀ (s : State) (r g b : Byte), s.powered = true → s.cfg.ro1 = false →
    ∃ t, exec (.cmdSetLed r g b) s = .next t ∧
      (∀ j k, readByte t j k =
        if j = .primary ∧ k = 8 then r else if j = .primary ∧ k = 9 then g else if j = .primary ∧ k = 10 then b
        else if j = .primary ∧ k = 11 then 0x01#8 else readByte s j k) ∧
      t.eng1 = { st := .idle, dir := .W, ptr := 12#8, boff := 8#8, blen := 4 } ∧
      (t.eng2 = s.eng2 ∨ t.eng2 = { s.eng2 with st := .idle }) ∧
      t = { s with map1 := t.map1, eng1 := t.eng1, eng2 := t.eng2, powerEn := t.powerEn, obs := t.obs } ∧
      (activeInst s = none → t.obs.trace = s.obs.trace ++ [.wrHook .primary 8#8 4] ∧ t.powerEn = s.powerEn ∧ t.eng2 = s.eng2)

/-- R243: the sentinel is in the map and the engine idle; from an idle engine the trace has the hook event, and the rail falls at once exactly
under the immediate-shutdown setting. The command as one operation is the model's choice (log entry 12). -/
def Obligations.ShutdownCommandWritesSentinel : Prop :=
  ∀ (s : State), s.powered = true → s.cfg.ro1 = false →
    ∃ t, exec .cmdShutdown s = .next t ∧
      (∀ j k, readByte t j k = if j = .primary ∧ k = 31 then 0xFF#8 else readByte s j k) ∧
      t.eng1 = { st := .idle, dir := .W, ptr := 32#8, boff := 31#8, blen := 1 } ∧
      (t.eng2 = s.eng2 ∨ t.eng2 = { s.eng2 with st := .idle }) ∧
      t = { s with map1 := t.map1, eng1 := t.eng1, eng2 := t.eng2, powerEn := t.powerEn, obs := t.obs } ∧
      (activeInst s = none →
        t.powerEn = (if s.cfg.hookImmediateShutdown = true then false else s.powerEn) ∧
        t.obs.trace = s.obs.trace ++ [.wrHook .primary 31#8 1] ++
          (if s.cfg.hookImmediateShutdown = true ∧ s.powerEn = true then [.powerEn false] else []) ∧ t.eng2 = s.eng2)

/-- R241: the bytes returned are those of the map from the start offset on, zero past the end; no map byte changes. The command as one
operation is the model's choice (log entry 12). -/
def Obligations.ReadCommandReturnsBytes : Prop :=
  ∀ (s : State) (p m : Byte), s.powered = true →
    ∃ t, exec (.cmdRead p m) s = .next t ∧
      t.obs.busOut = s.obs.busOut ++ [.ack .primary, .ack .primary, .ack .primary] ++
        (List.range m.toNat).map (fun j =>
          .byte .primary (if p.toNat + j < 32 then readByte s .primary (p.toNat + j) else 0x00#8)) ∧
      (t.eng1.st = .idle ∧ t.eng1.ptr.toNat = min (p.toNat + m.toNat) 255 ∧ t.eng1.boff = p ∧ t.eng1.blen = 0) ∧
      (t.eng2 = s.eng2 ∨ t.eng2 = { s.eng2 with st := .idle }) ∧
      (∀ j k, readByte t j k = readByte s j k) ∧
      t = { s with eng1 := t.eng1, eng2 := t.eng2, powerEn := t.powerEn, obs := t.obs } ∧
      (activeInst s = none → t.obs.trace = s.obs.trace ∧ t.powerEn = s.powerEn ∧ t.eng2 = s.eng2)

/-- R240 to R243: each command is the bus operations its expansion writes out, one after another: nothing is added and nothing skipped, in any
state. That a command is one operation is the model's choice (log entry 12). -/
def Obligations.CommandsAreTheirTransactions : Prop :=
  ∀ (s : State) (r g b p m : Byte),
    exec (.cmdSetLed r g b) s =
      runInstrs [.addrW .primary, .regsel 8#8, .wdata r, .wdata g, .wdata b, .wdata 0x01#8, .stop] s ∧
    exec .cmdShutdown s = runInstrs [.addrW .primary, .regsel 31#8, .wdata 0xFF#8, .stop] s ∧
    exec (.cmdRead p m) s =
      runInstrs ([.addrW .primary, .regsel p, .addrR .primary] ++ List.replicate m.toNat .rdata ++ [.stop]) s

/-! ## The whole machine -/

/-- R42: without supply no agent has a step: every event but `RESET` leaves the block as it is, every operation but `RESET` is refused, and `RESET`
runs. That such an event is dropped, not refused, is the model's choice (log entry 13). -/
def Obligations.UnpoweredBlockHasNoStep : Prop :=
  ∀ (s : State), s.powered = false →
    (s.cfg.valid = true → nextEvent s ≠ .reset → ∃ t, step s = .next t ∧ t = { s with env := t.env }) ∧
    (s.cfg.valid = true → nextEvent s = .reset → step s = exec .reset (advance s)) ∧
    (∀ i, i ≠ .reset → ∃ r, exec i s = .refused r)

/-- R41: power-enable rises only by `RESET`. -/
def Obligations.PowerEnableRisesOnlyByReset : Prop :=
  ∀ (s t : State), step s = .next t → s.powerEn = false → t.powerEn = true → fetch s = .run .reset

/-- R41: power-enable falls only by `BATT_EVAL` on the last of the count, by `SHDN_ACT` on the sentinel, or by the hook action, which needs the
immediate-shutdown setting. The premise is R8. -/
def Obligations.PowerEnableFallsOnlyByShutdownSteps : Prop :=
  ∀ (s t : State) (i : Instr), 1 ≤ s.cfg.hystInit → exec i s = .next t → s.powerEn = true → t.powerEn = false →
    (i = .battEval ∧ s.seq.hyst = 1 ∧ s.seq.adcV.toNat ≤ s.cfg.adcLowThreshold.toNat) ∨
    (i = .shdnAct ∧ s.seq.t31 = 0xFF#8) ∨
    (mayRunHook i = true ∧ s.cfg.hookImmediateShutdown = true)

/-- R61, R32, R153: a map byte changes only by the operation whose role may store there: the engine at its pointer, the sequencer at its own offsets
(the trigger bytes only to clear them), reset anywhere; and the serializer, and every other operation, nowhere. -/
def Obligations.StoresStayInTheirRoles : Prop :=
  ∀ (s t : State) (i : Instr) (j : Inst) (k : Nat), BlockInv s → exec i s = .next t → readByte t j k ≠ readByte s j k →
    MayStore s j k (readByte t j k) i

/-- R152, R184: no step changes the configuration. -/
def Obligations.ConfigurationNeverChanges : Prop :=
  ∀ (s t : State), step s = .next t → t.cfg = s.cfg

/-- R7, R8: a configuration that breaks a constraint has no meaning: no step exists. -/
def Obligations.BadConfigurationIsRefused : Prop :=
  ∀ (s : State), (s.cfg.hasSecondary = true ∧ s.cfg.addr2 = s.cfg.addr1) ∨ s.cfg.hystInit = 0 ∨ s.cfg.nLeds ≠ 1 →
    step s = .refused .badConfig

/-- R108, R34, and each rule's "enabled when": an operation that the state does not select, or that names an instance that does not exist, has
no step. The refusals' names are the model's (log entry 15). -/
def Obligations.OperationsStopOutsideTheirContext : Prop :=
  ∀ (s : State), s.powered = true →
    (∀ p pick i, stepInstr p pick = some i → s.seq.spc ≠ p → exec i s = .refused .notEnabled) ∧
    (∀ v, s.seq.spc ≠ .adcWait → exec (.adcWait v) s = .refused .notEnabled) ∧
    (s.led.st ≠ .armed → exec .ledFetch s = .refused .notEnabled) ∧
    (¬(s.led.st = .shift ∧ s.led.q ≠ []) → exec .ledBit s = .refused .notEnabled) ∧
    (¬(s.led.st = .shift ∧ s.led.q = []) → exec .ledDone s = .refused .notEnabled) ∧
    (∀ b, (∀ i, activeInst s = some i → ¬((s.eng i).st = .addressed ∧ (s.eng i).dir = .W)) →
      exec (.regsel b) s = .refused .notEnabled) ∧
    (∀ b, (∀ i, activeInst s = some i →
        ¬(((s.eng i).st = .registerSelect ∨ (s.eng i).st = .writeBurst) ∧ (s.eng i).dir = .W)) →
      exec (.wdata b) s = .refused .notEnabled) ∧
    ((∀ i, activeInst s = some i → ¬(((s.eng i).st = .addressed ∨ (s.eng i).st = .readBurst) ∧ (s.eng i).dir = .R)) →
      exec .rdata s = .refused .notEnabled) ∧
    (∀ j, s.cfg.present j = true → (s.eng j).st = .idle → exec (.restart j) s = .refused .notEnabled) ∧
    (∀ v, ¬(activeInst s = some .primary ∧ (s.eng1.st = .registerSelect ∨ s.eng1.st = .writeBurst) ∧ s.eng1.dir = .W ∧
        s.eng1.ptr = 11#8 ∧ v ≠ 0x00#8) → exec (.triggerLed v) s = .refused .notEnabled) ∧
    (¬(activeInst s = some .primary ∧ (s.eng1.st = .registerSelect ∨ s.eng1.st = .writeBurst) ∧ s.eng1.dir = .W ∧
        s.eng1.ptr = 31#8) → exec .triggerShutdown s = .refused .notEnabled) ∧
    (s.cfg.hasSecondary = false →
      exec (.addrW .secondary) s = .refused .absentInstance ∧ exec (.addrR .secondary) s = .refused .absentInstance ∧
      exec (.restart .secondary) s = .refused .absentInstance ∧
      ∀ offset length, exec (.wrhook .secondary offset length) s = .refused .absentInstance)

/-- In a state that meets the invariant a step is refused exactly for: a byte received in read direction or requested in write direction, on a
transaction of the block's own (R155); a supply loss while the rail is up (R220). The decoder reads the state first, so no other operation is
ever refused, and no line of host traffic is (R105). The model's choices in it: the refusal of the second kind and its name (log entry
14); that a line that is no command is taken as its bus events (log entry 12); that no operation meets `notEnabled` (log entry
15); the flag that says whose transaction it is (log entry 9); and that an event without supply (R42), and a turn at `ADC_WAIT` (R271) or of the idle serializer
(R190), where the spec gives no step, are dropped and not refused (log entries 13 and 16). -/
def Obligations.StepRefusesOnlyUnenabledInputs : Prop :=
  ∀ (s : State) (r : Refusal), BlockInv s →
    (step s = .refused r ↔ s.powered = true ∧
      ((r = .unenabledEvent ∧ s.env.foreign = false ∧ ∃ i, activeInst s = some i ∧
          (((∃ b, nextEvent s = .rxByte b) ∧ (s.eng i).dir = .R) ∨ (nextEvent s = .txReq ∧ (s.eng i).dir = .W))) ∨
        (r = .supplyHeld ∧ nextEvent s = .powerLoss ∧ s.powerEn = true)))

/-- R158, R189, R221 and the canonical form: every step keeps the invariant, in every state that meets it. -/
def Obligations.StepKeepsInvariant : Prop :=
  ∀ (s t : State), BlockInv s → step s = .next t → BlockInv t

/-- The start state meets the invariant. -/
def Obligations.ResetMeetsInvariant : Prop := BlockInv State.reset

/-- Every well-formed operation is read back from its encoding, with every operand, under every configuration that has a meaning.
The selectors of rows with no bits, and the partial read's encoding, are the model's (log entries 11, 21). -/
def Obligations.DecodeOfEncodeIsIdentity : Prop :=
  ∀ (c : Config) (i : Instr), c.valid = true → i.wf c = true → decode c (encode c i) = .ok i

/-- A few words written out from 30_encoding.md R92 (address 0x09 in bits 7 to 1, direction in bit 0), R109 (step indices) and 44_host_client.md
R242, R243 (command bytes). -/
def Obligations.SpecWordsDecode : Prop :=
  decode Config.machine ⟨.A, [0b00010010#8]⟩ = .ok (.addrW .primary) ∧
  decode Config.machine ⟨.A, [0b00010011#8]⟩ = .ok (.addrR .primary) ∧
  decode Config.machine ⟨.A, [0b10100000#8]⟩ = .error .foreignAddress ∧
  decode Config.machine ⟨.SEQSTEP, [0b00000111#8]⟩ = .ok .battEval ∧
  decode Config.machine ⟨.SEQSTEP, [0b00001011#8]⟩ = .error .noSuchStep ∧
  decode Config.machine ⟨.TXN, [0x12#8, 0x08#8, 0xFF#8, 0x00#8, 0x80#8, 0x01#8]⟩ = .ok (.cmdSetLed 0xFF#8 0x00#8 0x80#8) ∧
  decode Config.machine ⟨.TXN, [0x12#8, 0x1F#8, 0xFF#8]⟩ = .ok .cmdShutdown

/-- A step of a powered block with a configuration that has a meaning runs the operation its next event's code decodes to, on the state the event has
been taken out of; taking it out touches only the environment; and an event that selects an operation by the "selected by" column of R108 runs it.
The model's choices in it: a turn at `ADC_WAIT` or of the idle serializer, where R271 and R190 give no step, changes only the schedule (log entry
16); the operand that picks a byte to store (log entry 6); the host line as one event and the encoding of the partial read
(log entries 12 and 21); the flag for another device's transaction (log entry 9). -/
def Obligations.StepRunsDecodedOperation : Prop :=
  ∀ (s : State), s.cfg.valid = true → s.powered = true →
    (∀ w i, select s (nextEvent s) = .op w → decode s.cfg w = .ok i → step s = exec i (advance s)) ∧
    advance s = { s with env := (advance s).env } ∧ StepsAsSelected s
end

