-- ==== Sys2Proof/Laws/Memory.lean ====
section
/-! SUPPORT. The laws of memory cells and of the Register Map primitives: read after write, and the canonical form is kept. -/

namespace Sys2Proof.Machine

theorem Memory.read_remove (dflt : Nat → Byte) (m : Memory) (a x : Nat) :
    Memory.read dflt (Memory.remove m a) x = if x = a then dflt a else Memory.read dflt m x := by
  induction m with
  | nil =>
    by_cases h : x = a
    · simp [Memory.remove, Memory.read, h]
    · simp [Memory.remove, Memory.read, h]
  | cons c rest ih =>
    obtain ⟨k, v⟩ := c
    by_cases hk : k = a
    · subst hk
      by_cases hx : x = k
      · simp only [Memory.remove, if_true]
        rw [ih]
        simp [hx]
      · have : ¬k = x := fun h => hx h.symm
        simp only [Memory.remove, Memory.read, if_true, ih, hx, this, if_false]
    · by_cases hx : k = x
      · have : ¬x = a := fun h => hk (hx.trans h)
        simp only [Memory.remove, Memory.read, if_false, hx, if_true, this]
      · simp only [Memory.remove, Memory.read, hk, hx, if_false, ih]

theorem Memory.read_insert (dflt : Nat → Byte) (m : Memory) (a x : Nat) (b : Byte) :
    Memory.read dflt (Memory.insert m a b) x = if x = a then b else Memory.read dflt m x := by
  have head : ∀ l : Memory, Memory.read dflt ((a, b) :: l) x = if x = a then b else Memory.read dflt l x := by
    intro l
    by_cases h : x = a
    · simp [Memory.read, h]
    · have : ¬a = x := fun e => h e.symm
      simp [Memory.read, h, this]
  induction m with
  | nil => exact head []
  | cons c rest ih =>
    obtain ⟨k, v⟩ := c
    simp only [Memory.insert]
    split
    · exact head _
    · split
      · rename_i _ he
        subst he
        rw [head]
        by_cases h : x = a
        · simp [h]
        · have : ¬a = x := fun e => h e.symm
          simp [Memory.read, h, this]
      · rename_i _ hne
        by_cases hx : k = x
        · have : ¬x = a := fun e => hne (hx.trans e).symm
          simp [Memory.read, hx, this]
        · simp [Memory.read, hx, ih]

/-- Read after write: the value written at its offset, the old value everywhere else. -/
theorem Memory.read_write (dflt : Nat → Byte) (m : Memory) (a x : Nat) (b : Byte) :
    Memory.read dflt (Memory.write dflt m a b) x = if x = a then b else Memory.read dflt m x := by
  unfold Memory.write
  split
  · rename_i h
    rw [Memory.read_remove, h]
  · exact Memory.read_insert dflt m a x b

theorem Memory.mem_remove {m : Memory} {a : Nat} {c : Host.Cell} (h : c ∈ Memory.remove m a) : c ∈ m := by
  induction m with
  | nil => simp [Memory.remove] at h
  | cons d rest ih =>
    obtain ⟨k, v⟩ := d
    by_cases hk : k = a
    · simp only [Memory.remove, hk, if_true] at h
      exact List.mem_cons_of_mem _ (ih h)
    · simp only [Memory.remove, hk, if_false, List.mem_cons] at h
      rcases h with h | h
      · simp [h]
      · exact List.mem_cons_of_mem _ (ih h)

theorem Memory.mem_insert {m : Memory} {a : Nat} {b : Byte} {c : Host.Cell} (h : c ∈ Memory.insert m a b) :
    c = (a, b) ∨ c ∈ m := by
  induction m with
  | nil => simpa [Memory.insert] using h
  | cons d rest ih =>
    obtain ⟨k, v⟩ := d
    simp only [Memory.insert] at h
    split at h
    · simpa using h
    · split at h
      · simp only [List.mem_cons] at h ⊢
        tauto
      · simp only [List.mem_cons] at h ⊢
        rcases h with h | h
        · exact .inr (.inl h)
        · rcases ih h with h | h
          · exact .inl h
          · exact .inr (.inr h)

theorem Memory.pairwise_remove {m : Memory} {a : Nat} (h : List.Pairwise (fun x y : Host.Cell => x.1 < y.1) m) :
    List.Pairwise (fun x y : Host.Cell => x.1 < y.1) (Memory.remove m a) := by
  induction m with
  | nil => simp [Memory.remove]
  | cons d rest ih =>
    obtain ⟨k, v⟩ := d
    rw [List.pairwise_cons] at h
    by_cases hk : k = a
    · simpa [Memory.remove, hk] using ih h.2
    · simp only [Memory.remove, hk, if_false, List.pairwise_cons]
      exact ⟨fun c hc => h.1 c (Memory.mem_remove hc), ih h.2⟩

theorem Memory.pairwise_insert {m : Memory} {a : Nat} {b : Byte} (h : List.Pairwise (fun x y : Host.Cell => x.1 < y.1) m) :
    List.Pairwise (fun x y : Host.Cell => x.1 < y.1) (Memory.insert m a b) := by
  induction m with
  | nil => simp [Memory.insert]
  | cons d rest ih =>
    obtain ⟨k, v⟩ := d
    have h' := h
    rw [List.pairwise_cons] at h
    simp only [Memory.insert]
    split
    · rename_i hlt
      rw [List.pairwise_cons]
      refine ⟨fun c hc => ?_, h'⟩
      rcases List.mem_cons.1 hc with rfl | hc
      · exact hlt
      · exact lt_trans hlt (h.1 c hc)
    · split
      · rename_i _ he
        subst he
        exact List.pairwise_cons.2 h
      · rename_i h1 h2
        rw [List.pairwise_cons]
        refine ⟨fun c hc => ?_, ih h.2⟩
        rcases Memory.mem_insert hc with rfl | hc
        · show k < a
          omega
        · exact h.1 c hc

/-- Every store inside the map keeps the canonical form. -/
theorem Memory.wf_write {dflt : Nat → Byte} {m : Memory} (h : Memory.wf dflt m) {a : Nat} (ha : a < mapBytes) (b : Byte) :
    Memory.wf dflt (Memory.write dflt m a b) := by
  unfold Memory.write
  split
  · exact ⟨Memory.pairwise_remove h.1, fun c hc => h.2 c (Memory.mem_remove hc)⟩
  · rename_i hb
    refine ⟨Memory.pairwise_insert h.1, fun c hc => ?_⟩
    rcases Memory.mem_insert hc with rfl | hc
    · exact ⟨ha, hb⟩
    · exact h.2 c hc

theorem Memory.wf_nil (dflt : Nat → Byte) : Memory.wf dflt [] := ⟨List.Pairwise.nil, fun _ hc => absurd hc List.not_mem_nil⟩

/-- Two maps in canonical form that read alike at every offset are the same data. -/
theorem Memory.eq_of_read_eq {dflt : Nat → Byte} {m n : Memory} (hm : Memory.wf dflt m) (hn : Memory.wf dflt n)
    (h : ∀ x, Memory.read dflt m x = Memory.read dflt n x) : m = n := by
  induction m generalizing n with
  | nil =>
    cases n with
    | nil => rfl
    | cons d rest =>
      have := h d.1
      simp only [Memory.read, if_true] at this
      exact absurd this.symm (hn.2 d (by simp)).2
  | cons c rest ih =>
    obtain ⟨k, v⟩ := c
    have below : ∀ (l : Memory) (x : Nat), (∀ e ∈ l, x < e.1) → Memory.read dflt l x = dflt x := by
      intro l x hl
      induction l with
      | nil => rfl
      | cons e l ihl =>
        have he := hl e (by simp)
        simp only [Memory.read, (Nat.ne_of_gt he), if_false]
        exact ihl fun e' he' => hl e' (by simp [he'])
    cases n with
    | nil =>
      have := h k
      simp only [Memory.read, if_true] at this
      exact absurd this (hm.2 (k, v) (by simp)).2
    | cons d rest' =>
      obtain ⟨k', v'⟩ := d
      have hm1 := List.pairwise_cons.1 hm.1
      have hn1 := List.pairwise_cons.1 hn.1
      have hk : k = k' := by
        rcases Nat.lt_trichotomy k k' with hlt | he | hgt
        · have e := h k
          rw [below ((k', v') :: rest') k (fun e he => by
            rcases List.mem_cons.1 he with rfl | he
            · exact hlt
            · exact lt_trans hlt (hn1.1 e he))] at e
          simp only [Memory.read, if_true] at e
          exact absurd e (hm.2 (k, v) (by simp)).2
        · exact he
        · have e := h k'
          rw [below ((k, v) :: rest) k' (fun e he => by
            rcases List.mem_cons.1 he with rfl | he
            · exact hgt
            · exact lt_trans hgt (hm1.1 e he))] at e
          simp only [Memory.read, if_true] at e
          exact absurd e.symm (hn.2 (k', v') (by simp)).2
      subst hk
      have hv : v = v' := by simpa [Memory.read] using h k
      subst hv
      congr 1
      refine ih ⟨hm1.2, fun e he => hm.2 e (by simp [he])⟩ ⟨hn1.2, fun e he => hn.2 e (by simp [he])⟩ fun x => ?_
      by_cases hx : k = x
      · subst hx
        rw [below rest k fun e he => hm1.1 e he, below rest' k fun e he => hn1.1 e he]
      · simpa [Memory.read, hx] using h x

end Sys2Proof.Machine
end

