-- ==== Sys2Proof/Laws/State.lean ====
section
/-! SUPPORT. The parameters whose value R7 fixes; one lemma per field per update of State, by case on the instance. -/

namespace Sys2Proof.Machine

@[simp] theorem cfg_mapSize (c : Config) : c.mapSize = 32 := c.mapSize_fixed

@[simp] theorem cfg_readFill (c : Config) : c.readFill = 0x00#8 := c.readFill_decided

@[simp] theorem cfg_shutdownSentinel (c : Config) : c.shutdownSentinel = 0xFF#8 := c.shutdownSentinel_fixed

@[simp] theorem setMap_map_self (s : State) (i : Inst) (m : Memory) : (s.setMap i m).map i = m := by cases i <;> rfl

theorem setMap_map (s : State) (i j : Inst) (m : Memory) : (s.setMap i m).map j = if j = i then m else s.map j := by
  cases i <;> cases j <;> rfl

@[simp] theorem setMap_eng (s : State) (i j : Inst) (m : Memory) : (s.setMap i m).eng j = s.eng j := by
  cases i <;> cases j <;> rfl

@[simp] theorem setMap_eng1 (s : State) (i : Inst) (m : Memory) : (s.setMap i m).eng1 = s.eng1 := by cases i <;> rfl

@[simp] theorem setMap_eng2 (s : State) (i : Inst) (m : Memory) : (s.setMap i m).eng2 = s.eng2 := by cases i <;> rfl

@[simp] theorem setMap_cfg (s : State) (i : Inst) (m : Memory) : (s.setMap i m).cfg = s.cfg := by cases i <;> rfl

@[simp] theorem setMap_led (s : State) (i : Inst) (m : Memory) : (s.setMap i m).led = s.led := by cases i <;> rfl

@[simp] theorem setMap_seq (s : State) (i : Inst) (m : Memory) : (s.setMap i m).seq = s.seq := by cases i <;> rfl

@[simp] theorem setMap_powerEn (s : State) (i : Inst) (m : Memory) : (s.setMap i m).powerEn = s.powerEn := by cases i <;> rfl

@[simp] theorem setMap_powered (s : State) (i : Inst) (m : Memory) : (s.setMap i m).powered = s.powered := by cases i <;> rfl

@[simp] theorem setMap_env (s : State) (i : Inst) (m : Memory) : (s.setMap i m).env = s.env := by cases i <;> rfl

@[simp] theorem setMap_obs (s : State) (i : Inst) (m : Memory) : (s.setMap i m).obs = s.obs := by cases i <;> rfl

@[simp] theorem setEng_eng_self (s : State) (i : Inst) (e : Engine) : (s.setEng i e).eng i = e := by cases i <;> rfl

theorem setEng_eng (s : State) (i j : Inst) (e : Engine) : (s.setEng i e).eng j = if j = i then e else s.eng j := by
  cases i <;> cases j <;> rfl

@[simp] theorem setEng_map (s : State) (i j : Inst) (e : Engine) : (s.setEng i e).map j = s.map j := by
  cases i <;> cases j <;> rfl

@[simp] theorem setEng_map1 (s : State) (i : Inst) (e : Engine) : (s.setEng i e).map1 = s.map1 := by cases i <;> rfl

@[simp] theorem setEng_map2 (s : State) (i : Inst) (e : Engine) : (s.setEng i e).map2 = s.map2 := by cases i <;> rfl

@[simp] theorem setEng_cfg (s : State) (i : Inst) (e : Engine) : (s.setEng i e).cfg = s.cfg := by cases i <;> rfl

@[simp] theorem setEng_led (s : State) (i : Inst) (e : Engine) : (s.setEng i e).led = s.led := by cases i <;> rfl

@[simp] theorem setEng_seq (s : State) (i : Inst) (e : Engine) : (s.setEng i e).seq = s.seq := by cases i <;> rfl

@[simp] theorem setEng_powerEn (s : State) (i : Inst) (e : Engine) : (s.setEng i e).powerEn = s.powerEn := by cases i <;> rfl

@[simp] theorem setEng_powered (s : State) (i : Inst) (e : Engine) : (s.setEng i e).powered = s.powered := by cases i <;> rfl

@[simp] theorem setEng_env (s : State) (i : Inst) (e : Engine) : (s.setEng i e).env = s.env := by cases i <;> rfl

@[simp] theorem setEng_obs (s : State) (i : Inst) (e : Engine) : (s.setEng i e).obs = s.obs := by cases i <;> rfl

@[simp] theorem emit_trace (s : State) (e : OutEvent) : (s.emit e).obs.trace = s.obs.trace ++ [e] := rfl

@[simp] theorem emit_busOut (s : State) (e : OutEvent) : (s.emit e).obs.busOut = s.obs.busOut := rfl

@[simp] theorem emit_cfg (s : State) (e : OutEvent) : (s.emit e).cfg = s.cfg := rfl

@[simp] theorem emit_map (s : State) (e : OutEvent) (i : Inst) : (s.emit e).map i = s.map i := by cases i <;> rfl

@[simp] theorem emit_map1 (s : State) (e : OutEvent) : (s.emit e).map1 = s.map1 := rfl

@[simp] theorem emit_map2 (s : State) (e : OutEvent) : (s.emit e).map2 = s.map2 := rfl

@[simp] theorem emit_eng (s : State) (e : OutEvent) (i : Inst) : (s.emit e).eng i = s.eng i := by cases i <;> rfl

@[simp] theorem emit_eng1 (s : State) (e : OutEvent) : (s.emit e).eng1 = s.eng1 := rfl

@[simp] theorem emit_eng2 (s : State) (e : OutEvent) : (s.emit e).eng2 = s.eng2 := rfl

@[simp] theorem emit_led (s : State) (e : OutEvent) : (s.emit e).led = s.led := rfl

@[simp] theorem emit_seq (s : State) (e : OutEvent) : (s.emit e).seq = s.seq := rfl

@[simp] theorem emit_powerEn (s : State) (e : OutEvent) : (s.emit e).powerEn = s.powerEn := rfl

@[simp] theorem emit_powered (s : State) (e : OutEvent) : (s.emit e).powered = s.powered := rfl

@[simp] theorem emit_env (s : State) (e : OutEvent) : (s.emit e).env = s.env := rfl

@[simp] theorem respond_trace (s : State) (r : BusOut) : (s.respond r).obs.trace = s.obs.trace := rfl

@[simp] theorem respond_busOut (s : State) (r : BusOut) : (s.respond r).obs.busOut = s.obs.busOut ++ [r] := rfl

@[simp] theorem respond_cfg (s : State) (r : BusOut) : (s.respond r).cfg = s.cfg := rfl

@[simp] theorem respond_map (s : State) (r : BusOut) (i : Inst) : (s.respond r).map i = s.map i := by cases i <;> rfl

@[simp] theorem respond_map1 (s : State) (r : BusOut) : (s.respond r).map1 = s.map1 := rfl

@[simp] theorem respond_map2 (s : State) (r : BusOut) : (s.respond r).map2 = s.map2 := rfl

@[simp] theorem respond_eng (s : State) (r : BusOut) (i : Inst) : (s.respond r).eng i = s.eng i := by cases i <;> rfl

@[simp] theorem respond_eng1 (s : State) (r : BusOut) : (s.respond r).eng1 = s.eng1 := rfl

@[simp] theorem respond_eng2 (s : State) (r : BusOut) : (s.respond r).eng2 = s.eng2 := rfl

@[simp] theorem respond_led (s : State) (r : BusOut) : (s.respond r).led = s.led := rfl

@[simp] theorem respond_seq (s : State) (r : BusOut) : (s.respond r).seq = s.seq := rfl

@[simp] theorem respond_powerEn (s : State) (r : BusOut) : (s.respond r).powerEn = s.powerEn := rfl

@[simp] theorem respond_powered (s : State) (r : BusOut) : (s.respond r).powered = s.powered := rfl

@[simp] theorem respond_env (s : State) (r : BusOut) : (s.respond r).env = s.env := rfl

end Sys2Proof.Machine
end

