-- ==== Sys2Proof/Laws/Ops.lean ====
section
/-! SUPPORT. One specification per shared operation of Machine/Ops.lean: everything it can do to the maps, the engine registers, power-enable and the trace, and what it leaves alone. -/

namespace Sys2Proof.Machine

/-! ## Map bytes -/

/-- A byte read depends on the configuration and the maps alone. -/
theorem readByte_congr {s t : State} (hc : t.cfg = s.cfg) (h1 : t.map1 = s.map1) (h2 : t.map2 = s.map2) (i : Inst) (k : Nat) :
    readByte t i k = readByte s i k := by
  cases i <;> simp [readByte, State.map, hc, h1, h2]

@[simp] theorem readByte_setEng (s : State) (i j : Inst) (e : Engine) (k : Nat) : readByte (s.setEng i e) j k = readByte s j k := by
  simp [readByte]

@[simp] theorem readByte_emit (s : State) (e : OutEvent) (j : Inst) (k : Nat) : readByte (s.emit e) j k = readByte s j k := by
  simp [readByte]

@[simp] theorem readByte_respond (s : State) (r : BusOut) (j : Inst) (k : Nat) : readByte (s.respond r) j k = readByte s j k := by
  simp [readByte]

/-- `MapStore` (R121): the byte stored at its offset, every other byte of both maps as before. -/
theorem readByte_mapStore (s : State) (i j : Inst) (k : Fin mapBytes) (v : Byte) (n : Nat) :
    readByte (mapStore s i k v) j n = if j = i ∧ n = k.val then v else readByte s j n := by
  by_cases hj : j = i
  · subst hj
    simp [readByte, mapStore, Memory.read_write]
  · simp [readByte, mapStore, setMap_map, hj]

/-- `MapStore` changes its map and nothing else (R121). -/
theorem mapStore_frame (s : State) (i : Inst) (k : Fin mapBytes) (v : Byte) :
    mapStore s i k v = { s with map1 := (mapStore s i k v).map1, map2 := (mapStore s i k v).map2 } := by
  cases i <;> rfl

/-- A store to the primary map leaves the secondary one (R80). -/
theorem mapStore_primary (s : State) (k : Fin mapBytes) (v : Byte) :
    mapStore s .primary k v = { s with map1 := (mapStore s .primary k v).map1 } := rfl

@[simp] theorem mapStore_eng (s : State) (i j : Inst) (k : Fin mapBytes) (v : Byte) : (mapStore s i k v).eng j = s.eng j := by
  simp [mapStore]

@[simp] theorem mapStore_cfg (s : State) (i : Inst) (k : Fin mapBytes) (v : Byte) : (mapStore s i k v).cfg = s.cfg := by
  simp [mapStore]

@[simp] theorem mapStore_seq (s : State) (i : Inst) (k : Fin mapBytes) (v : Byte) : (mapStore s i k v).seq = s.seq := by
  simp [mapStore]

@[simp] theorem mapStore_led (s : State) (i : Inst) (k : Fin mapBytes) (v : Byte) : (mapStore s i k v).led = s.led := by
  simp [mapStore]

@[simp] theorem mapStore_powerEn (s : State) (i : Inst) (k : Fin mapBytes) (v : Byte) :
    (mapStore s i k v).powerEn = s.powerEn := by
  simp [mapStore]

@[simp] theorem mapStore_powered (s : State) (i : Inst) (k : Fin mapBytes) (v : Byte) :
    (mapStore s i k v).powered = s.powered := by
  simp [mapStore]

@[simp] theorem mapStore_env (s : State) (i : Inst) (k : Fin mapBytes) (v : Byte) : (mapStore s i k v).env = s.env := by
  simp [mapStore]

@[simp] theorem mapStore_obs (s : State) (i : Inst) (k : Fin mapBytes) (v : Byte) : (mapStore s i k v).obs = s.obs := by
  simp [mapStore]

/-- Every store keeps the canonical form of both maps. -/
theorem mapStore_wf {s : State} (h : ∀ j, Memory.wf (resetByte s.cfg j) (s.map j)) (i : Inst) (k : Fin mapBytes) (v : Byte)
    (j : Inst) : Memory.wf (resetByte (mapStore s i k v).cfg j) ((mapStore s i k v).map j) := by
  rw [mapStore_cfg]
  by_cases hj : j = i
  · subst hj
    simpa [mapStore] using Memory.wf_write (h j) k.isLt v
  · simpa [mapStore, setMap_map, hj] using h j

/-- `BusRead` (R124): the byte at the pointer, zero past the end. -/
theorem busRead_eq (s : State) (i : Inst) (p : Byte) :
    busRead s i p = if p.toNat < 32 then readByte s i p.toNat else 0x00#8 := by
  unfold busRead
  by_cases h : p.toNat < 32
  · simp [h, mapLoad]
  · simp [h]

/-- Whether `BusWrite` stores (R125). -/
theorem busWrite_stored (s : State) (i : Inst) (p v : Byte) :
    (busWrite s i p v).2 = decide (p.toNat < 32 ∧ readOnly s.cfg i = false) := by
  unfold busWrite
  split <;> rename_i h <;> simpa using h

/-- What `BusWrite` leaves in the maps (R125). -/
theorem readByte_busWrite (s : State) (i j : Inst) (p v : Byte) (n : Nat) :
    readByte (busWrite s i p v).1 j n =
      if j = i ∧ n = p.toNat ∧ n < 32 ∧ readOnly s.cfg i = false then v else readByte s j n := by
  unfold busWrite
  split
  · rename_i h
    have h1 : p.toNat < 32 := by simpa using h.1
    rw [readByte_mapStore]
    refine if_congr ?_ rfl rfl
    constructor
    · rintro ⟨rfl, rfl⟩
      exact ⟨rfl, rfl, h1, h.2⟩
    · rintro ⟨rfl, rfl, -, -⟩
      exact ⟨rfl, rfl⟩
  · rename_i h
    rw [if_neg]
    rintro ⟨-, rfl, h1, h2⟩
    exact h ⟨by simpa using h1, h2⟩

/-- `BusWrite` changes the maps and nothing else (R125). -/
theorem busWrite_frame (s : State) (i : Inst) (p v : Byte) :
    (busWrite s i p v).1 = { s with map1 := (busWrite s i p v).1.map1, map2 := (busWrite s i p v).1.map2 } := by
  unfold busWrite
  split
  · exact mapStore_frame ..
  · rfl

@[simp] theorem busWrite_eng (s : State) (i j : Inst) (p v : Byte) : (busWrite s i p v).1.eng j = s.eng j := by
  unfold busWrite
  split <;> simp

@[simp] theorem busWrite_cfg (s : State) (i : Inst) (p v : Byte) : (busWrite s i p v).1.cfg = s.cfg := by
  unfold busWrite
  split <;> simp

/-- A write to a read-only instance stores nothing (R152). -/
theorem busWrite_readOnly {s : State} {i : Inst} (h : readOnly s.cfg i = true) (p v : Byte) : busWrite s i p v = (s, false) := by
  simp [busWrite, h]

/-- Every bus write keeps the canonical form of both maps. -/
theorem busWrite_wf {s : State} (h : ∀ j, Memory.wf (resetByte s.cfg j) (s.map j)) (i : Inst) (p v : Byte) (j : Inst) :
    Memory.wf (resetByte (busWrite s i p v).1.cfg j) ((busWrite s i p v).1.map j) := by
  unfold busWrite
  split
  · exact mapStore_wf h ..
  · exact h j

/-- One byte store of a multi-byte update (R10, R127): its byte at its offset, every other byte of both maps as before. -/
theorem readByte_memWriteByte (s : State) (i : Inst) (off n v j : Nat) (h : off + n ≤ mapBytes) (i' : Inst) (k : Nat) :
    readByte (memWriteByte s i off n v j h) i' k = if i' = i ∧ k = off + j ∧ j < n then byteOf v j else readByte s i' k := by
  unfold memWriteByte
  split
  · rw [readByte_mapStore]
    simp [*]
  · simp [*]

/-- One byte store of a multi-byte update changes the maps and nothing else. -/
theorem memWriteByte_frame (s : State) (i : Inst) (off n v j : Nat) (h : off + n ≤ mapBytes) :
    memWriteByte s i off n v j h =
      { s with map1 := (memWriteByte s i off n v j h).map1, map2 := (memWriteByte s i off n v j h).map2 } := by
  unfold memWriteByte
  split
  · exact mapStore_frame ..
  · rfl

/-- One byte store of a multi-byte update of the primary map leaves the secondary one (R80). -/
theorem memWriteByte_primary (s : State) (off n v j : Nat) (h : off + n ≤ mapBytes) :
    memWriteByte s .primary off n v j h = { s with map1 := (memWriteByte s .primary off n v j h).map1 } := by
  unfold memWriteByte
  split
  · exact mapStore_primary ..
  · rfl

/-- One byte store of a multi-byte update keeps the canonical form of both maps. -/
theorem memWriteByte_wf {s : State} (hw : ∀ j, Memory.wf (resetByte s.cfg j) (s.map j)) (i : Inst) (off n v j : Nat)
    (h : off + n ≤ mapBytes) (i' : Inst) :
    Memory.wf (resetByte (memWriteByte s i off n v j h).cfg i') ((memWriteByte s i off n v j h).map i') := by
  unfold memWriteByte
  split
  · exact mapStore_wf hw ..
  · exact hw i'

/-- `MemWrite` (R10): the `n` bytes of the number at their offsets, every other byte of both maps as before. -/
theorem readByte_memWrite (s : State) (i : Inst) (off n v : Nat) (h : off + n ≤ mapBytes) (i' : Inst) (k : Nat) :
    readByte (memWrite s i off n v h) i' k =
      if i' = i ∧ off ≤ k ∧ k < off + n then byteOf v (k - off) else readByte s i' k := by
  have run : ∀ m, m ≤ n → readByte ((List.range m).foldl (fun t j => memWriteByte t i off n v j h) s) i' k =
      if i' = i ∧ off ≤ k ∧ k < off + m then byteOf v (k - off) else readByte s i' k := by
    intro m
    induction m with
    | zero => intro _; simp only [List.range_zero, List.foldl_nil]; rw [if_neg (by omega)]
    | succ m ih =>
      intro hm
      simp only [List.range_succ, List.foldl_append, List.foldl_cons, List.foldl_nil, readByte_memWriteByte, ih (by omega)]
      by_cases hi : i' = i
      · by_cases hk : k = off + m
        · subst hk
          simp [hi, show m < n by omega]
        · simp only [hi, hk, false_and, and_false, if_false, true_and]
          exact if_congr (by omega) rfl rfl
      · simp [hi]
  exact run n le_rfl

/-- What `MemRead` reads is decided by the bytes alone (R10, R24, R27). -/
theorem memRead_congr {s t : State} {i : Inst} {off n : Nat} (h : off + n ≤ mapBytes)
    (hb : ∀ k, off ≤ k → k < off + n → readByte t i k = readByte s i k) : memRead t i off n h = memRead s i off n h := by
  induction n generalizing off with
  | zero => rfl
  | succ n ih =>
    simp only [memRead, mapLoad]
    rw [hb off le_rfl (by omega), ih (by omega) fun k h1 h2 => hb k (by omega) (by omega)]

/-- Bytes that are those of a number, low byte first, read back as that number (R10). -/
theorem memRead_of_bytes {s : State} {i : Inst} {off n v : Nat} (h : off + n ≤ mapBytes)
    (hb : ∀ j, j < n → readByte s i (off + j) = byteOf v j) : memRead s i off n h = v % 256 ^ n := by
  induction n generalizing off v with
  | zero => simp [memRead, Nat.mod_one]
  | succ n ih =>
    have h0 : readByte s i off = byteOf v 0 := hb 0 (by omega)
    have hr : memRead s i (off + 1) n (by omega) = v / 256 % 256 ^ n := by
      refine ih (by omega) fun j hj => ?_
      rw [show off + 1 + j = off + (j + 1) by omega, hb (j + 1) (by omega)]
      simp only [byteOf, Nat.shiftRight_eq_div_pow]
      rw [show 2 ^ (8 * (j + 1)) = 256 * 2 ^ (8 * j) by rw [Nat.mul_add, pow_add]; omega, Nat.div_div_eq_div_mul]
    simp only [memRead, mapLoad, hr]
    rw [h0, pow_succ', Nat.mod_mul]
    simp [byteOf]

/-- `MemRead` after `MemWrite` of the same bytes (R10): the number, as far as `n` bytes hold it. -/
theorem memRead_memWrite (s : State) (i : Inst) (off n v : Nat) (h : off + n ≤ mapBytes) :
    memRead (memWrite s i off n v h) i off n h = v % 256 ^ n :=
  memRead_of_bytes h fun j hj => by rw [readByte_memWrite, if_pos ⟨rfl, by omega, by omega⟩]; congr 1; omega

/-- The saturating pointer (R36). -/
theorem satInc_toNat (p : Byte) : (satInc p).toNat = min (p.toNat + 1) 255 := by
  unfold satInc
  split
  · rename_i h
    subst h
    rfl
  · rename_i h
    have h' : p.toNat ≠ 255 := fun e => h (BitVec.eq_of_toNat_eq e)
    have := p.isLt
    rw [BitVec.toNat_add]
    simp only [BitVec.toNat_ofNat]
    omega

/-- The byte index a store step takes is one of the outstanding ones (R127). -/
theorem pickOf_mem {pend : List Nat} (h : pend ≠ []) (pick : Byte) : pickOf pend pick ∈ pend := by
  have hl : pick.toNat % pend.length < pend.length := Nat.mod_lt _ (List.length_pos_iff.2 h)
  rw [pickOf, List.getD_eq_getElem _ _ hl]
  exact List.getElem_mem hl

/-- Every outstanding byte index is some choice (R127), as long as there are at most 256 of them. -/
theorem exists_pickOf {pend : List Nat} (hl : pend.length ≤ 256) {j : Nat} (hj : j ∈ pend) : ∃ pick, pickOf pend pick = j := by
  obtain ⟨n, hn, rfl⟩ := List.getElem_of_mem hj
  refine ⟨BitVec.ofNat 8 n, ?_⟩
  have : n < 256 := by omega
  have h2 : (BitVec.ofNat 8 n).toNat % pend.length = n := by
    rw [BitVec.toNat_ofNat, Nat.mod_eq_of_lt (by omega : n < 2 ^ 8), Nat.mod_eq_of_lt hn]
  rw [pickOf, h2, List.getD_eq_getElem _ _ hn]

/-- A symbol on the wire (R185, R186): the wire's trace and the block's, and nothing else. -/
theorem driveWire_spec (s : State) (m : Mark) :
    driveWire s m =
      { s with led := { s.led with wire := s.led.wire ++ [m] }, obs := { s.obs with trace := s.obs.trace ++ [.led m] } } := rfl

@[simp] theorem driveWire_led (s : State) (m : Mark) : (driveWire s m).led = { s.led with wire := s.led.wire ++ [m] } := rfl

@[simp] theorem driveWire_trace (s : State) (m : Mark) : (driveWire s m).obs.trace = s.obs.trace ++ [.led m] := rfl

@[simp] theorem driveWire_busOut (s : State) (m : Mark) : (driveWire s m).obs.busOut = s.obs.busOut := rfl

@[simp] theorem driveWire_cfg (s : State) (m : Mark) : (driveWire s m).cfg = s.cfg := rfl

@[simp] theorem driveWire_map (s : State) (m : Mark) (i : Inst) : (driveWire s m).map i = s.map i := by cases i <;> rfl

@[simp] theorem driveWire_eng (s : State) (m : Mark) (i : Inst) : (driveWire s m).eng i = s.eng i := by cases i <;> rfl

@[simp] theorem driveWire_seq (s : State) (m : Mark) : (driveWire s m).seq = s.seq := rfl

@[simp] theorem driveWire_powerEn (s : State) (m : Mark) : (driveWire s m).powerEn = s.powerEn := rfl

@[simp] theorem driveWire_powered (s : State) (m : Mark) : (driveWire s m).powered = s.powered := rfl

@[simp] theorem driveWire_env (s : State) (m : Mark) : (driveWire s m).env = s.env := rfl

@[simp] theorem readByte_driveWire (s : State) (m : Mark) (i : Inst) (k : Nat) : readByte (driveWire s m) i k = readByte s i k := by
  cases i <;> rfl

/-! ## Power-enable and the hook -/

/-- Deasserting power-enable (R215): the level falls, the edge is emitted once, nothing else changes. -/
theorem deassertPower_spec (s : State) :
    (deassertPower s).powerEn = false ∧
      (deassertPower s).obs.trace = s.obs.trace ++ (if s.powerEn = true then [.powerEn false] else []) ∧
      (deassertPower s).obs.busOut = s.obs.busOut ∧
      deassertPower s = { s with powerEn := (deassertPower s).powerEn, obs := (deassertPower s).obs } := by
  unfold deassertPower
  cases h : s.powerEn
  · simp only [Bool.false_eq_true, if_false, List.append_nil]
    exact ⟨h, trivial, trivial, trivial⟩
  · simp [State.emit]

@[simp] theorem deassertPower_cfg (s : State) : (deassertPower s).cfg = s.cfg := by
  unfold deassertPower
  split <;> rfl

@[simp] theorem deassertPower_map (s : State) (i : Inst) : (deassertPower s).map i = s.map i := by
  unfold deassertPower
  split <;> cases i <;> rfl

@[simp] theorem deassertPower_eng (s : State) (i : Inst) : (deassertPower s).eng i = s.eng i := by
  unfold deassertPower
  split <;> cases i <;> rfl

@[simp] theorem deassertPower_seq (s : State) : (deassertPower s).seq = s.seq := by
  unfold deassertPower
  split <;> rfl

@[simp] theorem deassertPower_led (s : State) : (deassertPower s).led = s.led := by
  unfold deassertPower
  split <;> rfl

@[simp] theorem readByte_deassertPower (s : State) (i : Inst) (k : Nat) : readByte (deassertPower s) i k = readByte s i k := by
  simp [readByte]

/-- The hook (R149, R216): its event, the rail under the stated condition, and nothing else. -/
theorem hook_spec (s : State) (i : Inst) (offset : Byte) (length : Nat) :
    HookRun s (hook s i offset length) i offset length ∧
      (hook s i offset length).obs.busOut = s.obs.busOut ∧
      hook s i offset length =
        { s with powerEn := (hook s i offset length).powerEn, obs := (hook s i offset length).obs } := by
  unfold hook
  have hm : (mapLoad s .primary offsetShutdown = s.cfg.shutdownSentinel) = (readByte s .primary 31 = 0xFF#8) := by
    rw [s.cfg.shutdownSentinel_fixed]; rfl
  by_cases h : HookShutsDown s i offset length
  · rw [if_pos (by simpa only [hm] using h)]
    obtain ⟨h1, h2, h3, h4⟩ := deassertPower_spec (s.emit (.wrHook i offset length))
    refine ⟨⟨?_, ?_⟩, h3, ?_⟩
    · rw [h1, if_pos h]
    · rw [h2, emit_trace, emit_powerEn]
      by_cases hp : s.powerEn = true
      · rw [if_pos hp, if_pos ⟨h, hp⟩]
      · rw [if_neg hp, if_neg fun hc => hp hc.2]
    · rw [h4]
      rfl
  · rw [if_neg (by simpa only [hm] using h)]
    refine ⟨⟨?_, ?_⟩, rfl, rfl⟩
    · rw [if_neg h]
      rfl
    · simp [h]

/-! ## Ends of transactions -/

/-- Two changes of engine registers, power-enable and records, one after the other. -/
theorem engineFrame_trans {s t u : State}
    (h1 : t = { s with eng1 := t.eng1, eng2 := t.eng2, powerEn := t.powerEn, obs := t.obs })
    (h2 : u = { t with eng1 := u.eng1, eng2 := u.eng2, powerEn := u.powerEn, obs := u.obs }) :
    u = { s with eng1 := u.eng1, eng2 := u.eng2, powerEn := u.powerEn, obs := u.obs } := by
  rw [h1] at h2
  exact h2

/-- `EndTxn` (R149): the report, and nothing else. -/
theorem endTxn_spec (s : State) (i : Inst) :
    BurstReported s (endTxn s i) i ∧ (endTxn s i).obs.busOut = s.obs.busOut ∧
      endTxn s i = { s with powerEn := (endTxn s i).powerEn, obs := (endTxn s i).obs } := by
  unfold endTxn
  by_cases h : (s.eng i).st = .writeBurst
  · simp only [BurstReported, if_pos h]
    exact hook_spec ..
  · simp only [BurstReported, if_neg h]
    exact ⟨⟨trivial, trivial⟩, trivial, trivial⟩

@[simp] theorem endTxn_eng (s : State) (i j : Inst) : (endTxn s i).eng j = s.eng j := by
  rw [(endTxn_spec s i).2.2]
  cases j <;> rfl

@[simp] theorem endTxn_map (s : State) (i j : Inst) : (endTxn s i).map j = s.map j := by
  rw [(endTxn_spec s i).2.2]
  cases j <;> rfl

@[simp] theorem endTxn_cfg (s : State) (i : Inst) : (endTxn s i).cfg = s.cfg := by rw [(endTxn_spec s i).2.2]

/-- An engine state set: the other registers of the instance, the other instance and everything else stay. -/
theorem setEngSt_eng (s : State) (i j : Inst) (st : EngSt) :
    (setEngSt s i st).eng j = if j = i then { s.eng i with st := st } else s.eng j := setEng_eng ..

/-- `EndTxn(j) ; st_j <- IDLE` (R147, R148): the report and the idle state, and nothing else. -/
theorem endAndIdle_spec (s : State) (j : Inst) :
    BurstReported s (endAndIdle s j) j ∧
      (∀ i, (endAndIdle s j).eng i = if i = j then { s.eng j with st := .idle } else s.eng i) ∧
      (endAndIdle s j).obs.busOut = s.obs.busOut ∧
      endAndIdle s j =
        { s with
          eng1 := (endAndIdle s j).eng1
          eng2 := (endAndIdle s j).eng2
          powerEn := (endAndIdle s j).powerEn
          obs := (endAndIdle s j).obs } := by
  obtain ⟨h1, h2, h3⟩ := endTxn_spec s j
  refine ⟨?_, ?_, ?_, ?_⟩
  · simpa [endAndIdle, setEngSt, BurstReported, HookRun] using h1
  · intro i
    rw [endAndIdle, setEngSt_eng, endTxn_eng, endTxn_eng]
  · simpa [endAndIdle, setEngSt] using h2
  · unfold endAndIdle setEngSt
    generalize (endTxn s j).eng j = e
    rw [h3]
    cases j <;> rfl

@[simp] theorem endAndIdle_map (s : State) (i j : Inst) : (endAndIdle s j).map i = s.map i := by
  simp [endAndIdle, setEngSt]

@[simp] theorem endAndIdle_cfg (s : State) (j : Inst) : (endAndIdle s j).cfg = s.cfg := by
  simp [endAndIdle, setEngSt]

@[simp] theorem readByte_endAndIdle (s : State) (i j : Inst) (k : Nat) : readByte (endAndIdle s j) i k = readByte s i k := by
  simp [readByte]

/-- The active instance exists and is not idle (R158). -/
theorem activeInst_some {s : State} {i : Inst} (h : activeInst s = some i) : s.cfg.present i = true ∧ (s.eng i).st ≠ .idle := by
  unfold activeInst at h
  split at h
  · cases h
    exact ⟨rfl, ‹_›⟩
  · split at h
    · cases h
      rename_i h2
      exact ⟨h2.1, h2.2⟩
    · cases h

/-- No active instance means every instance that exists is idle. -/
theorem activeInst_none {s : State} (h : activeInst s = none) (i : Inst) (hi : s.cfg.present i = true) : (s.eng i).st = .idle := by
  unfold activeInst at h
  split at h
  · cases h
  · rename_i h1
    split at h
    · cases h
    · rename_i h2
      cases i
      · exact not_not.1 h1
      · exact not_not.1 fun hc => h2 ⟨hi, hc⟩

/-- With at most one instance busy (R158), an instance that exists and is not idle is the active one. -/
theorem activeInst_of_busy {s : State} (one : s.eng1.st = .idle ∨ s.eng2.st = .idle) {i : Inst} (hp : s.cfg.present i = true)
    (h : (s.eng i).st ≠ .idle) : activeInst s = some i := by
  cases i
  · exact if_pos h
  · have h1 : s.eng1.st = .idle := one.resolve_right h
    rw [activeInst, if_neg (not_not.2 h1), if_pos ⟨hp, h⟩]

/-- `STOP` for one instance: it ends and idles what is busy, and does nothing otherwise (R147). -/
theorem stopInst_eq (s : State) (j : Inst) :
    stopInst s j = if s.cfg.present j = true ∧ (s.eng j).st ≠ .idle then endAndIdle s j else s := rfl

@[simp] theorem stopInst_map (s : State) (i j : Inst) : (stopInst s j).map i = s.map i := by
  unfold stopInst
  split <;> simp

@[simp] theorem stopInst_cfg (s : State) (j : Inst) : (stopInst s j).cfg = s.cfg := by
  unfold stopInst
  split <;> simp

theorem stopInst_eng (s : State) (i j : Inst) :
    (stopInst s j).eng i = if i = j ∧ s.cfg.present j = true then { s.eng i with st := .idle } else s.eng i := by
  unfold stopInst
  by_cases hi : i = j
  · subst hi
    by_cases hp : s.cfg.present i = true
    · by_cases hs : (s.eng i).st = .idle
      · simp only [hp, hs, ne_eq, not_true_eq_false, and_false, if_false, and_self, if_true]
        rw [← hs]
      · simp [hp, hs, (endAndIdle_spec s i).2.1]
    · simp [hp]
  · by_cases hp : s.cfg.present j = true ∧ (s.eng j).st ≠ .idle
    · simp [hp.1, hp.2, (endAndIdle_spec s j).2.1, hi]
    · rw [if_neg hp]
      simp [hi]

/-- Where an end of transaction may differ from the state before: engine states, power-enable, trace. -/
theorem stopInst_frame (s : State) (j : Inst) :
    (stopInst s j).obs.busOut = s.obs.busOut ∧
      stopInst s j =
        { s with
          eng1 := (stopInst s j).eng1
          eng2 := (stopInst s j).eng2
          powerEn := (stopInst s j).powerEn
          obs := (stopInst s j).obs } := by
  unfold stopInst
  split
  · exact ⟨(endAndIdle_spec s j).2.2.1, (endAndIdle_spec s j).2.2.2⟩
  · exact ⟨rfl, rfl⟩

@[simp] theorem stopAll_map (s : State) (i : Inst) : (stopAll s).map i = s.map i := by simp [stopAll]

@[simp] theorem stopAll_cfg (s : State) : (stopAll s).cfg = s.cfg := by simp [stopAll]

@[simp] theorem readByte_stopAll (s : State) (i : Inst) (k : Nat) : readByte (stopAll s) i k = readByte s i k := by simp [readByte]

/-- `STOP` idles every instance that exists and keeps its other registers (R147). -/
theorem stopAll_eng (s : State) (i : Inst) :
    (stopAll s).eng i = if s.cfg.present i = true then { s.eng i with st := .idle } else s.eng i := by
  rw [stopAll, stopInst_eng, stopInst_eng, stopInst_cfg]
  cases i
  · simp [Config.present]
  · simp only [true_and, reduceCtorEq, false_and, if_false]

theorem stopAll_frame (s : State) :
    (stopAll s).obs.busOut = s.obs.busOut ∧
      stopAll s =
        { s with
          eng1 := (stopAll s).eng1
          eng2 := (stopAll s).eng2
          powerEn := (stopAll s).powerEn
          obs := (stopAll s).obs } := by
  obtain ⟨h1, h2⟩ := stopInst_frame s .primary
  obtain ⟨h3, h4⟩ := stopInst_frame (stopInst s .primary) .secondary
  refine ⟨h3.trans h1, ?_⟩
  exact engineFrame_trans h2 h4

/-- With nothing active a `STOP` does nothing (R156). -/
theorem stopAll_of_none {s : State} (h : activeInst s = none) : stopAll s = s := by
  have h1 : stopInst s .primary = s := if_neg fun hc => hc.2 (activeInst_none h .primary hc.1)
  have h2 : stopInst s .secondary = s := if_neg fun hc => hc.2 (activeInst_none h .secondary hc.1)
  rw [stopAll, h1, h2]

/-- With at most one instance busy (R158) a `STOP` ends the active instance's transaction and that is all. -/
theorem stopAll_of_some {s : State} (one : s.eng1.st = .idle ∨ s.eng2.st = .idle) {i : Inst} (h : activeInst s = some i) :
    stopAll s = endAndIdle s i := by
  obtain ⟨hp, hs⟩ := activeInst_some h
  cases i
  · have h2 : s.eng2.st = .idle := one.resolve_left hs
    have e1 : stopInst s .primary = endAndIdle s .primary := if_pos ⟨hp, hs⟩
    have e2 : (endAndIdle s .primary).eng .secondary = s.eng .secondary := (endAndIdle_spec s .primary).2.1 .secondary
    rw [stopAll, e1, stopInst, if_neg]
    rintro ⟨-, hc⟩
    rw [e2] at hc
    exact hc h2
  · have h1 : s.eng1.st = .idle := one.resolve_right hs
    have e1 : stopInst s .primary = s := if_neg fun hc => hc.2 h1
    rw [stopAll, e1]
    exact if_pos ⟨hp, hs⟩

/-- What an address match does first (R142, R143): end the active transaction, if there is one. -/
def endActive (s : State) : State :=
  match activeInst s with
  | some j => endAndIdle s j
  | none => s

theorem addressMatch_eq (s : State) (i : Inst) (d : Dir) :
    addressMatch s i d = ((endActive s).setEng i { (endActive s).eng i with st := .addressed, dir := d }).respond (.ack i) := rfl

theorem endActive_eng (s : State) (i : Inst) :
    (endActive s).eng i = if activeInst s = some i then { s.eng i with st := .idle } else s.eng i := by
  unfold endActive
  cases h : activeInst s with
  | none => simp
  | some j =>
    simp only [(endAndIdle_spec s j).2.1, Option.some.injEq]
    by_cases hj : j = i
    · subst hj
      simp
    · have : ¬i = j := fun e => hj e.symm
      simp [hj, this]

@[simp] theorem endActive_map (s : State) (i : Inst) : (endActive s).map i = s.map i := by
  unfold endActive
  split <;> simp

@[simp] theorem endActive_cfg (s : State) : (endActive s).cfg = s.cfg := by
  unfold endActive
  split <;> simp

@[simp] theorem addressMatch_map (s : State) (i j : Inst) (d : Dir) : (addressMatch s i d).map j = s.map j := by
  simp [addressMatch_eq]

@[simp] theorem addressMatch_cfg (s : State) (i : Inst) (d : Dir) : (addressMatch s i d).cfg = s.cfg := by simp [addressMatch_eq]

@[simp] theorem readByte_addressMatch (s : State) (i j : Inst) (d : Dir) (k : Nat) :
    readByte (addressMatch s i d) j k = readByte s j k := by
  simp [readByte]

/-- With at most one instance busy, nothing is busy once the active transaction has ended. -/
theorem stopAll_eq_endActive {s : State} (one : s.eng1.st = .idle ∨ s.eng2.st = .idle) : stopAll s = endActive s := by
  unfold endActive
  split
  · exact stopAll_of_some one ‹_›
  · exact stopAll_of_none ‹_›

/-- The engine registers after an address match (R142, R143). -/
theorem addressMatch_eng (s : State) (i j : Inst) (d : Dir) :
    (addressMatch s i d).eng j =
      if j = i then { s.eng i with st := .addressed, dir := d }
      else if activeInst s = some j then { s.eng j with st := .idle } else s.eng j := by
  rw [addressMatch_eq, respond_eng, setEng_eng]
  by_cases hj : j = i
  · subst hj
    simp only [if_true, endActive_eng]
    split <;> rfl
  · simp [hj, endActive_eng]

theorem endActive_frame (s : State) :
    (endActive s).obs.busOut = s.obs.busOut ∧
      endActive s =
        { s with
          eng1 := (endActive s).eng1
          eng2 := (endActive s).eng2
          powerEn := (endActive s).powerEn
          obs := (endActive s).obs } := by
  unfold endActive
  split
  · exact ⟨(endAndIdle_spec s _).2.2.1, (endAndIdle_spec s _).2.2.2⟩
  · exact ⟨rfl, rfl⟩

/-- An address match changes engine registers, and power-enable and the records as far as the end of a transaction reports (R142, R148). -/
theorem addressMatch_frame (s : State) (i : Inst) (d : Dir) :
    (addressMatch s i d).obs.busOut = s.obs.busOut ++ [.ack i] ∧
      (addressMatch s i d).powerEn = (endActive s).powerEn ∧
      (addressMatch s i d).obs.trace = (endActive s).obs.trace ∧
      addressMatch s i d =
        { s with
          eng1 := (addressMatch s i d).eng1
          eng2 := (addressMatch s i d).eng2
          powerEn := (addressMatch s i d).powerEn
          obs := (addressMatch s i d).obs } := by
  obtain ⟨h1, h2⟩ := endActive_frame s
  rw [addressMatch_eq]
  refine ⟨by simp [h1], by simp, by simp, ?_⟩
  generalize (endActive s).eng i = e
  rw [h2]
  cases i <;> rfl

/-! ## The steps inside a transaction -/

/-- The pointer byte (R144): engine registers of the one instance and the acknowledge. -/
theorem selectRegister_spec (s : State) (i : Inst) (b : Byte) :
    (∀ j, (selectRegister s i b).eng j =
      if j = i then { s.eng i with st := .registerSelect, ptr := b, boff := b, blen := 0 } else s.eng j) ∧
      (∀ j, (selectRegister s i b).map j = s.map j) ∧
      (selectRegister s i b).obs.trace = s.obs.trace ∧
      (selectRegister s i b).obs.busOut = s.obs.busOut ++ [.ack i] ∧
      selectRegister s i b =
        { s with
          eng1 := (selectRegister s i b).eng1
          eng2 := (selectRegister s i b).eng2
          obs := (selectRegister s i b).obs } := by
  refine ⟨fun j => ?_, fun j => ?_, ?_, ?_, ?_⟩
  · rw [selectRegister, respond_eng, setEng_eng]
  · simp [selectRegister]
  · simp [selectRegister]
  · simp [selectRegister]
  · cases i <;> rfl

/-- A data byte from the host (R145): at most one map byte, the registers of the one instance, the acknowledge. -/
theorem receiveData_spec (s : State) (i : Inst) (b : Byte) :
    (∀ j k, readByte (receiveData s i b) j k =
      if j = i ∧ k = (s.eng i).ptr.toNat ∧ k < 32 ∧ readOnly s.cfg i = false then b else readByte s j k) ∧
      (∀ j, (receiveData s i b).eng j =
        if j = i then
          { s.eng i with
            st := .writeBurst
            ptr := satInc (s.eng i).ptr
            blen := if (s.eng i).ptr.toNat < 32 ∧ readOnly s.cfg i = false then (s.eng i).blen + 1 else (s.eng i).blen }
        else s.eng j) ∧
      (receiveData s i b).obs.trace = s.obs.trace ∧
      (receiveData s i b).obs.busOut = s.obs.busOut ++ [.ack i] ∧
      receiveData s i b =
        { s with
          map1 := (receiveData s i b).map1
          map2 := (receiveData s i b).map2
          eng1 := (receiveData s i b).eng1
          eng2 := (receiveData s i b).eng2
          obs := (receiveData s i b).obs } := by
  have hf := busWrite_frame s i (s.eng i).ptr b
  have ho : (busWrite s i (s.eng i).ptr b).1.obs = s.obs := by rw [hf]
  refine ⟨fun j k => ?_, fun j => ?_, ?_, ?_, ?_⟩
  · simp only [receiveData, readByte_respond, readByte_setEng, readByte_busWrite]
  · simp only [receiveData, respond_eng, setEng_eng, busWrite_eng, busWrite_stored, decide_eq_true_eq]
  · simp [receiveData, ho]
  · simp [receiveData, ho]
  · unfold receiveData
    simp only
    generalize (if (busWrite s i (s.eng i).ptr b).2 = true then (s.eng i).blen + 1 else (s.eng i).blen) = n
    rw [hf]
    cases i <;> rfl

/-- A received byte keeps the canonical form of both maps. -/
theorem receiveData_wf {s : State} (h : ∀ j, Memory.wf (resetByte s.cfg j) (s.map j)) (i : Inst) (b : Byte) (j : Inst) :
    Memory.wf (resetByte (receiveData s i b).cfg j) ((receiveData s i b).map j) := by
  simpa [receiveData] using busWrite_wf h i (s.eng i).ptr b j

@[simp] theorem receiveData_cfg (s : State) (i : Inst) (b : Byte) : (receiveData s i b).cfg = s.cfg := by
  simp [receiveData]

/-- A received byte touches the maps only for its own instance (R80). -/
theorem receiveData_map_other (s : State) {i j : Inst} (hj : j ≠ i) (b : Byte) : (receiveData s i b).map j = s.map j := by
  unfold receiveData busWrite
  simp only [respond_map, setEng_map]
  split
  · simp [mapStore, setMap_map, hj]
  · rfl

/-- A data byte to the host (R146): the registers of the one instance and the byte returned. -/
theorem sendData_spec (s : State) (i : Inst) :
    (∀ j, (sendData s i).eng j = if j = i then { s.eng i with st := .readBurst, ptr := satInc (s.eng i).ptr } else s.eng j) ∧
      (∀ j, (sendData s i).map j = s.map j) ∧
      (sendData s i).obs.trace = s.obs.trace ∧
      (sendData s i).obs.busOut = s.obs.busOut ++
        [.byte i (if (s.eng i).ptr.toNat < 32 then readByte s i (s.eng i).ptr.toNat else 0x00#8)] ∧
      sendData s i =
        { s with eng1 := (sendData s i).eng1, eng2 := (sendData s i).eng2, obs := (sendData s i).obs } := by
  refine ⟨fun j => ?_, fun j => ?_, ?_, ?_, ?_⟩
  · rw [sendData, respond_eng, setEng_eng]
  · simp [sendData]
  · simp [sendData]
  · simp [sendData, busRead_eq]
  · cases i <;> rfl

/-- The bus fault (R268): every instance idle, its other registers kept, the kind on the trace, nothing else. -/
theorem raiseBusFault_spec (s : State) (kind : FaultKind) :
    (∀ j, (raiseBusFault s kind).eng j = { s.eng j with st := .idle }) ∧
      (raiseBusFault s kind).obs.trace = s.obs.trace ++ [.busFault kind] ∧
      raiseBusFault s kind =
        { s with
          eng1 := (raiseBusFault s kind).eng1
          eng2 := (raiseBusFault s kind).eng2
          obs := (raiseBusFault s kind).obs } ∧
      (raiseBusFault s kind).obs.busOut = s.obs.busOut := by
  refine ⟨fun j => ?_, rfl, rfl, rfl⟩
  cases j <;> rfl

/-- The serializer's start (R181, R182). -/
theorem startLed_spec (s : State) :
    (s.led.busy = true → startLed s = (s, .rejected)) ∧
      (s.led.busy = false →
        startLed s = ({ s with led := { s.led with busy := true, st := .armed, idx := 0, q := [] } }, .started)) := by
  constructor <;> intro h <;> simp [startLed, h]

/-! ## Enabling -/

/-- An operation that gives a next state was enabled, and the state is the one its rule gives. -/
theorem whenEnabled_next {s t u : State} {e : Bool} (h : whenEnabled s e t = .next u) : s.powered = true ∧ e = true ∧ u = t := by
  unfold whenEnabled at h
  split at h
  · split at h
    · cases h
      exact ⟨‹_›, ‹_›, rfl⟩
    · cases h
  · cases h

theorem whenEnabled_of {s : State} (hp : s.powered = true) {e : Bool} (he : e = true) (t : State) : whenEnabled s e t = .next t := by
  simp [whenEnabled, hp, he]

/-- An operation on the active instance that gives a next state. -/
theorem onActive_next {s u : State} {ok : Engine → Bool} {op : Inst → State} (h : onActive s ok op = .next u) :
    s.powered = true ∧ ∃ i, activeInst s = some i ∧ ok (s.eng i) = true ∧ u = op i := by
  unfold onActive at h
  split at h
  · obtain ⟨h1, h2, h3⟩ := whenEnabled_next h
    exact ⟨h1, _, ‹_›, h2, h3⟩
  · cases (whenEnabled_next h).2.1

end Sys2Proof.Machine
end

