-- ==== Sys2Proof/Laws/Runs.lean ====
section
/-! SUPPORT. Several steps in a row: bytes sent one after another, a transaction opened at a pointer, runs put together; and what the operations of the engine can change at all. -/

namespace Sys2Proof.Machine

/-- The active instance stays active when it stays busy and the other one is untouched. -/
theorem activeInst_keep {s t : State} {i : Inst} (h : activeInst s = some i) (hc : t.cfg = s.cfg) (hi : (t.eng i).st ≠ .idle)
    (ho : ∀ j, j ≠ i → t.eng j = s.eng j) : activeInst t = some i := by
  unfold activeInst at h ⊢
  cases i
  · exact if_pos hi
  · have h1 : t.eng1 = s.eng1 := ho .primary (by decide)
    rw [h1, hc]
    split at h
    · cases h
    · rename_i hh
      rw [if_neg hh]
      split at h
      · rename_i h2; exact if_pos ⟨h2.1, hi⟩
      · cases h

/-- An instance that is busy as the primary one is the active one. -/
theorem activeInst_of_primary {s : State} (h : (s.eng .primary).st ≠ .idle) : activeInst s = some .primary := if_pos h

/-- A run of two lists is the run of the second from where the first ends. -/
theorem runInstrs_append (xs ys : List Instr) (s : State) :
    runInstrs (xs ++ ys) s = match runInstrs xs s with | .next t => runInstrs ys t | .fault r => .fault r | .refused r => .refused r := by
  induction xs generalizing s with
  | nil => rfl
  | cons x xs ih =>
    simp only [List.cons_append, runInstrs]
    cases exec x s <;> simp [ih]

/-- Two changes of engine registers and records, one after the other. -/
theorem engineOnly_trans {s t u : State}
    (h1 : t = { s with eng1 := t.eng1, eng2 := t.eng2, obs := t.obs })
    (h2 : u = { t with eng1 := u.eng1, eng2 := u.eng2, obs := u.obs }) :
    u = { s with eng1 := u.eng1, eng2 := u.eng2, obs := u.obs } := by
  rw [h1] at h2
  exact h2

/-- Several bytes to the host, one after another (R98 form b, R241): pointer, states, bytes returned, and nothing else. -/
theorem sendMany_spec (i : Inst) (n : Nat) (s : State) :
    (∀ j, j ≠ i → (sendMany i n s).eng j = s.eng j) ∧
    ((sendMany i n s).eng i).ptr.toNat = min ((s.eng i).ptr.toNat + n) 255 ∧
    ((sendMany i n s).eng i).boff = (s.eng i).boff ∧ ((sendMany i n s).eng i).blen = (s.eng i).blen ∧
    ((sendMany i n s).eng i).st = (if n = 0 then (s.eng i).st else .readBurst) ∧ ((sendMany i n s).eng i).dir = (s.eng i).dir ∧
    (sendMany i n s).obs.trace = s.obs.trace ∧
    (sendMany i n s).obs.busOut = s.obs.busOut ++ (List.range n).map (fun j =>
          .byte i (if (s.eng i).ptr.toNat + j < 32 then readByte s i ((s.eng i).ptr.toNat + j) else 0x00#8)) ∧
    sendMany i n s = { s with eng1 := (sendMany i n s).eng1, eng2 := (sendMany i n s).eng2, obs := (sendMany i n s).obs } := by
  induction n generalizing s with
  | zero => have := (s.eng i).ptr.isLt; simp [sendMany]; omega
  | succ n ih =>
    obtain ⟨h1, h2, h3, h4, h5⟩ := sendData_spec s i
    have he := h1 i; rw [if_pos rfl] at he
    obtain ⟨g1, g2, g3, g4, g5, g6, g7, g8, g9⟩ := ih (sendData s i)
    simp only [sendMany]
    have hlt := (s.eng i).ptr.isLt
    refine ⟨?_, ?_, ?_, ?_, ?_, ?_, ?_, ?_, ?_⟩
    · intro j hj; rw [g1 j hj, h1, if_neg hj]
    · rw [g2, he]; simp only [satInc_toNat]; omega
    · rw [g3, he]
    · rw [g4, he]
    · rw [g5, he]; simp
    · rw [g6, he]
    · rw [g7, h3]
    · rw [g8, h4, he, List.range_succ_eq_map, List.map_cons, List.append_assoc]
      congr 1
      simp only [Nat.add_zero, List.singleton_append, List.map_map]
      congr 1
      apply List.map_congr_left
      intro j hj
      simp only [satInc_toNat, Function.comp]
      have hrb : ∀ k, readByte (sendData s i) i k = readByte s i k := by intro k; rw [h5]; simp [readByte, State.map]
      simp only [hrb]
      by_cases h : (s.eng i).ptr.toNat + (j + 1) < 32
      · have : min ((s.eng i).ptr.toNat + 1) 255 + j = (s.eng i).ptr.toNat + (j + 1) := by omega
        rw [this]
      · rw [if_neg (by omega), if_neg (by omega)]
    · exact engineOnly_trans h5 g9

/-- An address match makes its instance the active one (R142, R143, R158). -/
theorem activeInst_addressMatch {s : State} {i : Inst} (hi : s.cfg.present i = true) (d : Dir) :
    activeInst (addressMatch s i d) = some i := by
  have he : ((addressMatch s i d).eng i).st ≠ .idle := by rw [addressMatch_eng, if_pos rfl]; exact EngSt.noConfusion
  cases i
  · exact if_pos he
  · have h1 : (addressMatch s .secondary d).eng1.st = .idle := by
      have := addressMatch_eng s .secondary .primary d
      rw [if_neg (by decide)] at this
      rw [show (addressMatch s .secondary d).eng1 = _ from this]
      split
      · rfl
      · exact not_not.1 fun hc => ‹¬activeInst s = some .primary› (if_pos hc)
    rw [activeInst, if_neg (not_not.2 h1), if_pos ⟨by rw [addressMatch_cfg]; exact hi, he⟩]

/-- A transaction opened at a pointer makes its instance the active one. -/
theorem activeInst_openAt {s : State} {i : Inst} (hi : s.cfg.present i = true) (p : Byte) : activeInst (openAt s i p) = some i := by
  have h := selectRegister_spec (addressMatch s i .W) i p
  refine activeInst_keep (activeInst_addressMatch hi .W) ?_ ?_ ?_
  · rw [openAt, h.2.2.2.2]
  · rw [openAt, h.1, if_pos rfl]; exact EngSt.noConfusion
  · intro j hj; rw [openAt, h.1, if_neg hj]

/-- The instance's registers once a transaction is opened at a pointer (R142, R144). -/
theorem openAt_eng (s : State) (i : Inst) (p) : (openAt s i p).eng i = { st := .registerSelect, dir := .W, ptr := p, boff := p, blen := 0 } := by
  rw [openAt, (selectRegister_spec _ _ _).1, if_pos rfl, addressMatch_eng, if_pos rfl]

theorem openAt_cfg (s i p) : (openAt s i p).cfg = s.cfg := by
  rw [openAt, (selectRegister_spec _ _ _).2.2.2.2]; simp

theorem readByte_openAt (s i p j k) : readByte (openAt s i p) j k = readByte s j k := by
  rw [openAt, ← readByte_addressMatch s i j .W k]
  generalize addressMatch s i .W = u
  have h := (selectRegister_spec u i p).2.1 j
  have hc : (selectRegister u i p).cfg = u.cfg := by rw [(selectRegister_spec u i p).2.2.2.2]
  simp [readByte, hc, h]

/-- A transaction opened at a pointer (R106): two acknowledges, engine registers, and what the end of an active transaction reports. -/
theorem openAt_spec (s : State) (i : Inst) (p : Byte) :
    (openAt s i p).obs.busOut = s.obs.busOut ++ [.ack i, .ack i] ∧
    openAt s i p =
      { s with
        eng1 := (openAt s i p).eng1
        eng2 := (openAt s i p).eng2
        powerEn := (openAt s i p).powerEn
        obs := (openAt s i p).obs } ∧
    (∀ j, j ≠ i → (openAt s i p).eng j = s.eng j ∨ (openAt s i p).eng j = { s.eng j with st := .idle }) ∧
    (activeInst s = none →
      (openAt s i p).obs.trace = s.obs.trace ∧ (openAt s i p).powerEn = s.powerEn ∧ ∀ j, j ≠ i → (openAt s i p).eng j = s.eng j) := by
  have hf := addressMatch_frame s i .W
  obtain ⟨h1, h2, h3, h4, h5⟩ := selectRegister_spec (addressMatch s i .W) i p
  refine ⟨?_, ?_, ?_, ?_⟩
  · rw [openAt, h4, hf.1]; simp
  · have : openAt s i p =
        { addressMatch s i .W with
          eng1 := (openAt s i p).eng1
          eng2 := (openAt s i p).eng2
          powerEn := (openAt s i p).powerEn
          obs := (openAt s i p).obs } := by
      have hh := h5
      rw [openAt]; rw [hh]
    exact engineFrame_trans hf.2.2.2 this
  · intro j hj
    rw [openAt, h1, if_neg hj, addressMatch_eng, if_neg hj]
    split
    · exact .inr rfl
    · exact .inl rfl
  · intro hn
    refine ⟨?_, ?_, ?_⟩
    · rw [openAt, h3]; exact (by rw [(addressMatch_frame s i .W).2.2.1]; simp [endActive, hn])
    · rw [openAt, h5]; exact (by rw [(addressMatch_frame s i .W).2.1]; simp [endActive, hn])
    · intro j hj; rw [openAt, h1, if_neg hj, addressMatch_eng, if_neg hj, hn]; simp

/-! ## What the engine can change -/

/-- Maps, engine registers, the records, and power-enable downwards: all that an operation of the engine can change (R61, R108). -/
abbrev BusFrame (s t : State) : Prop :=
  t = { s with map1 := t.map1, map2 := t.map2, eng1 := t.eng1, eng2 := t.eng2, powerEn := t.powerEn, obs := t.obs } ∧
    (s.powerEn = false → t.powerEn = false)

theorem busFrame_trans {s t u} (h1 : BusFrame s t) (h2 : BusFrame t u) : BusFrame s u := by
  refine ⟨?_, fun h => h2.2 (h1.2 h)⟩
  have a := h1.1
  have b := h2.1
  rw [a] at b
  exact b

theorem busFrame_refl (s) : BusFrame s s := ⟨rfl, id⟩

theorem busFrame_endAndIdle (s j) : BusFrame s (endAndIdle s j) := by
  obtain ⟨h1, h2, h3, h4⟩ := endAndIdle_spec s j
  constructor
  · generalize endAndIdle s j = t at h4
    rw [h4]
  · intro h
    simp only [BurstReported, HookRun] at h1
    split at h1
    · rw [h1.1, h]; simp
    · rw [h1.1, h]

theorem busFrame_stopAll (s) : BusFrame s (stopAll s) := by
  have : ∀ s j, BusFrame s (stopInst s j) := by
    intro s j; unfold stopInst; split
    · exact busFrame_endAndIdle ..
    · exact busFrame_refl _
  exact busFrame_trans (this _ _) (this _ _)

theorem busFrame_addressMatch (s i d) : BusFrame s (addressMatch s i d) := by
  obtain ⟨h1, h2, h3, h4⟩ := addressMatch_frame s i d
  constructor
  · generalize addressMatch s i d = t at h4
    rw [h4]
  · intro h; rw [h2]; unfold endActive; split
    · exact (busFrame_endAndIdle _ _).2 h
    · exact h

theorem busFrame_selectRegister (s i b) : BusFrame s (selectRegister s i b) := by
  have h := (selectRegister_spec s i b).2.2.2.2
  generalize selectRegister s i b = t at h
  constructor
  · rw [h]
  · rw [h]; exact id

theorem busFrame_receiveData (s i b) : BusFrame s (receiveData s i b) := by
  have h := (receiveData_spec s i b).2.2.2.2
  generalize receiveData s i b = t at h
  constructor
  · rw [h]
  · rw [h]; exact id

theorem busFrame_sendData (s i) : BusFrame s (sendData s i) := by
  have h := (sendData_spec s i).2.2.2.2
  generalize sendData s i = t at h
  constructor
  · rw [h]
  · rw [h]; exact id

theorem busFrame_sendMany (i n s) : BusFrame s (sendMany i n s) := by
  induction n generalizing s with
  | zero => exact busFrame_refl _
  | succ n ih => exact busFrame_trans (busFrame_sendData s i) (ih _)

theorem busFrame_raiseBusFault (s k) : BusFrame s (raiseBusFault s k) := ⟨rfl, id⟩

theorem busFrame_hook (s i o l) : BusFrame s (hook s i o l) := by
  obtain ⟨h1, h2, h3⟩ := hook_spec s i o l
  constructor
  · generalize hook s i o l = t at h3; rw [h3]
  · intro h; rw [h1.1, h]; simp

theorem busFrame_openAt (s i p) : BusFrame s (openAt s i p) := busFrame_trans (busFrame_addressMatch _ _ _) (busFrame_selectRegister _ _ _)

/-- Every operation of the engine, and every host command, stays within that frame. -/
theorem exec_busFrame {i : Instr} (hb : isBusOp i = true) {s t : State} (h : exec i s = .next t) : BusFrame s t := by
  cases i <;> simp only [isBusOp, Bool.false_eq_true] at hb <;> simp only [exec] at h
  case addrW i =>
    simp only [execAddrW] at h; split at h
    · obtain ⟨-, -, rfl⟩ := whenEnabled_next h; exact busFrame_addressMatch ..
    · cases h
  case addrR i =>
    simp only [execAddrR] at h; split at h
    · obtain ⟨-, -, rfl⟩ := whenEnabled_next h; exact busFrame_addressMatch ..
    · cases h
  case regsel p => obtain ⟨-, i, -, -, rfl⟩ := onActive_next h; exact busFrame_selectRegister ..
  case wdata p => obtain ⟨-, i, -, -, rfl⟩ := onActive_next h; exact busFrame_receiveData ..
  case rdata => obtain ⟨-, i, -, -, rfl⟩ := onActive_next h; exact busFrame_sendData ..
  case stop => obtain ⟨-, -, rfl⟩ := whenEnabled_next h; exact busFrame_stopAll _
  case restart i =>
    simp only [execRestart] at h; split at h
    · obtain ⟨-, -, rfl⟩ := whenEnabled_next h; exact busFrame_endAndIdle ..
    · cases h
  case buserr => obtain ⟨-, -, rfl⟩ := whenEnabled_next h; exact busFrame_raiseBusFault ..
  case arblost => obtain ⟨-, -, rfl⟩ := whenEnabled_next h; exact busFrame_raiseBusFault ..
  case wrhook i o l =>
    simp only [execWrhook] at h; split at h
    · obtain ⟨-, -, rfl⟩ := whenEnabled_next h; exact busFrame_hook ..
    · cases h
  case triggerLed v => obtain ⟨-, -, rfl⟩ := whenEnabled_next h; exact busFrame_receiveData ..
  case triggerShutdown => obtain ⟨-, -, rfl⟩ := whenEnabled_next h; exact busFrame_receiveData ..
  case cmdSetLed r g b =>
    obtain ⟨-, -, rfl⟩ := whenEnabled_next h
    refine busFrame_trans (busFrame_openAt s .primary 8#8) (busFrame_trans (busFrame_receiveData _ .primary r) ?_)
    refine busFrame_trans (busFrame_receiveData _ .primary g) (busFrame_trans (busFrame_receiveData _ .primary b) ?_)
    exact busFrame_trans (busFrame_receiveData _ .primary 1#8) (busFrame_stopAll _)
  case cmdShutdown =>
    obtain ⟨-, -, rfl⟩ := whenEnabled_next h
    exact busFrame_trans (busFrame_trans (busFrame_openAt _ _ _) (busFrame_receiveData _ _ _)) (busFrame_stopAll _)
  case cmdRead p m =>
    obtain ⟨-, -, rfl⟩ := whenEnabled_next h
    refine busFrame_trans (busFrame_trans (busFrame_openAt s .primary p) (busFrame_addressMatch _ .primary .R)) ?_
    exact busFrame_trans (busFrame_sendMany _ _ _) (busFrame_stopAll _)

end Sys2Proof.Machine
end

