-- ==== Sys2Proof/Laws/Fetch.lean ====
section
/-! SUPPORT. What the next step can be: which operation each event selects (30_encoding.md R108), and the two ways a step goes on. -/

namespace Sys2Proof.Machine

/-- The operation an event selects, read off the state (the "selected by" column of R108). -/
def Selects (s : State) : Event → Instr → Prop
  | .addr b, i => ∃ j, addrMatch s.cfg (addrField b) = some j ∧ (i = .addrW j ∨ i = .addrR j)
  | .rxByte b, i =>
    ∃ j, activeInst s = some j ∧
      ((awaitsPointer (s.eng j) = true ∧ i = .regsel b) ∨
        (awaitsData (s.eng j) = true ∧
          (i = .wdata b ∨
            (j = .primary ∧
              ((s.eng1.ptr = 11#8 ∧ b ≠ 0#8 ∧ i = .triggerLed b) ∨ (s.eng1.ptr = 31#8 ∧ i = .triggerShutdown))))))
  | .txReq, i => ∃ j, activeInst s = some j ∧ sendsData (s.eng j) = true ∧ i = .rdata
  | .stop, i => i = .stop
  | .busErr, i => i = .buserr
  | .arbLost, i => i = .arblost
  | .seq pick, i => stepInstr s.seq.spc pick = some i
  | .ser, i => (s.led.st = .armed ∧ i = .ledFetch) ∨ (s.led.st = .shift ∧ s.led.q ≠ [] ∧ i = .ledBit) ∨
      (s.led.st = .shift ∧ s.led.q = [] ∧ i = .ledDone)
  | .tick, i => i = .tick
  | .adcDone v, i => s.seq.spc = .adcWait ∧ i = .adcWait v
  | .pin _, _ => False
  | .powerLoss, i => i = .powerLoss
  | .reset, i => i = .reset
  | .txn _, i => (∃ r g b, i = .cmdSetLed r g b) ∨ i = .cmdShutdown ∨ ∃ p m, i = .cmdRead p m

/-- A sixteen-bit operand is read back from its two bytes. -/
theorem decode_adcWait (c v) : decode c (encode c (.adcWait v)) = .ok (.adcWait v) := by
  have : (v.extractLsb' 8 8 ++ v.extractLsb' 0 8 : Half) = v := by
    apply BitVec.eq_of_getLsbD_eq
    intro i hi
    simp only [BitVec.getLsbD_append, BitVec.getLsbD_extractLsb']
    by_cases h : i < 8
    · simp [h]
    · have h1 : i - 8 < 8 := by omega
      have h2 : 8 + (i - 8) = i := by omega
      simp [h, h1, h2]
  show Except.ok (Instr.adcWait (v.extractLsb' 8 8 ++ v.extractLsb' 0 8)) = _
  rw [this]

theorem decodeTxn_ok {c bs i} (h : decodeTxn c bs = .ok i) :
    (∃ r g b, i = .cmdSetLed r g b) ∨ i = .cmdShutdown ∨ ∃ p m, i = .cmdRead p m := by
  unfold decodeTxn at h
  split at h <;> (try split at h) <;> cases h <;> simp

theorem select_decodes {s : State} {e : Event} {w : Code} {i : Instr} (h : select s e = .op w) (hd : decode s.cfg w = .ok i) :
    Selects s e i := by
  cases e <;> simp only [select] at h
  case addr b =>
    split at h
    · cases h
      simp only [decode, decodeAddr] at hd
      split at hd
      · rename_i j hj _; cases hd; exact ⟨j, hj, .inl rfl⟩
      · rename_i j hj _; cases hd; exact ⟨j, hj, .inr rfl⟩
      · cases hd
    · cases h
  case rxByte b =>
    simp only [selectRx] at h
    split at h
    · cases h
    · split at h
      · cases h
      · rename_i j hj
        refine ⟨j, hj, ?_⟩
        split at h
        · cases h; cases hd; exact .inl ⟨‹_›, rfl⟩
        · split at h
          · refine .inr ⟨‹_›, ?_⟩
            split at h
            · rename_i hc
              obtain ⟨rfl, hc⟩ := hc
              cases h
              rcases hc with hc | hc
              · simp only [hc, decode, decodeMapValue, if_true] at hd
                split at hd
                · cases hd; exact .inl rfl
                · cases hd; exact .inr ⟨rfl, .inl ⟨hc, ‹_›, rfl⟩⟩
              · simp only [hc, decode, decodeMapValue] at hd
                rw [if_neg (by decide), if_pos trivial] at hd
                split at hd
                · cases hd; exact .inr ⟨rfl, .inr ⟨hc, rfl⟩⟩
                · cases hd; exact .inl rfl
            · cases h; cases hd; exact .inl rfl
          · cases h
  case txReq =>
    simp only [selectTx] at h
    split at h
    · cases h
    · split at h
      · cases h
      · split at h
        · cases h; cases hd; exact ⟨_, ‹_›, ‹_›, rfl⟩
        · cases h
  case stop => cases h; cases hd; exact rfl
  case busErr => cases h; cases hd; exact rfl
  case arbLost => cases h; cases hd; exact rfl
  case seq pick =>
    simp only [selectSeq] at h
    split at h <;> cases h <;> cases hd <;> simp only [Selects, stepInstr, *]
  case ser =>
    simp only [selectSer] at h
    split at h
    · cases h
    · cases h; cases hd; exact .inl ⟨‹_›, rfl⟩
    · split at h
      · cases h; cases hd; exact .inr (.inr ⟨‹_›, by simpa using ‹s.led.q.isEmpty = true›, rfl⟩)
      · cases h; cases hd; exact .inr (.inl ⟨‹_›, by simpa using ‹¬ s.led.q.isEmpty = true›, rfl⟩)
  case tick => cases h; cases hd; exact rfl
  case adcDone v =>
    split at h
    · cases h; rw [decode_adcWait] at hd; cases hd; exact ⟨‹_›, rfl⟩
    · cases h
  case pin => cases h
  case powerLoss => cases h; cases hd; exact rfl
  case reset => cases h; cases hd; exact rfl
  case txn bs => cases h; exact decodeTxn_ok hd

theorem selectUnpowered_op {s : State} {e : Event} {w : Code} (h : selectUnpowered s e = .op w) :
    e = .reset ∧ w = encode s.cfg .reset := by
  cases e <;> cases h
  exact ⟨rfl, rfl⟩

/-- A fetched operation is the one its event selects; without supply only `RESET` is fetched (R42). -/
theorem fetch_run {s : State} {i : Instr} (h : fetch s = .run i) :
    s.cfg.valid = true ∧ ((s.powered = true ∧ Selects s (nextEvent s) i) ∨ (s.powered = false ∧ nextEvent s = .reset ∧ i = .reset)) := by
  unfold fetch at h
  split at h
  · refine ⟨‹_›, ?_⟩
    split at h <;> rename_i hw
    · split at h
      · cases h
        split at hw
        · exact .inl ⟨‹_›, select_decodes hw ‹_›⟩
        · right
          refine ⟨by simpa using ‹¬ s.powered = true›, ?_⟩
          obtain ⟨h1, rfl⟩ := selectUnpowered_op hw
          rename_i hd
          cases hd
          exact ⟨h1, rfl⟩
      · cases h
    · cases h
    · cases h
    · cases h
  · cases h

/-- A step that goes on runs a fetched operation or leaves the block as it is. -/
theorem step_next {s t : State} (h : step s = .next t) :
    (∃ i, fetch s = .run i ∧ exec i (advance s) = .next t) ∨ (∃ u, fetch s = .idle u ∧ t = u) := by
  unfold step at h
  split at h
  · exact .inl ⟨_, ‹_›, h⟩
  · cases h; exact .inr ⟨_, ‹_›, rfl⟩
  · cases h

/-- A turn that finds nothing to do changes the environment alone. -/
theorem fetch_idle {s u : State} (h : fetch s = .idle u) : s.cfg.valid = true ∧ u = { s with env := u.env } := by
  unfold fetch at h
  split at h
  · refine ⟨‹_›, ?_⟩
    split at h
    · split at h <;> cases h
      rfl
    · cases h; rfl
    · cases h; rfl
    · cases h
  · cases h

/-- An address that matches an instance matches one that exists (R93). -/
theorem addrMatch_present {c : Config} {a : BitVec 7} {j : Inst} (h : addrMatch c a = some j) : c.present j = true := by
  unfold addrMatch at h
  split at h
  · cases h
    rfl
  · split at h
    · cases h
      rename_i hh
      simp only [Bool.and_eq_true] at hh
      exact hh.1
    · cases h

end Sys2Proof.Machine
end

