-- ==== Sys2Proof/Tests/Slice0.lean ====
section
/-! SUPPORT. Tests: ill-formed terms refused, words of the spec decoded, single steps of the vectors of 95_test_vectors.md, and a witness for the hypotheses of every statement. Expected values come from the spec's encodings and vectors. -/

namespace Sys2Proof.Tests

open Sys2Proof Sys2Proof.Machine

/-! ## Small states -/

/-- The parameters 95_test_vectors.md names as its defaults, with V10's second address. -/
def cfg : Config where
  addr1 := 0x09#7
  hasSecondary := false
  addr2 := 0x0A#7
  ro1 := false
  ro2 := false
  uid := #v[0xD0#8, 0xD1#8, 0xD2#8, 0xD3#8, 0xD4#8, 0xD5#8, 0xD6#8, 0xD7#8, 0xD8#8, 0xD9#8, 0xDA#8, 0xDB#8]
  nLeds := 1
  channelOrder := .rgb
  durations := ⟨1, 2, 2, 1, 50, rfl⟩
  adcLowThreshold := 560#16
  hystInit := 10
  sampleInterval := 5000#32
  hookImmediateShutdown := false

def cfgTwo : Config := { cfg with hasSecondary := true }
def cfgReadOnly : Config := { cfg with ro1 := true }
def cfgHook : Config := { cfg with hookImmediateShutdown := true }

/-- Right after `RESET`. -/
def start (c : Config) : State := State.resetWith c Env.reset Obs.reset

/-- The primary engine in a state, at a pointer. -/
def onBus (c : Config) (st : EngSt) (d : Dir) (ptr : Byte) : State :=
  { start c with eng1 := { st := st, dir := d, ptr := ptr, boff := ptr, blen := 0 } }

/-- A write burst from `boff` that has stored `blen` bytes. -/
def inBurst (c : Config) (boff : Byte) (blen : Nat) : State :=
  { start c with eng1 := { st := .writeBurst, dir := .W, ptr := boff + BitVec.ofNat 8 blen, boff := boff, blen := blen } }

/-- The sequencer at a step, its other registers given by a function of the reset ones. -/
def scanAt (p : SeqStep) (f : Sequencer → Sequencer) : State := { start cfg with seq := { f (start cfg).seq with spc := p } }

/-- The serializer in a state with a queue. -/
def ledAt (st : LedSt) (q : List Bool) : State := { start cfg with led := { busy := true, st := st, idx := 0, q := q, wire := [] } }

/-- An event at the head of the schedule. -/
def withEvent (s : State) (e : Event) : State := { s with env := { s.env with sched := [e] } }

/-- The state after an operation; the state itself where there is none. -/
def after (i : Instr) (s : State) : State :=
  match exec i s with
  | .next t => t
  | .fault _ => s
  | .refused _ => s

/-! ## Ill-formed terms are refused -/

theorem test_cfg_valid : cfg.valid = true ∧ cfgTwo.valid = true ∧ Config.machine.valid = true := ⟨rfl, rfl, rfl⟩
theorem test_valid_equal_addresses : Config.valid { cfgTwo with addr2 := 0x09#7 } = false := by decide
theorem test_valid_no_hysteresis : Config.valid { cfg with hystInit := 0 } = false := by decide
theorem test_valid_two_leds : Config.valid { cfg with nLeds := 2 } = false := by decide
theorem test_wf_absent_addrW : (Instr.addrW .secondary).wf cfg = false := by decide
theorem test_wf_absent_addrR : (Instr.addrR .secondary).wf cfg = false := by decide
theorem test_wf_absent_restart : (Instr.restart .secondary).wf cfg = false := by decide
theorem test_wf_absent_wrhook : (Instr.wrhook .secondary 0#8 0).wf cfg = false := by decide
theorem test_wf_long_hook : (Instr.wrhook .primary 0#8 33).wf cfg = false := by decide
theorem test_wf_two_leds : (Instr.ledStart 2).wf cfg = false := by decide
theorem test_wf_no_trigger : (Instr.triggerLed 0#8).wf cfg = false := by decide
theorem test_wf_boundary : (Instr.wrhook .primary 0#8 32).wf cfg = true ∧ (Instr.addrW .secondary).wf cfgTwo = true := by decide

/-! ## Decoding: words written out from the spec's encodings -/

/-- R92: address 0001001 in bits 7 to 1, direction in bit 0. -/
theorem test_decode_addrW : decode cfg ⟨.A, [0b00010010#8]⟩ = .ok (.addrW .primary) := by rfl
theorem test_decode_addrR : decode cfg ⟨.A, [0b00010011#8]⟩ = .ok (.addrR .primary) := by rfl
/-- V10: address bytes 14 and 15 for `ADDR2 = 0x0A`. -/
theorem test_decode_second : decode cfgTwo ⟨.A, [0x14#8]⟩ = .ok (.addrW .secondary) ∧
    decode cfgTwo ⟨.A, [0x15#8]⟩ = .ok (.addrR .secondary) := ⟨rfl, rfl⟩
/-- R93, V28: another device's address. -/
theorem test_decode_foreign : decode cfg ⟨.A, [0b10100000#8]⟩ = .error .foreignAddress ∧
    decode cfg ⟨.A, [0x14#8]⟩ = .error .foreignAddress := ⟨rfl, rfl⟩
/-- R94 to R96. -/
theorem test_decode_regsel : decode cfg ⟨.P, [0x1E#8]⟩ = .ok (.regsel 0x1E#8) := rfl
theorem test_decode_wdata : decode cfg ⟨.D, [0xA1#8]⟩ = .ok (.wdata 0xA1#8) := rfl
theorem test_decode_rdata : decode cfg ⟨.D, []⟩ = .ok .rdata := rfl
/-- R109: step indices 0 to 10, and nothing at 11. -/
theorem test_decode_steps :
    (List.range 11).map (fun n => decode cfg ⟨.SEQSTEP, [BitVec.ofNat 8 n]⟩) =
      [.ok (.msPublish 0#8), .ok .trigLoad, .ok .trigAct, .ok .trigClear, .ok .adcCheck, .ok (.adcWait 0#16), .ok (.adcStore 0#8),
        .ok .battEval, .ok .gpioRefresh, .ok .shdnLoad, .ok .shdnAct] := rfl
theorem test_decode_no_step : decode cfg ⟨.SEQSTEP, [11#8]⟩ = .error .noSuchStep := rfl
/-- The answer 560 = 0x0230 that `ADC_WAIT` takes. -/
theorem test_decode_adcWait : decode cfg ⟨.SEQSTEP, [5#8, 0x30#8, 0x02#8]⟩ = .ok (.adcWait 560#16) := rfl
/-- R102. -/
theorem test_decode_triggers : decode cfg ⟨.MAPVALUE 11#8, [0x01#8]⟩ = .ok (.triggerLed 0x01#8) ∧
    decode cfg ⟨.MAPVALUE 11#8, [0x00#8]⟩ = .ok (.wdata 0x00#8) ∧
    decode cfg ⟨.MAPVALUE 31#8, [0xFF#8]⟩ = .ok .triggerShutdown ∧
    decode cfg ⟨.MAPVALUE 31#8, [0xFE#8]⟩ = .ok (.wdata 0xFE#8) := ⟨rfl, rfl, rfl, rfl⟩
/-- R241 to R243, V33: wire bytes. -/
theorem test_decode_commands : decode cfg ⟨.TXN, [0x12#8, 0x08#8, 0xFF#8, 0x00#8, 0x80#8, 0x01#8]⟩ =
      .ok (.cmdSetLed 0xFF#8 0x00#8 0x80#8) ∧
    decode cfg ⟨.TXN, [0x12#8, 0x1F#8, 0xFF#8]⟩ = .ok .cmdShutdown ∧
    decode cfg ⟨.TXN, [0x12#8, 0x00#8]⟩ = .ok (.cmdRead 0#8 32#8) ∧
    decode cfg ⟨.TXN, [0x12#8, 0x0C#8, 0x13#8, 0x02#8]⟩ = .ok (.cmdRead 0x0C#8 2#8) := ⟨rfl, rfl, rfl, rfl⟩
theorem test_decode_no_command : decode cfg ⟨.TXN, [0x12#8, 0x1F#8, 0xFE#8]⟩ = .error .noSuchCommand := rfl
/-- The rows the spec gives no bits: the model's own selectors (log entry 11). -/
theorem test_decode_own : decode cfg ⟨.COND, [0#8]⟩ = .ok .stop ∧ decode cfg ⟨.COND, [1#8, 1#8]⟩ = .ok (.restart .primary) ∧
    decode cfg ⟨.COND, [2#8]⟩ = .ok .buserr ∧ decode cfg ⟨.COND, [3#8]⟩ = .ok .arblost ∧
    decode cfg ⟨.INTERNAL, [0#8, 1#8, 30#8, 2#8]⟩ = .ok (.wrhook .primary 30#8 2) ∧
    decode cfg ⟨.INTERNAL, [1#8, 1#8]⟩ = .ok (.ledStart 1) ∧ decode cfg ⟨.INTERNAL, [2#8]⟩ = .ok .ledFetch ∧
    decode cfg ⟨.INTERNAL, [3#8]⟩ = .ok .ledDone ∧ decode cfg ⟨.PULSE, []⟩ = .ok .ledBit ∧
    decode cfg ⟨.ENV, [0#8]⟩ = .ok .tick ∧ decode cfg ⟨.ENV, [1#8]⟩ = .ok .powerLoss ∧ decode cfg ⟨.ENV, [2#8]⟩ = .ok .reset :=
  ⟨rfl, rfl, rfl, rfl, rfl, rfl, rfl, rfl, rfl, rfl, rfl, rfl⟩
/-- The table's own words (opcode_table.json, `match`). -/
theorem test_table_words : decodeTableWord 48 0x120811223301 = some (.cmdSetLed 0x11#8 0x22#8 0x33#8) ∧
    decodeTableWord 24 0x121FFF = some .cmdShutdown ∧ decodeTableWord 16 0x1200 = some (.cmdRead 0#8 32#8) ∧
    decodeTableWord 8 0x12 = some (.addrW .primary) ∧ decodeTableWord 8 7 = some .battEval ∧
    decodeTableWord 8 0xFF = some .triggerShutdown := ⟨rfl, rfl, rfl, rfl, rfl, rfl⟩

/-! ## Single steps: the bus engine -/

/-- R143, V8: a repeated start ends a burst: `WRHOOK(1, 30, 1)`, then addressed for reading. -/
theorem test_addrR_ends_burst : (after (.addrR .primary) (inBurst cfg 30#8 1)).obs.trace = [.wrHook .primary 30#8 1] ∧
    (after (.addrR .primary) (inBurst cfg 30#8 1)).eng1.st = .addressed ∧
    (after (.addrR .primary) (inBurst cfg 30#8 1)).eng1.dir = .R ∧
    (after (.addrR .primary) (inBurst cfg 30#8 1)).eng1.ptr = 31#8 := by decide
/-- R142, V10: `WRHOOK(1, 5, 1)`, the first instance idle, the second addressed. -/
theorem test_addrW_other : (after (.addrW .secondary) (inBurst cfgTwo 5#8 1)).obs.trace = [.wrHook .primary 5#8 1] ∧
    (after (.addrW .secondary) (inBurst cfgTwo 5#8 1)).eng1.st = .idle ∧
    (after (.addrW .secondary) (inBurst cfgTwo 5#8 1)).eng2.st = .addressed := by decide
/-- R144, V7: `05` gives pointer 5, offset 5, length 0. -/
theorem test_regsel : (after (.regsel 5#8) (onBus cfg .addressed .W 0#8)).eng1 =
    { st := .registerSelect, dir := .W, ptr := 5#8, boff := 5#8, blen := 0 } := by decide
/-- R145, V2: the last byte of the map is stored, the next one is dropped and does not reach offset 0. -/
theorem test_wdata_last : (after (.wdata 0xA2#8) (onBus cfg .registerSelect .W 31#8)).map1 = [(31, 0xA2#8)] ∧
    (after (.wdata 0xA2#8) (onBus cfg .registerSelect .W 31#8)).eng1.ptr = 32#8 ∧
    (after (.wdata 0xA3#8) (onBus cfg .registerSelect .W 32#8)).map1 = [] ∧
    (after (.wdata 0xA3#8) (onBus cfg .writeBurst .W 255#8)).eng1.ptr = 255#8 := by decide
/-- R152, V6: a read-only device stores nothing, counts nothing, moves its pointer. -/
theorem test_wdata_readOnly : (after (.wdata 0xFF#8) (onBus cfgReadOnly .registerSelect .W 8#8)).map1 = [] ∧
    (after (.wdata 0xFF#8) (onBus cfgReadOnly .registerSelect .W 8#8)).eng1.blen = 0 ∧
    (after (.wdata 0xFF#8) (onBus cfgReadOnly .registerSelect .W 8#8)).eng1.ptr = 9#8 := by decide
/-- R146, V6: the identifier at offset 16. -/
theorem test_rdata_uid : (after .rdata (onBus cfg .addressed .R 16#8)).obs.busOut = [.byte .primary 0xD0#8] ∧
    (after .rdata (onBus cfg .addressed .R 16#8)).eng1.ptr = 17#8 := by decide
/-- V4: past the end. -/
theorem test_rdata_past : (after .rdata (onBus cfg .readBurst .R 255#8)).obs.busOut = [.byte .primary 0x00#8] ∧
    (after .rdata (onBus cfg .readBurst .R 255#8)).eng1.ptr = 255#8 := by decide
/-- R147, V7: the hook for a write burst only. -/
theorem test_stop_burst : (after .stop (inBurst cfg 5#8 1)).obs.trace = [.wrHook .primary 5#8 1] ∧
    (after .stop (inBurst cfg 5#8 1)).eng1.st = .idle := by decide
theorem test_stop_pointer_only : (after .stop (onBus cfg .registerSelect .W 5#8)).obs.trace = [] := by decide
/-- R148. -/
theorem test_restart : (after (.restart .primary) (inBurst cfg 30#8 1)).obs.trace = [.wrHook .primary 30#8 1] ∧
    (after (.restart .primary) (inBurst cfg 30#8 1)).eng1.st = .idle := by decide
/-- R150, V9: no hook, the fault on the trace, the pointer kept. -/
theorem test_buserr : (after .buserr (inBurst cfg 8#8 1)).obs.trace = [.busFault .busError] ∧
    (after .buserr (inBurst cfg 8#8 1)).eng1.ptr = 9#8 ∧ (after .buserr (inBurst cfg 8#8 1)).eng1.st = .idle := by decide
/-- R151, V9: all idle: nothing changes but the trace. -/
theorem test_arblost : after .arblost (start cfg) = { start cfg with obs := ⟨[.busFault .arbLost], []⟩ } := by decide
/-- R149, R216, V25: the burst 30..31 with the sentinel, under the immediate-shutdown setting. -/
theorem test_wrhook_acts : (after (.wrhook .primary 30#8 2) { start cfgHook with map1 := [(31, 0xFF#8)] }).obs.trace =
      [.wrHook .primary 30#8 2, .powerEn false] ∧
    (after (.wrhook .primary 30#8 2) { start cfgHook with map1 := [(31, 0xFF#8)] }).powerEn = false := by decide
theorem test_wrhook_silent : (after (.wrhook .primary 30#8 1) { start cfgHook with map1 := [(31, 0xFF#8)] }).powerEn = true ∧
    (after (.wrhook .primary 31#8 1) { start cfg with map1 := [(31, 0xFF#8)] }).powerEn = true := by decide
/-- R102. -/
theorem test_triggerLed : (after (.triggerLed 0x01#8) (onBus cfg .writeBurst .W 11#8)).map1 = [(11, 0x01#8)] := by decide
theorem test_triggerShutdown : (after .triggerShutdown (onBus cfg .registerSelect .W 31#8)).map1 = [(31, 0xFF#8)] ∧
    (after .triggerShutdown (onBus cfg .registerSelect .W 31#8)).powerEn = true := by decide

/-! ## Single steps: the serializer -/

/-- R181, V13. -/
theorem test_ledStart : (after (.ledStart 1) (start cfg)).led = { busy := true, st := .armed, idx := 0, q := [], wire := [] } := by
  decide
theorem test_ledStart_busy : after (.ledStart 1) (ledAt .shift [true]) = ledAt .shift [true] := by decide
/-- R183, V1: the frame (FF, 00, 80) in the orders red-green-blue and green-red-blue. -/
theorem test_ledFetch : (after .ledFetch { ledAt .armed [] with map1 := [(8, 0xFF#8), (10, 0x80#8)] }).led.q =
    List.replicate 8 true ++ List.replicate 8 false ++ (true :: List.replicate 7 false) := by decide
theorem test_ledFetch_grb :
    (after .ledFetch { ledAt .armed [] with cfg := { cfg with channelOrder := .grb }, map1 := [(8, 0xFF#8), (10, 0x80#8)] }).led.q =
      List.replicate 8 false ++ List.replicate 8 true ++ (true :: List.replicate 7 false) := by decide
/-- R185, R10: the symbol stands on the wire and on the trace. -/
theorem test_ledBit : (after .ledBit (ledAt .shift [true, false])).led.wire = [.sym1] ∧
    (after .ledBit (ledAt .shift [true, false])).obs.trace = [.led .sym1] ∧
    (after .ledBit (ledAt .shift [true, false])).led.q = [false] := by decide
/-- R104: the two symbols of this machine differ in their high time, whatever the open durations are. -/
theorem test_pulse_widths_differ : (pulseOf Config.machine.durations .sym1).1 ≠ (pulseOf Config.machine.durations .sym0).1 :=
  bne_iff_ne.1 Config.machine.durations.distinct
/-- R186. -/
theorem test_ledDone : (after .ledDone (ledAt .shift [])).led = { busy := false, st := .idle, idx := 1, q := [], wire := [.latch] } ∧
    (after .ledDone (ledAt .shift [])).obs.trace = [.led .latch] := by decide

/-! ## Single steps: the sequencer -/

/-- R202, V14: the snapshot of 5000. -/
theorem test_msPublish_snapshot : (after (.msPublish 0#8) (scanAt .msPublish fun q => { q with ms := 5000#32 })).seq.msSnap = 5000#32 := by
  decide
/-- V31: byte 2 of 0x12345678 goes to offset 6. -/
theorem test_msPublish_byte :
    (after (.msPublish 2#8) (scanAt .msPublish fun q => { q with msSnap := 0x12345678#32, pend := [0, 1, 2, 3] })).map1 =
      [(6, 0x34#8)] := by decide
/-- R203. -/
theorem test_trigLoad : (after .trigLoad { scanAt .trigLoad id with map1 := [(11, 0x07#8)] }).seq.t11 = 0x07#8 := by decide
/-- R204, V13: started when idle, deferred while busy. -/
theorem test_trigAct_starts : (after .trigAct (scanAt .trigAct fun q => { q with t11 := 7#8 })).led.st = .armed ∧
    (after .trigAct (scanAt .trigAct fun q => { q with t11 := 7#8 })).seq.spc = .trigClear := by decide
theorem test_trigAct_defers :
    (after .trigAct { scanAt .trigAct (fun q => { q with t11 := 1#8 }) with led := (ledAt .shift [true]).led }).seq.spc = .adcCheck := by
  decide
/-- R205. -/
theorem test_trigClear : (after .trigClear { scanAt .trigClear id with map1 := [(11, 0x01#8)] }).map1 = [] := by decide
/-- R206, V19: 4999 is not due, 5000 is, across the wrap. -/
theorem test_adcCheck_early :
    (after .adcCheck (scanAt .adcCheck fun q => { q with ms := 0x387#32, lastSample := 0xFFFFF000#32 })).seq.spc = .gpioRefresh := by
  decide
theorem test_adcCheck_due :
    (after .adcCheck (scanAt .adcCheck fun q => { q with ms := 0x388#32, lastSample := 0xFFFFF000#32 })).obs.trace = [.adcReq] := by
  decide
/-- R207. -/
theorem test_adcWait : (after (.adcWait 560#16) (scanAt .adcWait id)).seq.adcV = 0x0230#16 := by decide
/-- R208, V31: 0x03FF is stored FF, 03. -/
theorem test_adcStore : (after (.adcStore 0#8) (scanAt .adcStore fun q => { q with adcV := 0x03FF#16 })).map1 = [(12, 0xFF#8)] ∧
    (after (.adcStore 0#8) (scanAt .adcStore fun q => { q with adcV := 0x03FF#16 })).seq.pend = [1] := by decide
theorem test_adcStore_high :
    (after (.adcStore 0#8) (scanAt .adcStore fun q => { q with adcV := 0x03FF#16, pend := [1] })).map1 = [(13, 0x03#8)] := by decide
/-- R10, R127: 0x0231 in two bytes is 31, 02, and reads back. -/
theorem test_memWrite : (memWrite (start cfg) .primary 12 2 0x0231 (by decide)).map1 = [(12, 0x31#8), (13, 0x02#8)] ∧
    memRead (memWrite (start cfgTwo) .secondary 30 2 0x0231 (by decide)) .secondary 30 2 (by decide) = 0x0231 := by decide
/-- R209, R210, V14, V15. -/
theorem test_battEval_560 : (after .battEval (scanAt .battEval fun q => { q with adcV := 560#16 })).seq.hyst = 9 ∧
    (after .battEval (scanAt .battEval fun q => { q with adcV := 560#16 })).map1 = [(14, 0x10#8)] := by decide
theorem test_battEval_561 : (after .battEval (scanAt .battEval fun q => { q with adcV := 561#16, hyst := 3 })).seq.hyst = 10 ∧
    (after .battEval (scanAt .battEval fun q => { q with adcV := 561#16, hyst := 3 })).map1 = [] := by decide
/-- R212, V22: charge and radio, with the battery flag kept. -/
theorem test_gpioRefresh :
    (after .gpioRefresh
      { scanAt .gpioRefresh (fun q => { q with inState := 0x10#8 }) with env := { Env.reset with pins := ⟨true, false, true, false⟩ } }).map1 =
      [(14, 0x15#8)] := by decide
/-- R213. -/
theorem test_shdnLoad : (after .shdnLoad { scanAt .shdnLoad id with map1 := [(31, 0xFE#8)] }).seq.t31 = 0xFE#8 := by decide
/-- R214, V18, V32. -/
theorem test_shdnAct_sentinel :
    (after .shdnAct { scanAt .shdnAct (fun q => { q with t31 := 0xFF#8, hyst := 3 }) with map1 := [(31, 0xFF#8)] }).powerEn = false ∧
    (after .shdnAct { scanAt .shdnAct (fun q => { q with t31 := 0xFF#8, hyst := 3 }) with map1 := [(31, 0xFF#8)] }).map1 = [] := by decide
theorem test_shdnAct_other :
    (after .shdnAct { scanAt .shdnAct (fun q => { q with t31 := 0xFE#8 }) with map1 := [(31, 0xFE#8)] }).map1 = [(31, 0xFE#8)] := by decide

/-! ## Single steps: the environment and the host -/

/-- R217, V19. -/
theorem test_tick_wraps : (after .tick (scanAt .msPublish fun q => { q with ms := 0xFFFFFFFF#32 })).seq.ms = 0#32 := by decide
/-- R220, V30. -/
theorem test_powerLoss_held : exec .powerLoss (start cfg) = .refused .supplyHeld := by rfl
theorem test_powerLoss : (after .powerLoss { start cfg with powerEn := false }).powered = false := by decide
/-- R300, V30. -/
theorem test_reset : after .reset { inBurst cfg 8#8 1 with map1 := [(8, 0xFF#8)], powered := false } = start cfg := by decide
/-- R242, V1, line 2. -/
theorem test_cmdSetLed : (after (.cmdSetLed 0xFF#8 0x00#8 0x80#8) (start cfg)).map1 = [(8, 0xFF#8), (10, 0x80#8), (11, 0x01#8)] ∧
    (after (.cmdSetLed 0xFF#8 0x00#8 0x80#8) (start cfg)).obs.trace = [.wrHook .primary 8#8 4] := by decide
/-- R243, V18, line 2. -/
theorem test_cmdShutdown : (after .cmdShutdown (start cfg)).map1 = [(31, 0xFF#8)] ∧
    (after .cmdShutdown (start cfg)).eng1.ptr = 32#8 ∧ (after .cmdShutdown (start cfg)).powerEn = true := by decide
/-- R241, program P2: two bytes from offset 12, the answer F4 01. -/
theorem test_cmdRead : (after (.cmdRead 12#8 2#8) { start cfg with map1 := [(12, 0xF4#8), (13, 0x01#8)] }).obs.busOut =
    [.ack .primary, .ack .primary, .ack .primary, .byte .primary 0xF4#8, .byte .primary 0x01#8] := by decide
/-- R247, V27. -/
theorem test_hostVbat : hostVbat cfg.host 560 = 3.609375 ∧ hostVbat cfg.host 512 = 3.3 := by
  norm_num [hostVbat, decimalValue, cfg]
/-- R245: offset 14 every 100 ms, offsets 12 to 13 every 5000 ms. -/
theorem test_daemonPolls : daemonPolls Config.machine.host = [(100, .cmdRead 14#8 1#8), (5000, .cmdRead 12#8 2#8)] := rfl

/-! ## Single steps: fetching -/

/-- Table words placed and run (log entry 22). -/
theorem test_fetch_battEval : ((start cfg).withFetchWord 8 7).seq.spc = .battEval ∧
    ∃ t, step ((start cfg).withFetchWord 8 7) = .next t ∧ t.seq.spc = .gpioRefresh := ⟨rfl, _, rfl, rfl⟩
/-- R98 form a: a write that is no command is its bus events. -/
theorem test_line_events : ∃ t, step (withEvent (start cfg) (.txn [0x12#8, 0x05#8, 0xAA#8])) = .next t ∧
    t.env.sched = [.addr 0x12#8, .rxByte 0x05#8, .rxByte 0xAA#8, .stop] ∧ t.map1 = [] ∧ t.eng1 = Engine.reset := ⟨_, rfl, rfl, rfl, rfl⟩
/-- A table word that is another device's address byte changes nothing in the block (R93). -/
theorem test_fetch_foreign : ∃ t, step ((start cfg).withFetchWord 8 0xA0) = .next t ∧ t.env.foreign = true ∧ t.eng1 = Engine.reset :=
  ⟨_, rfl, rfl, rfl⟩
theorem test_fetch_cmdShutdown : ∃ t, step ((start cfg).withFetchWord 24 0x121FFF) = .next t ∧ t.map1 = [(31, 0xFF#8)] :=
  ⟨_, rfl, rfl⟩
/-- R271, V24: at `ADC_WAIT` a turn without an answer changes nothing. -/
theorem test_fetch_adc_hang : ∃ t, step (withEvent (scanAt .adcWait id) (.seq 0#8)) = .next t ∧ t.seq = (scanAt .adcWait id).seq :=
  ⟨_, rfl, rfl⟩

/-! ## Witnesses: the hypotheses of every statement with hypotheses are met together -/

theorem witness_AddressMatchAddressesInstance : (start cfg).powered = true ∧ (start cfg).cfg.present .primary = true ∧
    activeInst (start cfg) = none := by decide
theorem witness_AddressMatch_active : (inBurst cfgTwo 5#8 1).powered = true ∧ (inBurst cfgTwo 5#8 1).cfg.present .secondary = true ∧
    activeInst (inBurst cfgTwo 5#8 1) = some .primary := by decide
theorem witness_RepeatedStartIsStopThenMatch : ((inBurst cfg 5#8 1).eng1.st = .idle ∨ (inBurst cfg 5#8 1).eng2.st = .idle) ∧
    ∃ u, exec .stop (inBurst cfg 5#8 1) = .next u := ⟨.inr rfl, _, rfl⟩
theorem witness_PointerByteSetsPointer : (onBus cfg .addressed .W 3#8).powered = true ∧
    activeInst (onBus cfg .addressed .W 3#8) = some .primary ∧ ((onBus cfg .addressed .W 3#8).eng .primary).st = .addressed ∧
    ((onBus cfg .addressed .W 3#8).eng .primary).dir = .W := by decide
/-- The last offset, the first past it, the last pointer, a read-only device; also for a run of bytes. -/
theorem witness_DataByteStoredAtPointer : ∀ s ∈ [onBus cfg .registerSelect .W 31#8, onBus cfg .writeBurst .W 32#8,
      onBus cfg .writeBurst .W 255#8, onBus cfgReadOnly .registerSelect .W 0#8],
    s.powered = true ∧ activeInst s = some .primary ∧ ((s.eng .primary).st = .registerSelect ∨ (s.eng .primary).st = .writeBurst) ∧
      (s.eng .primary).dir = .W := by decide
theorem witness_WriteBurstFillsContiguousOffsets : (onBus cfg .registerSelect .W 30#8).powered = true ∧
    activeInst (onBus cfg .registerSelect .W 30#8) = some .primary ∧
    ((onBus cfg .registerSelect .W 30#8).eng .primary).st = .registerSelect ∧
    ((onBus cfg .registerSelect .W 30#8).eng .primary).dir = .W := by decide
theorem witness_TriggerCommands_led : (onBus cfg .writeBurst .W 11#8).powered = true ∧
    activeInst (onBus cfg .writeBurst .W 11#8) = some .primary ∧ (onBus cfg .writeBurst .W 11#8).eng1.st = .writeBurst ∧
    (onBus cfg .writeBurst .W 11#8).eng1.dir = .W ∧ (onBus cfg .writeBurst .W 11#8).eng1.ptr = 11#8 ∧ (1#8 : Byte) ≠ 0x00#8 := by decide
theorem witness_TriggerCommands_shutdown : (onBus cfg .registerSelect .W 31#8).powered = true ∧
    activeInst (onBus cfg .registerSelect .W 31#8) = some .primary ∧ (onBus cfg .registerSelect .W 31#8).eng1.st = .registerSelect ∧
    (onBus cfg .registerSelect .W 31#8).eng1.dir = .W ∧ (onBus cfg .registerSelect .W 31#8).eng1.ptr = 31#8 := by decide
theorem witness_ByteRequestReturnsByteAtPointer : ∀ s ∈ [onBus cfg .addressed .R 31#8, onBus cfg .readBurst .R 32#8],
    s.powered = true ∧ activeInst s = some .primary ∧ ((s.eng .primary).st = .addressed ∨ (s.eng .primary).st = .readBurst) ∧
      (s.eng .primary).dir = .R := by decide
theorem witness_StopEndsTransaction : ∀ s ∈ [start cfg, inBurst cfg 5#8 1],
    s.powered = true ∧ (s.eng1.st = .idle ∨ s.eng2.st = .idle) := by decide
theorem witness_Stop_clauses : activeInst (start cfg) = none ∧ activeInst (inBurst cfg 5#8 1) = some .primary := by decide
theorem witness_RestartEndsActiveTransaction : (inBurst cfg 30#8 1).powered = true ∧
    (inBurst cfg 30#8 1).cfg.present .primary = true ∧ ((inBurst cfg 30#8 1).eng .primary).st ≠ .idle := by decide
/-- The range that ends at offset 31 and the one that ends before it. -/
theorem witness_HookReportsBurst : (start cfgHook).powered = true ∧ (start cfgHook).cfg.present .primary = true ∧
    HookShutsDown { start cfgHook with map1 := [(31, 0xFF#8)] } .primary 30#8 2 ∧
    ¬HookShutsDown { start cfgHook with map1 := [(31, 0xFF#8)] } .primary 30#8 1 := by decide
theorem witness_BusFaultIdlesEngine : (inBurst cfg 8#8 1).powered = true := rfl
theorem witness_BurstReadsBackAsWritten : (∀ i ∈ [Inst.primary, .secondary],
      (start cfgTwo).powered = true ∧ (start cfgTwo).cfg.present i = true ∧ readOnly (start cfgTwo).cfg i = false) ∧
    (31#8 : Byte).toNat + [0xAA#8].length ≤ 32 ∧ (0#8 : Byte).toNat + (List.replicate 32 0xAA#8).length ≤ 32 := by decide
theorem witness_ReadOnlyMapIsNotChangedByBus : isBusOp (.wdata 1#8) = true ∧
    readOnly (onBus cfgReadOnly .registerSelect .W 8#8).cfg .primary = true ∧
    ∃ t, exec (.wdata 1#8) (onBus cfgReadOnly .registerSelect .W 8#8) = .next t := ⟨rfl, rfl, _, rfl⟩
theorem witness_BusReadsChangeNoMapByte : (∃ t, exec .rdata (onBus cfg .addressed .R 0#8) = .next t) ∧
    ∃ t, exec (.cmdRead 0#8 2#8) (start cfg) = .next t := ⟨⟨_, rfl⟩, _, rfl⟩
theorem witness_Unenabled_rx : (onBus cfg .readBurst .R 0#8).cfg.valid = true ∧
    (withEvent (onBus cfg .readBurst .R 0#8) (.rxByte 1#8)).powered = true ∧
    (withEvent (onBus cfg .readBurst .R 0#8) (.rxByte 1#8)).env.foreign = false ∧
    activeInst (withEvent (onBus cfg .readBurst .R 0#8) (.rxByte 1#8)) = some .primary ∧
    nextEvent (withEvent (onBus cfg .readBurst .R 0#8) (.rxByte 1#8)) = .rxByte 1#8 ∧
    ((withEvent (onBus cfg .readBurst .R 0#8) (.rxByte 1#8)).eng .primary).dir = .R := by decide
theorem witness_Unenabled_tx : (withEvent (onBus cfg .addressed .W 0#8) .txReq).env.foreign = false ∧
    activeInst (withEvent (onBus cfg .addressed .W 0#8) .txReq) = some .primary ∧
    nextEvent (withEvent (onBus cfg .addressed .W 0#8) .txReq) = .txReq ∧
    ((withEvent (onBus cfg .addressed .W 0#8) .txReq).eng .primary).dir = .W := by decide
theorem witness_EventsWhileIdleAreIgnored : ∀ e ∈ [Event.rxByte 1#8, .txReq, .stop],
    (withEvent (start cfg) e).cfg.valid = true ∧ (withEvent (start cfg) e).powered = true ∧
      activeInst (withEvent (start cfg) e) = none ∧
      (nextEvent (withEvent (start cfg) e) = .rxByte 1#8 ∨ nextEvent (withEvent (start cfg) e) = .txReq ∨
        nextEvent (withEvent (start cfg) e) = .stop) := by decide
/-- V28: address 0x50. -/
theorem witness_Foreign_address : (withEvent (inBurst cfg 5#8 1) (.addr 0xA0#8)).cfg.valid = true ∧
    (withEvent (inBurst cfg 5#8 1) (.addr 0xA0#8)).powered = true ∧
    nextEvent (withEvent (inBurst cfg 5#8 1) (.addr 0xA0#8)) = .addr 0xA0#8 ∧
    (0xA0#8 : Byte).extractLsb' 1 7 ≠ cfg.addr1 ∧ (cfg.hasSecondary = true → (0xA0#8 : Byte).extractLsb' 1 7 ≠ cfg.addr2) := by decide
theorem witness_Foreign_bytes : (withEvent { inBurst cfg 5#8 1 with env := { Env.reset with foreign := true } } .txReq).env.foreign = true ∧
    nextEvent (withEvent { inBurst cfg 5#8 1 with env := { Env.reset with foreign := true } } .txReq) = .txReq := by decide
theorem witness_LedStartArmsOrIsRejected : (start cfg).led.busy = false ∧ (ledAt .shift [true]).led.busy = true ∧
    (start cfg).powered = true ∧ (0 : Nat) ≠ 1 ∧ (2 : Nat) ≠ 1 := by decide
theorem witness_LedFetchQueuesFrame : (ledAt .armed []).powered = true ∧ (ledAt .armed []).led.st = .armed := by decide
theorem witness_LedBitEmitsHead : (ledAt .shift [true, false]).powered = true ∧ (ledAt .shift [true, false]).led.st = .shift ∧
    (ledAt .shift [true, false]).led.q = true :: [false] := by decide
theorem witness_LedDoneEndsFrame : (ledAt .shift []).powered = true ∧ (ledAt .shift []).led.st = .shift ∧ (ledAt .shift []).led.q = [] ∧
    ¬(ledAt .shift []).led.idx + 1 < (ledAt .shift []).cfg.nLeds := by decide
/-- The other clause speaks of more LEDs than R8 allows. -/
theorem witness_LedDone_next : { ledAt .shift [] with cfg := { cfg with nLeds := 2 } }.led.idx + 1 < 2 := by decide
theorem witness_TransmissionEmitsFrame : (ledAt .armed []).cfg.nLeds = 1 ∧ (ledAt .armed []).powered = true ∧
    (ledAt .armed []).led.st = .armed ∧ (ledAt .armed []).led.idx = 0 := by decide
theorem witness_TransmissionStartsOnlyByTrigger :
    ∃ t, step (withEvent (scanAt .trigAct fun q => { q with t11 := 1#8 }) (.seq 0#8)) = .next t ∧ t.led.st ≠ .idle :=
  ⟨_, rfl, by decide⟩
theorem witness_CounterSnapshotTaken : (scanAt .msPublish id).powered = true ∧ (scanAt .msPublish id).seq.spc = .msPublish ∧
    (scanAt .msPublish id).seq.pend = [] := by decide
theorem witness_CounterByteStored : ∀ s ∈ [scanAt .msPublish fun q => { q with pend := [0, 1, 2, 3] },
      scanAt .msPublish fun q => { q with pend := [3] }],
    s.powered = true ∧ s.seq.spc = .msPublish ∧ s.seq.pend ≠ [] ∧ s.seq.pend.Sublist [0, 1, 2, 3] := by decide
theorem witness_TriggerBytesLatched : (scanAt .trigLoad id).powered = true ∧ (scanAt .trigLoad id).seq.spc = .trigLoad ∧
    (scanAt .shdnLoad id).seq.spc = .shdnLoad := by decide
theorem witness_TriggerStartsOrDefers : (scanAt .trigAct fun q => { q with t11 := 7#8 }).powered = true ∧
    (scanAt .trigAct fun q => { q with t11 := 7#8 }).seq.spc = .trigAct ∧
    (scanAt .trigAct fun q => { q with t11 := 7#8 }).seq.t11 ≠ 0x00#8 ∧
    (scanAt .trigAct fun q => { q with t11 := 7#8 }).led.busy = false ∧ (scanAt .trigAct id).seq.t11 = 0x00#8 := by decide
/-- `TRIG_CLEAR`, `ADC_WAIT`, `BATT_EVAL`, `GPIO_REFRESH`, `SHDN_ACT`: the step is all they ask for. -/
theorem witness_at_a_step : ∀ p ∈ [SeqStep.trigClear, .adcWait, .battEval, .gpioRefresh, .shdnAct],
    (scanAt p id).powered = true ∧ (scanAt p id).seq.spc = p := by decide
/-- V19: both sides of the interval. -/
theorem witness_SampleRequestedWhenDue : (scanAt .adcCheck id).powered = true ∧ (scanAt .adcCheck id).seq.spc = .adcCheck ∧
    cfg.sampleInterval.toNat ≤ ((0x388#32 : Word).toNat + 2 ^ 32 - (0xFFFFF000#32 : Word).toNat) % 2 ^ 32 ∧
    ¬cfg.sampleInterval.toNat ≤ ((0x387#32 : Word).toNat + 2 ^ 32 - (0xFFFFF000#32 : Word).toNat) % 2 ^ 32 := by decide
theorem witness_SampleByteStored : ∀ s ∈ [scanAt .adcStore id, scanAt .adcStore fun q => { q with pend := [1] }],
    s.powered = true ∧ s.seq.spc = .adcStore ∧ s.seq.pend.Sublist [0, 1] ∧
      0 < (if s.seq.pend = [] then [0, 1] else s.seq.pend).length := by decide
/-- Both operands' choices are taken: `pick` 0 stores byte 0 first, `pick` 1 byte 1. -/
theorem witness_SampleByteStored_orders : (after (.adcStore 0#8) (scanAt .adcStore id)).seq.pend = [1] ∧
    (after (.adcStore 1#8) (scanAt .adcStore id)).seq.pend = [0] := by decide
theorem witness_SentinelDropsRail : (scanAt .shdnAct fun q => { q with t31 := 0xFF#8 }).seq.t31 = 0xFF#8 ∧
    (scanAt .shdnAct fun q => { q with t31 := 0xFE#8 }).seq.t31 ≠ 0xFF#8 := by decide
theorem witness_LowRunDropsRailExactlyOnce : (start cfg).powered = true ∧ (start cfg).powerEn = true ∧ 1 ≤ (start cfg).cfg.hystInit ∧
    (start cfg).seq.hyst = (start cfg).cfg.hystInit ∧
    ∀ v ∈ List.replicate 12 (560#16 : Half), v.toNat ≤ (start cfg).cfg.adcLowThreshold.toNat :=
  ⟨rfl, rfl, by decide, rfl, fun _ hv => List.eq_of_mem_replicate hv ▸ Nat.le_refl 560⟩

/-- Idle engine registers. -/
theorem engine_reset_ok : EngineOk false Engine.reset := ⟨by decide, by decide, by decide, by decide, by decide⟩

/-- An idle serializer. -/
theorem serializer_reset_ok : SerializerOk cfg Serializer.reset := ⟨by decide, by decide, by decide, by decide, by decide⟩

/-- Nothing stored. -/
theorem wf_nothing (i : Inst) : Memory.wf (resetByte cfg i) [] := ⟨List.Pairwise.nil, fun _ hc => absurd hc List.not_mem_nil⟩

/-- A state that differs from the start in the sequencer, power-enable, map and environment meets the invariant when its sequencer does. -/
theorem inv_scan {q : Sequencer} {p : Bool} {m : Memory} {e : Env} {o : Obs} (h : SequencerOk cfg q) (hr : q.hyst = 0 → p = false)
    (hm : Memory.wf (resetByte cfg .primary) m) :
    BlockInv { start cfg with seq := q, powerEn := p, map1 := m, env := e, obs := o } :=
  { valid := rfl
    map1 := hm
    map2 := wf_nothing .secondary
    oneActive := .inl rfl
    absent := fun _ => ⟨rfl, rfl⟩
    eng1 := engine_reset_ok
    eng2 := engine_reset_ok
    led := serializer_reset_ok
    seq := h
    railDown := hr }

/-- The sequencer about to classify a sample. -/
def evalSeq (v : Half) (n : Nat) : Sequencer := { Sequencer.reset cfg with spc := .battEval, adcV := v, hyst := n }

theorem evalSeq_ok (v : Half) (n : Nat) (h : n ≤ 10) : SequencerOk cfg (evalSeq v n) :=
  ⟨h, List.nil_sublist _, fun hc => absurd rfl hc, fun _ => List.nil_sublist _, by simp [evalSeq, Sequencer.reset],
    by simp [evalSeq, Sequencer.reset]⟩

/-- R218: a normal sample, a low one above the last, the last low one, and one after shutdown. -/
theorem witness_SupervisorFollowsSample : ∀ x ∈ [((561#16 : Half), 10, true), (560#16, 10, true), (560#16, 1, true), (560#16, 0, false)],
    BlockInv { start cfg with seq := evalSeq x.1 x.2.1, powerEn := x.2.2 } ∧
      ∃ t, exec .battEval { start cfg with seq := evalSeq x.1 x.2.1, powerEn := x.2.2 } = .next t := by
  intro x hx
  have hb : x.2.1 ≤ 10 ∧ (x.2.1 = 0 → x.2.2 = false) := by
    revert x
    decide
  exact ⟨inv_scan (evalSeq_ok _ _ hb.1) hb.2 (wf_nothing .primary), _, rfl⟩
theorem witness_Supervisor_clauses : supervisorOf { start cfg with seq := evalSeq 560#16 0, powerEn := false } = .shutdown ∧
    supervisorOf { start cfg with seq := evalSeq 560#16 1 } ≠ .shutdown ∧ (560#16 : Half).toNat ≤ cfg.adcLowThreshold.toNat ∧
    cfg.adcLowThreshold.toNat < (561#16 : Half).toNat := by decide
theorem witness_ConversionHangHoldsSequencer : ∀ e ∈ [Event.tick, .seq 0#8, .stop],
    (withEvent (scanAt .adcWait id) e).powered = true ∧ (withEvent (scanAt .adcWait id) e).seq.spc = .adcWait ∧
      nextEvent (withEvent (scanAt .adcWait id) e) ≠ .reset := by decide
theorem witness_ConversionHang_steps : ∃ t, step (withEvent (scanAt .adcWait id) .tick) = .next t ∧
    ∀ v, nextEvent (withEvent (scanAt .adcWait id) .tick) ≠ .adcDone v := ⟨_, rfl, fun _ => Event.noConfusion⟩
theorem witness_TickAdvancesCounter : (scanAt .msPublish fun q => { q with ms := 0xFFFFFFFF#32 }).powered = true := rfl
theorem witness_SupplyLostOnlyAfterRailDown : { start cfg with powerEn := false }.powered = true ∧
    { start cfg with powerEn := false }.powerEn = false ∧ (start cfg).powerEn = true := by decide
/-- The host commands, from an idle engine and from an open burst. -/
theorem witness_commands : (start cfg).powered = true ∧ (start cfg).cfg.ro1 = false ∧ activeInst (start cfg) = none ∧
    (inBurst cfg 5#8 1).powered = true ∧ (inBurst cfg 5#8 1).cfg.ro1 = false := by decide
theorem witness_UnpoweredBlockHasNoStep : (withEvent { start cfg with powered := false } .tick).cfg.valid = true ∧
    (withEvent { start cfg with powered := false } .tick).powered = false ∧
    nextEvent (withEvent { start cfg with powered := false } .tick) ≠ .reset ∧
    nextEvent (withEvent { start cfg with powered := false } .reset) = .reset ∧ Instr.tick ≠ .reset := by decide
theorem witness_PowerEnableRisesOnlyByReset : (withEvent { start cfg with powerEn := false } .reset).powerEn = false ∧
    ∃ t, step (withEvent { start cfg with powerEn := false } .reset) = .next t ∧ t.powerEn = true := ⟨rfl, _, rfl, rfl⟩
/-- The three ways down. -/
theorem witness_PowerEnableFalls_count : 1 ≤ cfg.hystInit ∧
    ∃ t, exec .battEval { start cfg with seq := evalSeq 560#16 1 } = .next t ∧ (start cfg).powerEn = true ∧ t.powerEn = false :=
  ⟨by decide, _, rfl, rfl, rfl⟩
theorem witness_PowerEnableFalls_sentinel :
    ∃ t, exec .shdnAct (scanAt .shdnAct fun q => { q with t31 := 0xFF#8 }) = .next t ∧ t.powerEn = false := ⟨_, rfl, rfl⟩
theorem witness_PowerEnableFalls_hook : ∃ t, exec .cmdShutdown (start cfgHook) = .next t ∧ t.powerEn = false := ⟨_, rfl, rfl⟩
theorem witness_StoresStayInTheirRoles :
    BlockInv { start cfg with seq := evalSeq 560#16 10 } ∧
      ∃ t, exec .battEval { start cfg with seq := evalSeq 560#16 10 } = .next t ∧
        readByte t .primary 14 ≠ readByte { start cfg with seq := evalSeq 560#16 10 } .primary 14 :=
  ⟨inv_scan (evalSeq_ok _ _ (by decide)) (fun h => absurd h (by decide)) (wf_nothing .primary), _, rfl,
    by decide⟩
theorem witness_ConfigurationNeverChanges : ∃ t, step (withEvent (start cfg) .tick) = .next t := ⟨_, rfl⟩
theorem witness_BadConfigurationIsRefused :
    ({ cfgTwo with addr2 := 0x09#7 }.hasSecondary = true ∧ { cfgTwo with addr2 := 0x09#7 }.addr2 = { cfgTwo with addr2 := 0x09#7 }.addr1) ∧
      { cfg with hystInit := 0 }.hystInit = 0 ∧ { cfg with nLeds := 2 }.nLeds ≠ 1 := by decide
theorem witness_OperationsStop_scan : (start cfg).powered = true ∧
    (∀ p ∈ [SeqStep.trigLoad, .trigAct, .trigClear, .adcCheck, .adcStore, .battEval, .gpioRefresh, .shdnLoad, .shdnAct],
      (stepInstr p 0#8).isSome = true ∧ (start cfg).seq.spc ≠ p) ∧
    stepInstr .msPublish 0#8 = some (.msPublish 0#8) ∧ (scanAt .trigLoad id).seq.spc ≠ .msPublish ∧
    (start cfg).seq.spc ≠ .adcWait := by decide
theorem witness_OperationsStop_led : (start cfg).led.st ≠ .armed ∧
    ¬((ledAt .shift []).led.st = .shift ∧ (ledAt .shift []).led.q ≠ []) ∧
    ¬((ledAt .shift [true]).led.st = .shift ∧ (ledAt .shift [true]).led.q = []) := by decide
/-- Nothing active; a direction, a state and a pointer that do not fit; the other instance active; a zero trigger byte. -/
theorem witness_OperationsStop_bus : (∀ s ∈ [start cfg, onBus cfg .registerSelect .W 11#8], ∀ i,
      activeInst s = some i → ¬((s.eng i).st = .addressed ∧ (s.eng i).dir = .W)) ∧
    (∀ s ∈ [start cfg, onBus cfg .addressed .W 0#8, onBus cfg .addressed .R 0#8], ∀ i,
      activeInst s = some i → ¬(((s.eng i).st = .registerSelect ∨ (s.eng i).st = .writeBurst) ∧ (s.eng i).dir = .W)) ∧
    (∀ s ∈ [start cfg, onBus cfg .addressed .W 0#8], ∀ i,
      activeInst s = some i → ¬(((s.eng i).st = .addressed ∨ (s.eng i).st = .readBurst) ∧ (s.eng i).dir = .R)) := by
  refine ⟨?_, ?_, ?_⟩ <;> intro s hs i <;> cases i <;> revert s <;> decide
theorem witness_OperationsStop_others : (start cfg).cfg.present .primary = true ∧ ((start cfg).eng .primary).st = .idle ∧
    (onBus cfg .registerSelect .W 10#8).eng1.ptr ≠ 11#8 ∧ (onBus cfg .registerSelect .W 30#8).eng1.ptr ≠ 31#8 ∧
    (start cfg).cfg.hasSecondary = false := by decide

/-- The start meets the invariant, whatever the environment. -/
theorem inv_start (e : Env) : BlockInv { start cfg with env := e } :=
  inv_scan ⟨by decide, by decide, fun hc => absurd rfl hc, fun _ => by decide, by decide, by decide⟩ (fun h => absurd h (by decide))
    (wf_nothing .primary)

theorem witness_StepRefuses_supply : BlockInv (withEvent (start cfg) .powerLoss) ∧
    step (withEvent (start cfg) .powerLoss) = .refused .supplyHeld := ⟨inv_start _, rfl⟩
/-- A byte received in read direction. -/
theorem witness_StepRefuses_event : BlockInv (withEvent (onBus cfg .addressed .R 0#8) (.rxByte 1#8)) ∧
    step (withEvent (onBus cfg .addressed .R 0#8) (.rxByte 1#8)) = .refused .unenabledEvent := by
  have h := inv_start (withEvent (start cfg) (.rxByte 1#8)).env
  exact ⟨⟨h.valid, h.map1, h.map2, .inr rfl, h.absent, ⟨by decide, by decide, by decide, by decide, by decide⟩, h.eng2, h.led, h.seq,
    h.railDown⟩, rfl⟩
theorem witness_StepKeepsInvariant : BlockInv (withEvent (start cfg) .tick) ∧ ∃ t, step (withEvent (start cfg) .tick) = .next t :=
  ⟨inv_start _, _, rfl⟩
theorem witness_DecodeOfEncodeIsIdentity : cfgTwo.valid = true ∧ (Instr.addrR .secondary).wf cfgTwo = true ∧
    (Instr.wrhook .primary 31#8 32).wf cfg = true := by decide
theorem witness_StepRunsDecodedOperation : (withEvent (start cfg) (.addr 0x12#8)).cfg.valid = true ∧
    (withEvent (start cfg) (.addr 0x12#8)).powered = true ∧
    select (withEvent (start cfg) (.addr 0x12#8)) (nextEvent (withEvent (start cfg) (.addr 0x12#8))) = .op ⟨.A, [0x12#8]⟩ ∧
    decode cfg ⟨.A, [0x12#8]⟩ = .ok (.addrW .primary) := ⟨rfl, rfl, rfl, rfl⟩
/-- Lines that are no command: a write, a bare pointer, the second device's, another device's, none at all. -/
theorem witness_Steps_line : ∀ bs ∈ [[0x12#8, 0x05#8, 0xAA#8], [0x12#8, 0x05#8], [0x14#8, 0x00#8, 0x01#8], [0xA0#8, 0x01#8], ([] : List Byte)],
    nextEvent (withEvent (start cfgTwo) (.txn bs)) = .txn bs ∧
      decode (withEvent (start cfgTwo) (.txn bs)).cfg ⟨.TXN, bs⟩ = .error .noSuchCommand := by
  intro bs hb
  simp only [List.mem_cons, List.not_mem_nil, or_false] at hb
  rcases hb with rfl | rfl | rfl | rfl | rfl <;> exact ⟨rfl, rfl⟩
/-- Each event of the selected-by column in a state that enables it. -/
theorem witness_Steps_address : ∀ x ∈ [(Inst.primary, 0x12#8), (.primary, 0x13#8), (.secondary, 0x14#8), (.secondary, (0x15#8 : Byte))],
    nextEvent (withEvent (start cfgTwo) (.addr x.2)) = .addr x.2 ∧ cfgTwo.present x.1 = true ∧
      x.2.extractLsb' 1 7 = cfgTwo.addr x.1 := by decide
theorem witness_Steps_rx : ∀ st ∈ [EngSt.addressed, .registerSelect, .writeBurst], ∀ ptr ∈ [(0#8 : Byte), 11#8, 31#8, 255#8],
    nextEvent (withEvent (onBus cfg st .W ptr) (.rxByte 0xFF#8)) = .rxByte 0xFF#8 ∧
      (withEvent (onBus cfg st .W ptr) (.rxByte 0xFF#8)).env.foreign = false ∧
      activeInst (withEvent (onBus cfg st .W ptr) (.rxByte 0xFF#8)) = some .primary ∧
      ((withEvent (onBus cfg st .W ptr) (.rxByte 0xFF#8)).eng .primary).st = st ∧
      ((withEvent (onBus cfg st .W ptr) (.rxByte 0xFF#8)).eng .primary).dir = .W := by decide
theorem witness_Steps_tx : ∀ st ∈ [EngSt.addressed, .readBurst], nextEvent (withEvent (onBus cfg st .R 0#8) .txReq) = .txReq ∧
    (withEvent (onBus cfg st .R 0#8) .txReq).env.foreign = false ∧
    activeInst (withEvent (onBus cfg st .R 0#8) .txReq) = some .primary ∧
    ((withEvent (onBus cfg st .R 0#8) .txReq).eng .primary).dir = .R := by decide
theorem witness_Steps_seq : ∀ p ∈ [SeqStep.msPublish, .trigLoad, .trigAct, .trigClear, .adcCheck, .adcWait, .adcStore, .battEval,
      .gpioRefresh, .shdnLoad, .shdnAct],
    nextEvent (withEvent (scanAt p id) (.seq 3#8)) = .seq 3#8 ∧ (withEvent (scanAt p id) (.seq 3#8)).seq.spc = p ∧
      ((stepInstr p 3#8).isSome = true ∨ p = .adcWait) ∧
      nextEvent (withEvent (scanAt p id) (.adcDone 560#16)) = .adcDone 560#16 := by decide
theorem witness_Steps_ser : ∀ x ∈ [(LedSt.armed, []), (.shift, [true]), (.shift, []), (.idle, [])],
    nextEvent (withEvent (ledAt x.1 x.2) .ser) = .ser ∧ (withEvent (ledAt x.1 x.2) .ser).led.st = x.1 ∧
      (withEvent (ledAt x.1 x.2) .ser).led.q = x.2 := by decide
theorem witness_Steps_events : ∀ e ∈ [Event.stop, .busErr, .arbLost, .tick, .powerLoss, .reset, .pin ⟨true, false, true, false⟩,
      .txn [0x12#8, 0x08#8, 1#8, 2#8, 3#8, 0x01#8], .txn [0x12#8, 0x1F#8, 0xFF#8], .txn [0x12#8, 0x00#8],
      .txn [0x12#8, 0x0C#8, 0x13#8, 2#8]],
    nextEvent (withEvent (start cfg) e) = e ∧ addrByte cfg .primary .W = 0x12#8 ∧ addrByte cfg .primary .R = 0x13#8 := by decide

end Sys2Proof.Tests
end

/-! # Proofs: the scope (00_scope.md) -/

namespace Sys2Proof

/-- The constraints of R8, one proposition each. -/
theorem Config.valid_iff {c : Config} :
    c.valid = true ↔ (c.hasSecondary = true → c.addr2 ≠ c.addr1) ∧ 1 ≤ c.hystInit ∧ c.nLeds = 1 := by
  simp [Config.valid, imp_iff_not_or, and_assoc]

namespace Machine

theorem fetch_of_not_valid {s : State} (h : ¬ s.cfg.valid = true) : fetch s = .stop .badConfig :=
  if_neg h

theorem step_of_not_valid {s : State} (h : ¬ s.cfg.valid = true) : step s = .refused .badConfig := by
  rw [step, fetch_of_not_valid h]

/-- Settles O53: each disjunct breaks one conjunct of `Config.valid_iff`, and `fetch` stops on a configuration that is not valid. -/
theorem badConfigurationIsRefused : Obligations.BadConfigurationIsRefused := by
  intro s hbad
  apply step_of_not_valid
  intro hvalid
  obtain ⟨haddr, hhyst, hleds⟩ := Config.valid_iff.mp hvalid
  rcases hbad with ⟨hsec, heq⟩ | hzero | hcount
  · exact haddr hsec heq
  · omega
  · exact hcount hleds

end Machine
end Sys2Proof

/-! # Proofs: the state (10_state.md) -/

namespace Sys2Proof.Machine

/-! ## Reset values and the invariant's base case (R46) -/

/-- After reset the maps list nothing, so every offset reads as its reset contents. -/
theorem readByte_resetWith (c : Config) (env : Env) (obs : Obs) (i : Inst) (k : Nat) :
    readByte (State.resetWith c env obs) i k = resetByte c i k := by
  cases i <;> rfl

theorem resetByte_primary_of_not_uid (c : Config) {k : Nat} (hk : ¬(16 ≤ k ∧ k < 28)) : resetByte c .primary k = 0#8 :=
  dif_neg hk

theorem resetByte_primary_uid (c : Config) {j : Nat} (hj : j < 12) : resetByte c .primary (16 + j) = c.uid[j] := by
  simp [resetByte, show 16 + j < 28 by omega]

theorem hasResetValues_resetWith (c : Config) (env : Env) (obs : Obs) : HasResetValues (State.resetWith c env obs) where
  mapPrimary k _ hk := by rw [readByte_resetWith, resetByte_primary_of_not_uid c hk]
  mapUid j hj := by rw [readByte_resetWith, resetByte_primary_uid c hj]; rfl
  mapSecondary k _ := readByte_resetWith c env obs .secondary k
  engines i := by cases i <;> exact ⟨rfl, rfl, rfl, rfl, rfl⟩
  led := ⟨rfl, rfl, rfl, rfl, rfl⟩
  spc := ⟨rfl, rfl⟩
  counters := ⟨rfl, rfl, rfl⟩
  hyst := rfl
  latches := ⟨rfl, rfl, rfl, rfl, rfl⟩
  power := ⟨rfl, rfl⟩

/-- Settles O43: the start state is `State.resetWith` of this hardware's configuration, whose count is 10. -/
theorem startStateHasResetValues : Obligations.StartStateHasResetValues :=
  ⟨hasResetValues_resetWith .., rfl⟩

theorem engineOk_reset (ro : Bool) : EngineOk ro Engine.reset := by
  constructor <;> simp [Engine.reset]

theorem serializerOk_reset (c : Config) : SerializerOk c Serializer.reset := by
  constructor <;> simp [Serializer.reset]

theorem sequencerOk_reset (c : Config) : SequencerOk c (Sequencer.reset c) := by
  constructor <;> simp [Sequencer.reset]

/-- Under every configuration that has a meaning (R8); a count of at least 1 is what keeps `railDown` true with the rail up. -/
theorem blockInv_resetWith {c : Config} (hc : c.valid = true) (env : Env) (obs : Obs) : BlockInv (State.resetWith c env obs) where
  valid := hc
  map1 := Memory.wf_nil _
  map2 := Memory.wf_nil _
  oneActive := .inl rfl
  absent _ := ⟨rfl, rfl⟩
  eng1 := engineOk_reset _
  eng2 := engineOk_reset _
  led := serializerOk_reset c
  seq := sequencerOk_reset c
  railDown hzero := by
    obtain ⟨-, hhyst, -⟩ := Config.valid_iff.mp hc
    have hzero : c.hystInit = 0 := hzero
    omega

/-- Settles O57: the reset values meet the invariant under every valid configuration, and this hardware's is one. -/
theorem resetMeetsInvariant : Obligations.ResetMeetsInvariant :=
  blockInv_resetWith rfl Env.reset Obs.reset

/-! ## Without supply (R42) -/

theorem whenEnabled_of_unpowered {s : State} (hs : s.powered = false) (e : Bool) (t : State) :
    whenEnabled s e t = .refused .unpowered := by
  simp [whenEnabled, hs]

/-- An outcome that is a refusal already, or is left to `whenEnabled` and so to the supply. -/
def RefusedOrGated (s : State) (o : Host.Outcome State Fault Refusal) : Prop :=
  (∃ r, o = .refused r) ∨ ∃ e t, o = whenEnabled s e t

theorem refusedOrGated_whenEnabled (s : State) (e : Bool) (t : State) : RefusedOrGated s (whenEnabled s e t) :=
  .inr ⟨e, t, rfl⟩

theorem refusedOrGated_onActive (s : State) (ok : Engine → Bool) (op : Inst → State) : RefusedOrGated s (onActive s ok op) := by
  unfold onActive
  split
  · exact refusedOrGated_whenEnabled ..
  · exact refusedOrGated_whenEnabled ..

theorem refusedOrGated_ite (s : State) (p : Prop) [Decidable p] (e : Bool) (t : State) (r : Refusal) :
    RefusedOrGated s (if p then whenEnabled s e t else .refused r) := by
  split
  · exact refusedOrGated_whenEnabled ..
  · exact .inl ⟨r, rfl⟩

theorem refusedOrGated_ite_refused (s : State) (p : Prop) [Decidable p] (e : Bool) (t : State) (r : Refusal) :
    RefusedOrGated s (if p then .refused r else whenEnabled s e t) := by
  split
  · exact .inl ⟨r, rfl⟩
  · exact refusedOrGated_whenEnabled ..

/-- `RESET` is the one operation that does not ask for the supply. -/
theorem exec_refusedOrGated {i : Instr} (hi : i ≠ .reset) (s : State) : RefusedOrGated s (exec i s) := by
  cases i with
  | reset => exact absurd rfl hi
  | addrW _ | addrR _ | restart _ | wrhook _ _ _ | ledStart _ => exact refusedOrGated_ite ..
  | powerLoss => exact refusedOrGated_ite_refused ..
  | regsel _ | wdata _ | rdata => exact refusedOrGated_onActive ..
  | _ => exact refusedOrGated_whenEnabled ..

theorem exec_refused_of_unpowered {i : Instr} (hi : i ≠ .reset) {s : State} (hs : s.powered = false) :
    ∃ r, exec i s = .refused r := by
  rcases exec_refusedOrGated hi s with hr | ⟨e, t, he⟩
  · exact hr
  · exact ⟨.unpowered, he.trans (whenEnabled_of_unpowered hs e t)⟩

theorem selectUnpowered_of_ne_reset (s : State) {e : Event} (he : e ≠ .reset) :
    selectUnpowered s e = .none ∨ ∃ p, selectUnpowered s e = .pins p := by
  cases e with
  | reset => exact absurd rfl he
  | pin p => exact .inr ⟨p, rfl⟩
  | _ => exact .inl rfl

theorem fetch_of_unpowered {s : State} (hs : s.powered = false) (hv : s.cfg.valid = true) (he : nextEvent s ≠ .reset) :
    ∃ t, fetch s = .idle t := by
  rcases selectUnpowered_of_ne_reset s he with hn | ⟨p, hp⟩
  · exact ⟨advance s, by simp [fetch, hv, hs, hn]⟩
  · exact ⟨setPins (advance s) p, by simp [fetch, hv, hs, hp]⟩

/-- R300: reset is fetched at any time, with supply or without. -/
theorem fetch_reset {s : State} (hv : s.cfg.valid = true) (he : nextEvent s = .reset) : fetch s = .run .reset := by
  have hsel : (if s.powered then select s .reset else selectUnpowered s .reset) = .op (encode s.cfg .reset) := by
    split <;> rfl
  have hdec : decode s.cfg (encode s.cfg .reset) = .ok .reset := rfl
  simp only [fetch, hv, he, hsel, hdec, if_true]

/-- Settles O48: without supply the fetch idles on every event but `RESET`, and only `RESET` passes without `whenEnabled`. -/
theorem unpoweredBlockHasNoStep : Obligations.UnpoweredBlockHasNoStep := by
  intro s hs
  refine ⟨fun hv he => ?_, fun hv he => ?_, fun i hi => exec_refused_of_unpowered hi hs⟩
  · obtain ⟨t, ht⟩ := fetch_of_unpowered hs hv he
    exact ⟨t, by rw [step, ht], (fetch_idle ht).2⟩
  · rw [step, fetch_reset hv he]

/-! ## Power-enable: what leaves it alone -/

@[simp] theorem gotoStep_powerEn (s : State) (p : SeqStep) : (gotoStep s p).powerEn = s.powerEn := rfl

@[simp] theorem consume_powerEn (s : State) (k : Fin mapBytes) : (consume s k).powerEn = s.powerEn := rfl

@[simp] theorem memWriteByte_powerEn (s : State) (i : Inst) (off n v j : Nat) (h : off + n ≤ mapBytes) :
    (memWriteByte s i off n v j h).powerEn = s.powerEn := by
  rw [memWriteByte_frame]

@[simp] theorem startLed_powerEn (s : State) : (startLed s).1.powerEn = s.powerEn := by
  unfold startLed
  split <;> rfl

@[simp] theorem selectRegister_powerEn (s : State) (i : Inst) (b : Byte) : (selectRegister s i b).powerEn = s.powerEn := by
  simp [selectRegister]

@[simp] theorem receiveData_powerEn (s : State) (i : Inst) (b : Byte) : (receiveData s i b).powerEn = s.powerEn := by
  obtain ⟨-, -, -, -, hframe⟩ := receiveData_spec s i b
  rw [hframe]

@[simp] theorem sendData_powerEn (s : State) (i : Inst) : (sendData s i).powerEn = s.powerEn := by
  simp [sendData]

@[simp] theorem sendData_cfg (s : State) (i : Inst) : (sendData s i).cfg = s.cfg := by
  simp [sendData]

@[simp] theorem sendMany_powerEn (i : Inst) (m : Nat) (s : State) : (sendMany i m s).powerEn = s.powerEn := by
  induction m generalizing s with
  | zero => rfl
  | succ m ih => rw [sendMany, ih, sendData_powerEn]

@[simp] theorem sendMany_cfg (i : Inst) (m : Nat) (s : State) : (sendMany i m s).cfg = s.cfg := by
  induction m generalizing s with
  | zero => rfl
  | succ m ih => rw [sendMany, ih, sendData_cfg]

@[simp] theorem raiseBusFault_powerEn (s : State) (kind : FaultKind) : (raiseBusFault s kind).powerEn = s.powerEn := rfl

@[simp] theorem advance_powerEn (s : State) : (advance s).powerEn = s.powerEn := rfl

/-- An operation whose operand is checked before the supply, as far as its next state goes. -/
theorem ite_whenEnabled_next {s t u : State} {p : Prop} [Decidable p] {e : Bool} {r : Refusal}
    (h : (if p then whenEnabled s e u else .refused r) = .next t) : t = u := by
  split at h
  · exact (whenEnabled_next h).2.2
  · cases h

/-! ## Power-enable: the end of a transaction without the immediate-shutdown setting (R149, R216) -/

section NoImmediateShutdown

variable {s : State} (hcfg : s.cfg.hookImmediateShutdown = false)
include hcfg

theorem hook_powerEn (i : Inst) (offset : Byte) (length : Nat) : (hook s i offset length).powerEn = s.powerEn := by
  obtain ⟨⟨hpower, -⟩, -⟩ := hook_spec s i offset length
  rw [hpower, if_neg]
  rintro ⟨hset, -⟩
  simp [hcfg] at hset

theorem endAndIdle_powerEn (j : Inst) : (endAndIdle s j).powerEn = s.powerEn := by
  rw [endAndIdle, setEngSt, setEng_powerEn, endTxn]
  split
  · exact hook_powerEn hcfg ..
  · rfl

theorem stopInst_powerEn (j : Inst) : (stopInst s j).powerEn = s.powerEn := by
  rw [stopInst]
  split
  · exact endAndIdle_powerEn hcfg j
  · rfl

theorem stopAll_powerEn : (stopAll s).powerEn = s.powerEn := by
  rw [stopAll, stopInst_powerEn (by rwa [stopInst_cfg]), stopInst_powerEn hcfg]

theorem addressMatch_powerEn (i : Inst) (d : Dir) : (addressMatch s i d).powerEn = s.powerEn := by
  obtain ⟨-, hpower, -⟩ := addressMatch_frame s i d
  rw [hpower, endActive]
  split
  · exact endAndIdle_powerEn hcfg _
  · rfl

theorem openAt_powerEn (i : Inst) (p : Byte) : (openAt s i p).powerEn = s.powerEn := by
  rw [openAt, selectRegister_powerEn, addressMatch_powerEn hcfg]

theorem exec_powerEn_of_mayRunHook {t : State} {i : Instr} (hi : mayRunHook i = true) (h : exec i s = .next t) :
    t.powerEn = s.powerEn := by
  cases i <;> simp only [mayRunHook, Bool.false_eq_true] at hi <;> simp only [exec] at h
  case addrW i | addrR i =>
    obtain rfl := ite_whenEnabled_next h
    exact addressMatch_powerEn hcfg ..
  case stop =>
    obtain ⟨-, -, rfl⟩ := whenEnabled_next h
    exact stopAll_powerEn hcfg
  case restart j =>
    obtain rfl := ite_whenEnabled_next h
    exact endAndIdle_powerEn hcfg j
  case wrhook i offset length =>
    obtain rfl := ite_whenEnabled_next h
    exact hook_powerEn hcfg ..
  case cmdSetLed _ _ _ | cmdShutdown =>
    obtain ⟨-, -, rfl⟩ := whenEnabled_next h
    simp [stopAll_powerEn, openAt_powerEn, openAt_cfg, hcfg]
  case cmdRead p m =>
    obtain ⟨-, -, rfl⟩ := whenEnabled_next h
    simp [stopAll_powerEn, addressMatch_powerEn, openAt_powerEn, openAt_cfg, hcfg]

end NoImmediateShutdown

/-! ## Power-enable: what each operation does to it (R41, R215) -/

/-- The rail falls exactly when a count that was not yet exhausted is (R209, R211). -/
theorem execBattEval_powerEn {s t : State} (h : execBattEval s = .next t) :
    t.powerEn = if s.seq.hyst ≠ 0 ∧ nextHyst s.cfg.hystInit s.seq.hyst (isLow s.cfg.adcLowThreshold s.seq.adcV) = 0 then false
      else s.powerEn := by
  obtain ⟨-, -, rfl⟩ := whenEnabled_next h
  rw [mapStore_powerEn]
  split
  · exact (deassertPower_spec _).1
  · rfl

/-- The rail falls exactly on the sentinel (R214). -/
theorem execShdnAct_powerEn {s t : State} (h : execShdnAct s = .next t) :
    t.powerEn = if s.seq.t31 = 0xFF#8 then false else s.powerEn := by
  obtain ⟨-, -, rfl⟩ := whenEnabled_next h
  have hsent : isSentinel s.cfg s.seq.t31 = true ↔ s.seq.t31 = 0xFF#8 := by simp [isSentinel]
  simp only [gotoStep_powerEn, hsent]
  split
  · exact (deassertPower_spec s).1
  · rfl

/-- The operations that can move power-enable at all. -/
def movesPowerEn : Instr → Bool
  | .battEval => true
  | .shdnAct => true
  | .reset => true
  | i => mayRunHook i

theorem exec_powerEn_of_not_moves {s t : State} {i : Instr} (hi : movesPowerEn i = false) (h : exec i s = .next t) :
    t.powerEn = s.powerEn := by
  cases i <;> simp only [movesPowerEn, mayRunHook, Bool.true_eq_false] at hi <;> simp only [exec] at h
  case regsel p =>
    obtain ⟨-, i, -, -, rfl⟩ := onActive_next h
    exact selectRegister_powerEn ..
  case wdata d =>
    obtain ⟨-, i, -, -, rfl⟩ := onActive_next h
    exact receiveData_powerEn ..
  case rdata =>
    obtain ⟨-, i, -, -, rfl⟩ := onActive_next h
    exact sendData_powerEn ..
  case ledStart n =>
    obtain rfl := ite_whenEnabled_next h
    exact startLed_powerEn s
  case powerLoss =>
    simp only [execPowerLoss] at h
    split at h
    · cases h
    · obtain ⟨-, -, rfl⟩ := whenEnabled_next h
      rfl
  case ledDone | msPublish _ | trigAct | adcCheck =>
    obtain ⟨-, -, rfl⟩ := whenEnabled_next h
    split <;> simp
  all_goals
    obtain ⟨-, -, rfl⟩ := whenEnabled_next h
    simp

/-- What an operation `i` that goes from `s` to `t` does to power-enable: every way there is. -/
inductive PowerEnEffect (s t : State) (i : Instr) : Prop where
  | kept (level : t.powerEn = s.powerEn)
  | raised (byReset : i = .reset) (level : t.powerEn = true)
  | countedOut (byEval : i = .battEval) (counting : s.seq.hyst ≠ 0)
      (exhausted : nextHyst s.cfg.hystInit s.seq.hyst (isLow s.cfg.adcLowThreshold s.seq.adcV) = 0) (level : t.powerEn = false)
  | commanded (byAct : i = .shdnAct) (sentinel : s.seq.t31 = 0xFF#8) (level : t.powerEn = false)
  | hooked (byHook : mayRunHook i = true) (setting : s.cfg.hookImmediateShutdown = true) (level : t.powerEn = false)

theorem isBusOp_of_mayRunHook {i : Instr} (hi : mayRunHook i = true) : isBusOp i = true := by
  cases i <;> simp_all [mayRunHook, isBusOp]

/-- An operation that may run the hook never raises power-enable, and lowers it only under the setting. -/
theorem powerEnEffect_of_mayRunHook {s t : State} {i : Instr} (hi : mayRunHook i = true) (h : exec i s = .next t) :
    PowerEnEffect s t i := by
  cases hcfg : s.cfg.hookImmediateShutdown with
  | false => exact .kept (exec_powerEn_of_mayRunHook hcfg hi h)
  | true =>
    obtain ⟨-, hdown⟩ := exec_busFrame (isBusOp_of_mayRunHook hi) h
    cases ht : t.powerEn with
    | false => exact .hooked hi hcfg ht
    | true => exact .kept (by cases hs : s.powerEn <;> simp_all)

theorem exec_powerEnEffect {s t : State} {i : Instr} (h : exec i s = .next t) : PowerEnEffect s t i := by
  cases i with
  | reset =>
    cases h
    exact .raised rfl rfl
  | battEval =>
    have hp := execBattEval_powerEn h
    split at hp
    next hc => exact .countedOut rfl hc.1 hc.2 hp
    next => exact .kept hp
  | shdnAct =>
    have hp := execShdnAct_powerEn h
    split at hp
    next hc => exact .commanded rfl hc hp
    next => exact .kept hp
  | addrW _ | addrR _ | stop | restart _ | wrhook _ _ _ | cmdSetLed _ _ _ | cmdShutdown | cmdRead _ _ =>
    exact powerEnEffect_of_mayRunHook rfl h
  | _ => exact .kept (exec_powerEn_of_not_moves rfl h)

/-- Settles O49: of the effects an operation can have on power-enable only `raised` ends with the rail up when it was down. -/
theorem powerEnableRisesOnlyByReset : Obligations.PowerEnableRisesOnlyByReset := by
  intro s t hstep hs ht
  rcases step_next hstep with ⟨i, hfetch, hexec⟩ | ⟨u, hfetch, rfl⟩
  · cases exec_powerEnEffect hexec with
    | raised hi _ => rw [hfetch, hi]
    | kept level => simp [level, hs] at ht
    | countedOut _ _ _ level | commanded _ _ level | hooked _ _ level => simp [level] at ht
  · obtain ⟨-, hframe⟩ := fetch_idle hfetch
    rw [hframe] at ht
    simp [hs] at ht

/-- A running count that loads at least 1 runs out only on a low sample at its last value. -/
theorem last_of_nextHyst_eq_zero {hystInit hyst : Nat} {low : Bool} (hinit : 1 ≤ hystInit) (hrun : hyst ≠ 0)
    (hzero : nextHyst hystInit hyst low = 0) : hyst = 1 ∧ low = true := by
  rw [nextHyst, if_neg hrun] at hzero
  cases low with
  | false =>
    have hzero : hystInit = 0 := hzero
    omega
  | true =>
    have hzero : hyst - 1 = 0 := hzero
    exact ⟨by omega, rfl⟩

/-- Settles O50: of the effects an operation can have on power-enable three end with the rail down when it was up. -/
theorem powerEnableFallsOnlyByShutdownSteps : Obligations.PowerEnableFallsOnlyByShutdownSteps := by
  intro s t i hinit hexec hs ht
  cases exec_powerEnEffect hexec with
  | kept level => simp [level, hs] at ht
  | raised _ level => simp [level] at ht
  | countedOut hi counting exhausted _ =>
    obtain ⟨hone, hlow⟩ := last_of_nextHyst_eq_zero hinit counting exhausted
    exact .inl ⟨hi, hone, of_decide_eq_true hlow⟩
  | commanded hi sentinel _ => exact .inr (.inl ⟨hi, sentinel⟩)
  | hooked hi setting _ => exact .inr (.inr ⟨hi, setting⟩)

end Sys2Proof.Machine

/-! # Proofs: the register map (20_memory.md) -/

namespace Sys2Proof.Machine

/-! ## Map bytes: what leaves them alone -/

@[simp] theorem readByte_selectRegister (s : State) (i j : Inst) (b : Byte) (k : Nat) :
    readByte (selectRegister s i b) j k = readByte s j k := by
  simp [selectRegister]

@[simp] theorem readByte_sendData (s : State) (i j : Inst) (k : Nat) : readByte (sendData s i) j k = readByte s j k := by
  simp [sendData]

@[simp] theorem readByte_sendMany (i : Inst) (m : Nat) (s : State) (j : Inst) (k : Nat) :
    readByte (sendMany i m s) j k = readByte s j k := by
  induction m generalizing s with
  | zero => rfl
  | succ m ih => rw [sendMany, ih, readByte_sendData]

@[simp] theorem readByte_hook (s : State) (i : Inst) (offset : Byte) (length : Nat) (j : Inst) (k : Nat) :
    readByte (hook s i offset length) j k = readByte s j k := by
  obtain ⟨-, -, hframe⟩ := hook_spec s i offset length
  rw [hframe]
  exact readByte_congr rfl rfl rfl j k

@[simp] theorem readByte_raiseBusFault (s : State) (kind : FaultKind) (j : Inst) (k : Nat) :
    readByte (raiseBusFault s kind) j k = readByte s j k :=
  readByte_congr rfl rfl rfl j k

theorem readByte_setSeq (s : State) (q : Sequencer) (j : Inst) (k : Nat) :
    readByte { s with seq := q } j k = readByte s j k :=
  readByte_congr rfl rfl rfl j k

@[simp] theorem readByte_gotoStep (s : State) (p : SeqStep) (j : Inst) (k : Nat) : readByte (gotoStep s p) j k = readByte s j k :=
  readByte_congr rfl rfl rfl j k

@[simp] theorem readByte_startLed (s : State) (j : Inst) (k : Nat) : readByte (startLed s).1 j k = readByte s j k := by
  unfold startLed
  split <;> exact readByte_congr rfl rfl rfl j k

/-- The operations that store to no map: the engine's but for data bytes, the serializer's, the sequencer's loads and decisions, and
the environment's but for reset (R61, R68). -/
def storesNothing : Instr → Bool
  | .wdata _ => false
  | .triggerLed _ => false
  | .triggerShutdown => false
  | .cmdSetLed _ _ _ => false
  | .cmdShutdown => false
  | .msPublish _ => false
  | .trigClear => false
  | .adcStore _ => false
  | .battEval => false
  | .gpioRefresh => false
  | .shdnAct => false
  | .reset => false
  | _ => true

theorem exec_readByte_of_storesNothing {s t : State} {i : Instr} (hi : storesNothing i = true) (h : exec i s = .next t)
    (j : Inst) (k : Nat) : readByte t j k = readByte s j k := by
  cases i with
  | wdata _ | triggerLed _ | triggerShutdown | cmdSetLed _ _ _ | cmdShutdown | msPublish _ | trigClear | adcStore _ | battEval
  | gpioRefresh | shdnAct | reset => cases hi
  | addrW _ | addrR _ =>
    obtain rfl := ite_whenEnabled_next h
    exact readByte_addressMatch ..
  | regsel _ =>
    obtain ⟨-, _, -, -, rfl⟩ := onActive_next h
    exact readByte_selectRegister ..
  | rdata =>
    obtain ⟨-, _, -, -, rfl⟩ := onActive_next h
    exact readByte_sendData ..
  | stop =>
    obtain ⟨-, -, rfl⟩ := whenEnabled_next h
    exact readByte_stopAll ..
  | restart _ =>
    obtain rfl := ite_whenEnabled_next h
    exact readByte_endAndIdle ..
  | buserr | arblost =>
    obtain ⟨-, -, rfl⟩ := whenEnabled_next h
    exact readByte_raiseBusFault ..
  | wrhook _ _ _ =>
    obtain rfl := ite_whenEnabled_next h
    exact readByte_hook ..
  | cmdRead _ _ =>
    obtain ⟨-, -, rfl⟩ := whenEnabled_next h
    simp [readByte_openAt]
  | ledStart _ =>
    obtain rfl := ite_whenEnabled_next h
    exact readByte_startLed ..
  | trigAct =>
    obtain ⟨-, -, rfl⟩ := whenEnabled_next h
    split <;> simp
  | ledDone | adcCheck =>
    obtain ⟨-, -, rfl⟩ := whenEnabled_next h
    split <;> exact readByte_congr rfl rfl rfl j k
  | powerLoss =>
    simp only [exec, execPowerLoss] at h
    split at h
    · cases h
    · obtain ⟨-, -, rfl⟩ := whenEnabled_next h
      exact readByte_congr rfl rfl rfl j k
  | ledFetch | ledBit | trigLoad | adcWait _ | shdnLoad | tick =>
    obtain ⟨-, -, rfl⟩ := whenEnabled_next h
    exact readByte_congr rfl rfl rfl j k

/-- Settles O14: the operations of a read, and the whole command, are among those that store nothing. -/
theorem busReadsChangeNoMapByte : Obligations.BusReadsChangeNoMapByte := by
  rintro s t i (⟨_, rfl | rfl⟩ | ⟨_, rfl⟩ | rfl | rfl | ⟨_, _, rfl⟩) h
  all_goals exact exec_readByte_of_storesNothing rfl h

/-! ## Several data bytes from the host -/

/-- Data bytes from the host, one after another (R98 form a, R145). -/
def receiveMany (i : Inst) : List Byte → State → State
  | [], s => s
  | b :: rest, s => receiveMany i rest (receiveData s i b)

theorem busFrame_receiveMany (i : Inst) (ds : List Byte) (s : State) : BusFrame s (receiveMany i ds s) := by
  induction ds generalizing s with
  | nil => exact busFrame_refl s
  | cons b rest ih => exact busFrame_trans (busFrame_receiveData s i b) (ih _)

theorem busFrame_cfg {s t : State} (h : BusFrame s t) : t.cfg = s.cfg := (congrArg State.cfg h.1 :)

theorem busFrame_powered {s t : State} (h : BusFrame s t) : t.powered = s.powered := (congrArg State.powered h.1 :)

/-- Taking a data byte moves the pointer on, up to 255 (R36, R145). -/
theorem receiveData_ptr (s : State) (i : Inst) (b : Byte) :
    ((receiveData s i b).eng i).ptr.toNat = min ((s.eng i).ptr.toNat + 1) 255 := by
  obtain ⟨-, heng, -⟩ := receiveData_spec s i b
  rw [heng, if_pos rfl]
  exact satInc_toNat _

/-- A burst fills the offsets from the pointer on, up to the end of the map, and no others (R65, R145, R152). -/
theorem readByte_receiveMany (i : Inst) (ds : List Byte) (s : State) (j : Inst) (k : Nat) :
    readByte (receiveMany i ds s) j k =
      if j = i ∧ readOnly s.cfg i = false ∧ k < 32 ∧ (s.eng i).ptr.toNat ≤ k ∧ k < (s.eng i).ptr.toNat + ds.length then
        ds.getD (k - (s.eng i).ptr.toNat) 0x00#8
      else readByte s j k := by
  induction ds generalizing s with
  | nil =>
    rw [if_neg]
    · rfl
    · rintro ⟨-, -, -, hle, hlt⟩
      exact absurd hlt (by simpa using hle)
  | cons b rest ih =>
    obtain ⟨hbyte, -⟩ := receiveData_spec s i b
    rw [receiveMany, ih, receiveData_ptr, receiveData_cfg, hbyte, List.length_cons]
    by_cases hstored : j = i ∧ readOnly s.cfg i = false ∧ k < 32
    · obtain ⟨hj, hro, hk⟩ := hstored
      simp only [hj, hro, hk, true_and, and_true]
      rcases Nat.lt_trichotomy k (s.eng i).ptr.toNat with hlt | heq | hgt
      · rw [if_neg (by omega), if_neg (by omega), if_neg (by omega)]
      · rw [if_neg (by omega), if_pos heq, if_pos (by omega), heq, Nat.sub_self, List.getD_cons_zero]
      · have hidx : k - (s.eng i).ptr.toNat = k - min ((s.eng i).ptr.toNat + 1) 255 + 1 := by omega
        rw [if_neg (by omega : ¬k = _), hidx, List.getD_cons_succ]
        exact if_congr (by omega) rfl rfl
    · rw [if_neg (by tauto), if_neg (by tauto), if_neg (by tauto)]

/-- The state after a whole write transaction, `S Ai+W p d0 ... P` (R106; `runInstrs_writeOps`). -/
def afterWrite (s : State) (i : Inst) (p : Byte) (ds : List Byte) : State := stopAll (receiveMany i ds (openAt s i p))

/-! ## Map bytes: who changes them (R61, R32, R153) -/

/-- A store into a state `u` whose map bytes are those of `s`. -/
theorem mapStore_changed {s u : State} {i j : Inst} {k : Fin mapBytes} {v : Byte} {n : Nat}
    (hu : readByte u j n = readByte s j n) (h : readByte (mapStore u i k v) j n ≠ readByte s j n) :
    j = i ∧ n = k.val ∧ readByte (mapStore u i k v) j n = v := by
  rw [readByte_mapStore, hu] at h
  rw [readByte_mapStore]
  obtain ⟨hat, -⟩ := ite_ne_right_iff.mp h
  exact ⟨hat.1, hat.2, if_pos hat⟩

theorem memWriteByte_changed {s : State} {i j : Inst} {off n v b k : Nat} {hin : off + n ≤ mapBytes}
    (h : readByte (memWriteByte s i off n v b hin) j k ≠ readByte s j k) : j = i ∧ off ≤ k ∧ k < off + n := by
  rw [readByte_memWriteByte] at h
  obtain ⟨⟨hj, hk, hb⟩, -⟩ := ite_ne_right_iff.mp h
  exact ⟨hj, by omega, by omega⟩

theorem receiveMany_changed {i j : Inst} {ds : List Byte} {s : State} {k : Nat}
    (h : readByte (receiveMany i ds s) j k ≠ readByte s j k) :
    j = i ∧ k < 32 ∧ (s.eng i).ptr.toNat ≤ k ∧ k < (s.eng i).ptr.toNat + ds.length ∧
      readByte (receiveMany i ds s) j k = ds.getD (k - (s.eng i).ptr.toNat) 0x00#8 := by
  rw [readByte_receiveMany] at h ⊢
  obtain ⟨⟨hj, hro, hk, hle, hlt⟩, -⟩ := ite_ne_right_iff.mp h
  exact ⟨hj, hk, hle, hlt, if_pos ⟨hj, hro, hk, hle, hlt⟩⟩

/-- A single data byte changes only the byte at the pointer, and to the byte received. -/
theorem receiveData_changed {s : State} {i j : Inst} {b : Byte} {k : Nat}
    (h : readByte (receiveData s i b) j k ≠ readByte s j k) :
    j = i ∧ k = (s.eng i).ptr.toNat ∧ k < 32 ∧ readByte (receiveData s i b) j k = b := by
  obtain ⟨hbyte, -⟩ := receiveData_spec s i b
  rw [hbyte] at h ⊢
  obtain ⟨⟨hj, hk, hlt, hro⟩, -⟩ := ite_ne_right_iff.mp h
  exact ⟨hj, hk, hlt, if_pos ⟨hj, hk, hlt, hro⟩⟩

theorem afterWrite_changed {s : State} {i j : Inst} {p : Byte} {ds : List Byte} {k : Nat}
    (h : readByte (afterWrite s i p ds) j k ≠ readByte s j k) :
    j = i ∧ k < 32 ∧ p.toNat ≤ k ∧ k < p.toNat + ds.length ∧
      readByte (afterWrite s i p ds) j k = ds.getD (k - p.toNat) 0x00#8 := by
  rw [afterWrite, readByte_stopAll] at h ⊢
  rw [← readByte_openAt s i p] at h
  simpa only [openAt_eng] using receiveMany_changed h

theorem ptr_of_awaitsDataAt {s : State} {offset : Byte} (h : awaitsDataAt s offset = true) : s.eng1.ptr = offset := by
  simp only [awaitsDataAt, Bool.and_eq_true, beq_iff_eq] at h
  exact h.2

/-- Operation by operation: what makes no store keeps every byte, and a byte that a store changed is the one stored to. -/
theorem exec_mayStore {s t : State} {i : Instr} {j : Inst} {k : Nat} (h : exec i s = .next t)
    (hne : readByte t j k ≠ readByte s j k) : MayStore s j k (readByte t j k) i := by
  cases i with
  | reset => trivial
  | wdata d =>
    obtain ⟨-, i, hactive, -, rfl⟩ := onActive_next h
    obtain ⟨rfl, hk, hlt, hv⟩ := receiveData_changed hne
    exact ⟨hactive, hk, hlt, hv⟩
  | triggerLed d =>
    obtain ⟨-, hen, rfl⟩ := whenEnabled_next h
    have hptr : (s.eng .primary).ptr = 11#8 := ptr_of_awaitsDataAt (Bool.and_eq_true_iff.mp hen).1
    obtain ⟨hj, hk, -, hv⟩ := receiveData_changed hne
    rw [hptr] at hk
    exact ⟨hj, hk, hv⟩
  | triggerShutdown =>
    obtain ⟨-, hen, rfl⟩ := whenEnabled_next h
    have hptr : (s.eng .primary).ptr = 31#8 := ptr_of_awaitsDataAt hen
    obtain ⟨hj, hk, -, hv⟩ := receiveData_changed hne
    rw [hptr] at hk
    exact ⟨hj, hk, hv.trans (cfg_shutdownSentinel s.cfg)⟩
  | cmdSetLed r g b =>
    obtain ⟨-, -, rfl⟩ := whenEnabled_next h
    obtain ⟨hj, -, hle, hlt, -⟩ := afterWrite_changed (p := 8#8) (ds := [r, g, b, 1#8]) hne
    exact ⟨hj, hle, Nat.le_of_lt_succ hlt⟩
  | cmdShutdown =>
    obtain ⟨-, -, rfl⟩ := whenEnabled_next h
    obtain ⟨hj, hk, hle, -, hv⟩ := afterWrite_changed (p := 31#8) (ds := [s.cfg.shutdownSentinel]) hne
    obtain rfl : k = 31 := Nat.le_antisymm (Nat.le_of_lt_succ hk) hle
    exact ⟨hj, rfl, hv.trans (cfg_shutdownSentinel s.cfg)⟩
  | msPublish pick =>
    obtain ⟨-, -, rfl⟩ := whenEnabled_next h
    cases hpend : s.seq.pend with
    | nil =>
      simp only [hpend] at hne
      exact absurd (readByte_congr rfl rfl rfl j k) hne
    | cons a rest =>
      simp only [hpend] at hne
      obtain ⟨hj, hle, hlt⟩ := memWriteByte_changed hne
      exact ⟨hj, hle, Nat.le_of_lt_succ hlt⟩
  | trigClear =>
    obtain ⟨-, -, rfl⟩ := whenEnabled_next h
    exact mapStore_changed rfl hne
  | adcStore pick =>
    obtain ⟨-, -, rfl⟩ := whenEnabled_next h
    obtain ⟨hj, hle, hlt⟩ := memWriteByte_changed hne
    exact ⟨hj, hle, Nat.le_of_lt_succ hlt⟩
  | battEval =>
    obtain ⟨-, -, rfl⟩ := whenEnabled_next h
    obtain ⟨hj, hk, -⟩ := mapStore_changed (by split <;> simp [readByte_setSeq]) hne
    exact ⟨hj, hk⟩
  | gpioRefresh =>
    obtain ⟨-, -, rfl⟩ := whenEnabled_next h
    obtain ⟨hj, hk, -⟩ := mapStore_changed (readByte_congr rfl rfl rfl j k) hne
    exact ⟨hj, hk⟩
  | shdnAct =>
    obtain ⟨-, -, rfl⟩ := whenEnabled_next h
    rw [readByte_gotoStep] at hne ⊢
    split at hne
    next hsentinel =>
      rw [if_pos hsentinel]
      exact mapStore_changed (readByte_deassertPower s j k) hne
    next => exact absurd rfl hne
  | _ => exact absurd (exec_readByte_of_storesNothing rfl h j k) hne

/-- Settles O51, by `exec_mayStore`. The invariant is not needed: the operation that makes a store also computes its address. -/
theorem storesStayInTheirRoles : Obligations.StoresStayInTheirRoles := by
  intro s t i j k _ h hne
  exact exec_mayStore h hne

/-! ## Runs of bus operations (R98, R106) -/

theorem runInstrs_cons_of {i : Instr} {s t : State} (h : exec i s = .next t) (rest : List Instr) :
    runInstrs (i :: rest) s = runInstrs rest t := by
  rw [runInstrs, h]

theorem runInstrs_append_of {xs : List Instr} {s t : State} (h : runInstrs xs s = .next t) (ys : List Instr) :
    runInstrs (xs ++ ys) s = runInstrs ys t := by
  rw [runInstrs_append, h]

theorem onActive_of {s : State} {i : Inst} (hp : s.powered = true) (hactive : activeInst s = some i) {ok : Engine → Bool}
    (hok : ok (s.eng i) = true) (op : Inst → State) : onActive s ok op = .next (op i) := by
  rw [onActive, hactive]
  exact whenEnabled_of hp hok _

theorem exec_addrW_of {s : State} {i : Inst} (hp : s.powered = true) (hi : s.cfg.present i = true) :
    exec (.addrW i) s = .next (addressMatch s i .W) :=
  (if_pos hi).trans (whenEnabled_of hp rfl _)

theorem exec_addrR_of {s : State} {i : Inst} (hp : s.powered = true) (hi : s.cfg.present i = true) :
    exec (.addrR i) s = .next (addressMatch s i .R) :=
  (if_pos hi).trans (whenEnabled_of hp rfl _)

theorem exec_wdata_of {s : State} {i : Inst} (hp : s.powered = true) (hactive : activeInst s = some i)
    (hdata : awaitsData (s.eng i) = true) (b : Byte) : exec (.wdata b) s = .next (receiveData s i b) :=
  onActive_of hp hactive hdata _

theorem exec_rdata_of {s : State} {i : Inst} (hp : s.powered = true) (hactive : activeInst s = some i)
    (hsend : sendsData (s.eng i) = true) : exec .rdata s = .next (sendData s i) :=
  onActive_of hp hactive hsend _

theorem exec_stop_of {s : State} (hp : s.powered = true) : exec .stop s = .next (stopAll s) := whenEnabled_of hp rfl _

/-- The pointer byte right after a write address (R144). -/
theorem exec_regsel_addressMatch {s : State} {i : Inst} (hp : s.powered = true) (hi : s.cfg.present i = true) (p : Byte) :
    exec (.regsel p) (addressMatch s i .W) = .next (openAt s i p) := by
  have hok : awaitsPointer ((addressMatch s i .W).eng i) = true := by
    rw [addressMatch_eng, if_pos rfl]
    rfl
  exact onActive_of ((busFrame_powered (busFrame_addressMatch s i .W)).trans hp) (activeInst_addressMatch hi .W) hok _

theorem runInstrs_open {s : State} {i : Inst} (hp : s.powered = true) (hi : s.cfg.present i = true) (p : Byte)
    (rest : List Instr) : runInstrs (.addrW i :: .regsel p :: rest) s = runInstrs rest (openAt s i p) := by
  rw [runInstrs_cons_of (exec_addrW_of hp hi), runInstrs_cons_of (exec_regsel_addressMatch hp hi p)]

theorem awaitsData_receiveData {s : State} {i : Inst} (h : awaitsData (s.eng i) = true) (b : Byte) :
    awaitsData ((receiveData s i b).eng i) = true := by
  obtain ⟨-, heng, -⟩ := receiveData_spec s i b
  rw [heng, if_pos rfl]
  simp only [awaitsData, Bool.and_eq_true] at h
  simp [awaitsData, h.1]

theorem activeInst_receiveData {s : State} {i : Inst} (h : activeInst s = some i) (b : Byte) :
    activeInst (receiveData s i b) = some i := by
  obtain ⟨-, heng, -⟩ := receiveData_spec s i b
  refine activeInst_keep h (receiveData_cfg s i b) ?_ fun j hj => ?_
  · rw [heng, if_pos rfl]
    exact EngSt.noConfusion
  · rw [heng, if_neg hj]

theorem runInstrs_wdata {s : State} {i : Inst} (hp : s.powered = true) (hactive : activeInst s = some i)
    (hdata : awaitsData (s.eng i) = true) (ds : List Byte) : runInstrs (ds.map .wdata) s = .next (receiveMany i ds s) := by
  induction ds generalizing s with
  | nil => rfl
  | cons b rest ih =>
    rw [List.map_cons, runInstrs_cons_of (exec_wdata_of hp hactive hdata b)]
    exact ih ((busFrame_powered (busFrame_receiveData s i b)).trans hp) (activeInst_receiveData hactive b)
      (awaitsData_receiveData hdata b)

theorem sendsData_sendData {s : State} {i : Inst} (h : sendsData (s.eng i) = true) : sendsData ((sendData s i).eng i) = true := by
  obtain ⟨heng, -⟩ := sendData_spec s i
  rw [heng, if_pos rfl]
  simp only [sendsData, Bool.and_eq_true] at h
  simp [sendsData, h.1]

theorem activeInst_sendData {s : State} {i : Inst} (h : activeInst s = some i) : activeInst (sendData s i) = some i := by
  obtain ⟨heng, -⟩ := sendData_spec s i
  refine activeInst_keep h (sendData_cfg s i) ?_ fun j hj => ?_
  · rw [heng, if_pos rfl]
    exact EngSt.noConfusion
  · rw [heng, if_neg hj]

theorem runInstrs_rdata {s : State} {i : Inst} (hp : s.powered = true) (hactive : activeInst s = some i)
    (hsend : sendsData (s.eng i) = true) (n : Nat) : runInstrs (List.replicate n .rdata) s = .next (sendMany i n s) := by
  induction n generalizing s with
  | zero => rfl
  | succ n ih =>
    rw [List.replicate_succ, runInstrs_cons_of (exec_rdata_of hp hactive hsend)]
    exact ih ((busFrame_powered (busFrame_sendData s i)).trans hp) (activeInst_sendData hactive) (sendsData_sendData hsend)

/-! ## A burst written, and a burst read (R73) -/

/-- The operations of `S Ai+W p d0 ... P`. -/
def writeOps (i : Inst) (p : Byte) (ds : List Byte) : List Instr := .addrW i :: .regsel p :: (ds.map Instr.wdata ++ [Instr.stop])

/-- The operations of `S Ai+W p Sr Ai+R <r0 ... <r(n-1) P`. -/
def readOps (i : Inst) (p : Byte) (n : Nat) : List Instr :=
  .addrW i :: .regsel p :: .addrR i :: (List.replicate n Instr.rdata ++ [Instr.stop])

/-- The state after a whole read transaction (`runInstrs_readOps`). -/
def afterRead (s : State) (i : Inst) (p : Byte) (n : Nat) : State := stopAll (sendMany i n (addressMatch (openAt s i p) i .R))

theorem busFrame_afterWrite (s : State) (i : Inst) (p : Byte) (ds : List Byte) : BusFrame s (afterWrite s i p ds) :=
  busFrame_trans (busFrame_openAt s i p) (busFrame_trans (busFrame_receiveMany i ds _) (busFrame_stopAll _))

theorem runInstrs_writeOps {s : State} {i : Inst} (hp : s.powered = true) (hi : s.cfg.present i = true) (p : Byte)
    (ds : List Byte) : runInstrs (writeOps i p ds) s = .next (afterWrite s i p ds) := by
  have hopen := (busFrame_powered (busFrame_openAt s i p)).trans hp
  have hmany := (busFrame_powered (busFrame_receiveMany i ds (openAt s i p))).trans hopen
  have hdata : awaitsData ((openAt s i p).eng i) = true := by
    rw [openAt_eng]
    rfl
  rw [writeOps, runInstrs_open hp hi, runInstrs_append_of (runInstrs_wdata hopen (activeInst_openAt hi p) hdata ds),
    runInstrs_cons_of (exec_stop_of hmany), runInstrs, afterWrite]

theorem runInstrs_readOps {s : State} {i : Inst} (hp : s.powered = true) (hi : s.cfg.present i = true) (p : Byte) (n : Nat) :
    runInstrs (readOps i p n) s = .next (afterRead s i p n) := by
  have hopen := (busFrame_powered (busFrame_openAt s i p)).trans hp
  have haddr := (busFrame_powered (busFrame_addressMatch (openAt s i p) i .R)).trans hopen
  have hmany := (busFrame_powered (busFrame_sendMany i n (addressMatch (openAt s i p) i .R))).trans haddr
  have hpresent : (openAt s i p).cfg.present i = true := by rwa [openAt_cfg]
  have hsend : sendsData ((addressMatch (openAt s i p) i .R).eng i) = true := by
    rw [addressMatch_eng, if_pos rfl]
    rfl
  rw [readOps, runInstrs_open hp hi, runInstrs_cons_of (exec_addrR_of hopen hpresent),
    runInstrs_append_of (runInstrs_rdata haddr (activeInst_addressMatch hpresent .R) hsend n),
    runInstrs_cons_of (exec_stop_of hmany), runInstrs, afterRead]

/-- A burst that fits into a writable map is in it once the transaction has stopped (R73). -/
theorem readByte_afterWrite {s : State} {i : Inst} {p : Byte} {ds : List Byte} (hro : readOnly s.cfg i = false)
    (hfit : p.toNat + ds.length ≤ 32) {n : Nat} (hn : n < ds.length) :
    readByte (afterWrite s i p ds) i (p.toNat + n) = ds[n] := by
  rw [afterWrite, readByte_stopAll, readByte_receiveMany, openAt_eng, openAt_cfg,
    if_pos ⟨rfl, hro, by omega, by simp, by simpa using hn⟩, Nat.add_sub_cancel_left, List.getD_eq_getElem _ _ hn]

/-- What the host reads: three acknowledges, then the map's bytes from the pointer on, zero past the end (R146, R241). -/
theorem afterRead_busOut (s : State) (i : Inst) (p : Byte) (n : Nat) :
    (afterRead s i p n).obs.busOut = s.obs.busOut ++ [BusOut.ack i, BusOut.ack i, BusOut.ack i] ++
      (List.range n).map fun j => BusOut.byte i (if p.toNat + j < 32 then readByte s i (p.toNat + j) else 0x00#8) := by
  obtain ⟨hstop, -⟩ := stopAll_frame (sendMany i n (addressMatch (openAt s i p) i .R))
  obtain ⟨-, -, -, -, -, -, -, hsend, -⟩ := sendMany_spec i n (addressMatch (openAt s i p) i .R)
  obtain ⟨haddr, -⟩ := addressMatch_frame (openAt s i p) i .R
  obtain ⟨hopen, -⟩ := openAt_spec s i p
  have hptr : ((addressMatch (openAt s i p) i .R).eng i).ptr = p := by
    rw [addressMatch_eng, if_pos rfl, openAt_eng]
  rw [afterRead, hstop, hsend, haddr, hopen, hptr]
  simp [readByte_openAt]

/-- Settles O12: the write leaves its bytes in the map (`readByte_afterWrite`), and the read returns the map's bytes
(`afterRead_busOut`). -/
theorem burstReadsBackAsWritten : Obligations.BurstReadsBackAsWritten := by
  intro s i p ds hp hi hro hfit
  have hframe := busFrame_afterWrite s i p ds
  have hpowered : (afterWrite s i p ds).powered = true := (busFrame_powered hframe).trans hp
  have hpresent : (afterWrite s i p ds).cfg.present i = true := by rwa [busFrame_cfg hframe]
  have hrun : runInstrs (writeOps i p ds ++ readOps i p ds.length) s = .next (afterRead (afterWrite s i p ds) i p ds.length) := by
    rw [runInstrs_append_of (runInstrs_writeOps hp hi p ds), runInstrs_readOps hpowered hpresent]
  have hread : ((List.range ds.length).map fun n => BusOut.byte i
      (if p.toNat + n < 32 then readByte (afterWrite s i p ds) i (p.toNat + n) else 0x00#8)) = ds.map (.byte i) := by
    refine List.ext_getElem (by simp) fun n hn _ => ?_
    have hlt : n < ds.length := by simpa using hn
    simp [readByte_afterWrite hro hfit hlt, show p.toNat + n < 32 by omega]
  refine ⟨_, _, ?_, (afterRead_busOut ..).trans (congrArg (_ ++ ·) hread)⟩
  simpa [writeOps, readOps] using hrun

end Sys2Proof.Machine

/-! # Proofs: the encoding (30_encoding.md) -/

namespace Sys2Proof

/-! ## The address byte (R92, R93) -/

@[simp] theorem addrField_addrByte (c : Config) (i : Inst) (d : Dir) : addrField (addrByte c i d) = c.addr i :=
  BitVec.extractLsb'_append_eq_left

@[simp] theorem dirField_addrByte (c : Config) (i : Inst) (d : Dir) : dirField (addrByte c i d) = d := by
  have hbit : (addrByte c i d).getLsbD 0 = d.bit.getLsbD 0 := BitVec.getLsbD_append
  rw [dirField, hbit]
  cases d <;> rfl

theorem dirField_eq_R_iff {b : Byte} : dirField b = .R ↔ b.getLsbD 0 = true := by
  simp [dirField]

theorem addrMatch_eq_none_iff {c : Config} {a : BitVec 7} :
    addrMatch c a = none ↔ a ≠ c.addr1 ∧ (c.hasSecondary = true → a ≠ c.addr2) := by
  unfold addrMatch
  split
  next hfirst => simp [hfirst]
  next hfirst => simp [hfirst]

/-- Every device that exists answers to its own address; the two addresses differ by R8. -/
theorem addrMatch_addr {c : Config} (hvalid : c.valid = true) {i : Inst} (hi : c.present i = true) :
    addrMatch c (c.addr i) = some i := by
  cases i with
  | primary => exact if_pos rfl
  | secondary =>
    have hsec : c.hasSecondary = true := hi
    obtain ⟨haddr, -, -⟩ := Config.valid_iff.mp hvalid
    simp [addrMatch, Config.addr, haddr hsec, hsec]

theorem decode_addr_of_match {c : Config} {b : Byte} {i : Inst} (h : addrMatch c (addrField b) = some i) :
    decode c ⟨.A, [b]⟩ = .ok (if dirField b = .R then .addrR i else .addrW i) := by
  cases hd : dirField b <;> simp [decode, decodeAddr, h, hd]

theorem decode_addrByte {c : Config} (hvalid : c.valid = true) {i : Inst} (hi : c.present i = true) (d : Dir) :
    decode c ⟨.A, [addrByte c i d]⟩ = .ok (if d = .R then .addrR i else .addrW i) := by
  have hmatch : addrMatch c (addrField (addrByte c i d)) = some i := by rw [addrField_addrByte, addrMatch_addr hvalid hi]
  rw [decode_addr_of_match hmatch, dirField_addrByte]

/-! ## Numbers of the devices (R10), command values (R102), host commands (R241 to R243) -/

@[simp] theorem instOfNumber_number (i : Inst) : instOfNumber i.number = some i := by
  cases i <;> rfl

theorem decode_wrhook (c : Config) (i : Inst) (offset : Byte) {length : Nat} (hlength : length ≤ c.mapSize) :
    decode c (encode c (.wrhook i offset length)) = .ok (.wrhook i offset length) := by
  have hfits : length % 256 = length := Nat.mod_eq_of_lt (by rw [Machine.cfg_mapSize] at hlength; omega)
  simp [encode, decode, decodeInternal, hfits]

theorem decode_mapValue_trigger (c : Config) (b : Byte) :
    decode c ⟨.MAPVALUE 11#8, [b]⟩ = .ok (if b = 0#8 then .wdata b else .triggerLed b) := rfl

theorem decode_mapValue_shutdown (c : Config) (b : Byte) :
    decode c ⟨.MAPVALUE 31#8, [b]⟩ = .ok (if b = 0xFF#8 then .triggerShutdown else .wdata b) := by
  simp [decode, decodeMapValue]

theorem decode_cmdSetLed (c : Config) (r g b : Byte) :
    decode c (encode c (.cmdSetLed r g b)) = .ok (.cmdSetLed r g b) := by
  simp [encode, decode, decodeTxn]

theorem decode_cmdShutdown (c : Config) : decode c (encode c .cmdShutdown) = .ok .cmdShutdown := by
  simp [encode, decode, decodeTxn]

/-- A read written with its count, the full read too (log entry 21). -/
theorem decode_countedRead (c : Config) (p m : Byte) :
    decode c ⟨.TXN, [addrByte c .primary .W, p, addrByte c .primary .R, m]⟩ = .ok (.cmdRead p m) := by
  simp [decode, decodeTxn]

theorem decode_cmdRead (c : Config) (p m : Byte) : decode c (encode c (.cmdRead p m)) = .ok (.cmdRead p m) := by
  rw [encode]
  split
  next hfull =>
    obtain ⟨rfl, rfl⟩ := hfull
    simp [decode, decodeTxn]
  next => exact decode_countedRead c p m

/-! ## Decoding what was encoded -/

/-- The rows with fixed bytes, and those whose operand is one byte of its own, are read back by computation; the others by the lemmas
above. -/
theorem decode_encode {c : Config} {i : Instr} (hvalid : c.valid = true) (hwf : i.wf c = true) :
    decode c (encode c i) = .ok i := by
  cases i with
  | addrW i => exact decode_addrByte hvalid hwf .W
  | addrR i => exact decode_addrByte hvalid hwf .R
  | restart j => simp [encode, decode, decodeCond]
  | wrhook i offset length =>
    obtain ⟨-, hlength⟩ := Bool.and_eq_true_iff.mp hwf
    exact decode_wrhook c i offset (of_decide_eq_true hlength)
  | ledStart n =>
    obtain rfl : n = 1 := eq_of_beq hwf
    rfl
  | adcWait v => exact Machine.decode_adcWait c v
  | triggerLed v =>
    have hv : v ≠ 0#8 := bne_iff_ne.mp hwf
    exact (decode_mapValue_trigger c v).trans (by rw [if_neg hv])
  | triggerShutdown => simp [encode, decode_mapValue_shutdown]
  | cmdSetLed r g b => exact decode_cmdSetLed c r g b
  | cmdShutdown => exact decode_cmdShutdown c
  | cmdRead p m => exact decode_cmdRead c p m
  | _ => rfl

/-- Settles O58, by `decode_encode`. -/
theorem decodeOfEncodeIsIdentity : Obligations.DecodeOfEncodeIsIdentity :=
  fun _ _ hvalid hwf => decode_encode hvalid hwf

/-- Settles O59: each word is closed, and the parts of this hardware's configuration that are open (log entry 4) are not read. -/
theorem specWordsDecode : Obligations.SpecWordsDecode :=
  ⟨rfl, rfl, rfl, rfl, rfl, rfl, rfl⟩

namespace Machine

/-! ## What a powered step does with its next event (R99, R108) -/

section PoweredStep

variable {s : State} (hvalid : s.cfg.valid = true) (hp : s.powered = true) {e : Event} (he : nextEvent s = e)
include hvalid hp he

theorem step_of_op {w : Code} {i : Instr} (hsel : select s e = .op w) (hdec : decode s.cfg w = .ok i) :
    step s = exec i (advance s) := by
  simp [step, fetch, hvalid, hp, he, hsel, hdec]

/-- An event that selects the code of a well-formed operation runs it. -/
theorem step_of_encoded {i : Instr} (hsel : select s e = .op (encode s.cfg i)) (hwf : i.wf s.cfg = true) :
    step s = exec i (advance s) :=
  step_of_op hvalid hp he hsel (decode_encode hvalid hwf)

theorem step_of_reject {w : Code} {q : Reject} (hsel : select s e = .op w) (hdec : decode s.cfg w = .error q) :
    step s = .next (deliverAll (expansion e) (advance s)) := by
  simp [step, fetch, hvalid, hp, he, hsel, hdec]

theorem step_of_none (hsel : select s e = .none) : step s = .next (advance s) := by
  simp [step, fetch, hvalid, hp, he, hsel]

theorem step_of_pins {p : Pins} (hsel : select s e = .pins p) : step s = .next (setPins (advance s) p) := by
  simp [step, fetch, hvalid, hp, he, hsel]

end PoweredStep

/-! ## Another device's traffic (R93) -/

theorem select_addr_of_no_match {s : State} {b : Byte} (h : addrMatch s.cfg (addrField b) = none) :
    select s (.addr b) = .none := by
  simp [select, h]

theorem selectRx_of_foreign {s : State} (h : s.env.foreign = true) (b : Byte) : selectRx s b = .none := if_pos h

theorem selectTx_of_foreign {s : State} (h : s.env.foreign = true) : selectTx s = .none := if_pos h

theorem advance_foreign (s : State) : (advance s).env.foreign = foreignAfter s.cfg s.env.foreign (nextEvent s) := rfl

theorem advance_frame (s : State) : advance s = { s with env := (advance s).env } := rfl

/-- Settles O17: the address selects nothing and sets the flag; while the flag is set, bytes and byte requests select nothing and
leave it set. -/
theorem foreignTrafficIsNotDelivered : Obligations.ForeignTrafficIsNotDelivered := by
  intro s b hvalid hp
  refine ⟨fun he h1 h2 => ?_, fun hforeign he => ?_⟩
  · have hmatch : addrMatch s.cfg (addrField b) = none := addrMatch_eq_none_iff.mpr ⟨h1, h2⟩
    refine ⟨advance s, step_of_none hvalid hp he (select_addr_of_no_match hmatch), advance_frame s, ?_⟩
    rw [advance_foreign, he, foreignAfter, hmatch, Option.isNone_none]
  · rcases he with he | he
    · refine ⟨advance s, step_of_none hvalid hp he (selectRx_of_foreign hforeign b), advance_frame s, ?_⟩
      rw [advance_foreign, he, foreignAfter, hforeign]
    · refine ⟨advance s, step_of_none hvalid hp he (selectTx_of_foreign hforeign), advance_frame s, ?_⟩
      rw [advance_foreign, he, foreignAfter, hforeign]

/-! ## When the protocol engine takes or sends a byte (R144, R145, R146) -/

theorem awaitsPointer_iff {e : Engine} : awaitsPointer e = true ↔ e.st = .addressed ∧ e.dir = .W := by
  simp [awaitsPointer, and_comm]

theorem awaitsData_iff {e : Engine} : awaitsData e = true ↔ (e.st = .registerSelect ∨ e.st = .writeBurst) ∧ e.dir = .W := by
  simp [awaitsData, and_comm]

theorem sendsData_iff {e : Engine} : sendsData e = true ↔ (e.st = .addressed ∨ e.st = .readBurst) ∧ e.dir = .R := by
  simp [sendsData, and_comm]

theorem awaitsDataAt_iff {s : State} {offset : Byte} :
    awaitsDataAt s offset = true ↔ activeInst s = some .primary ∧ awaitsData s.eng1 = true ∧ s.eng1.ptr = offset := by
  simp [awaitsDataAt, and_assoc]

theorem awaitsPointer_of_awaitsData {e : Engine} (h : awaitsData e = true) : awaitsPointer e = false := by
  obtain ⟨hst | hst, -⟩ := awaitsData_iff.mp h <;> simp [awaitsPointer, hst]

/-! ## The commands carried as data (R102) -/

theorem exec_triggerLed_eq_wdata {s : State} {v : Byte} (hactive : activeInst s = some .primary)
    (hdata : awaitsData s.eng1 = true) (hptr : s.eng1.ptr = 11#8) (hv : v ≠ 0#8) :
    exec (.triggerLed v) s = exec (.wdata v) s := by
  have hat : awaitsDataAt s 11#8 = true := awaitsDataAt_iff.mpr ⟨hactive, hdata, hptr⟩
  have hnonzero : (v != 0#8) = true := bne_iff_ne.mpr hv
  simp [exec, execTriggerLed, execWdata, onActive, hactive, State.eng, hdata, hat, hnonzero]

theorem exec_triggerShutdown_eq_wdata {s : State} (hactive : activeInst s = some .primary)
    (hdata : awaitsData s.eng1 = true) (hptr : s.eng1.ptr = 31#8) :
    exec .triggerShutdown s = exec (.wdata 0xFF#8) s := by
  have hat : awaitsDataAt s 31#8 = true := awaitsDataAt_iff.mpr ⟨hactive, hdata, hptr⟩
  simp [exec, execTriggerShutdown, execWdata, onActive, hactive, State.eng, hdata, hat]

/-- A data byte that the pointer places inside a writable map is read back from it (R145). -/
theorem readByte_receiveData_at {s : State} {i : Inst} {p : Byte} (hptr : (s.eng i).ptr = p) (hin : p.toNat < 32)
    (hro : readOnly s.cfg i = false) (b : Byte) : readByte (receiveData s i b) i p.toNat = b := by
  obtain ⟨hbyte, -⟩ := receiveData_spec s i b
  rw [hbyte, if_pos ⟨rfl, by rw [hptr], hin, hro⟩]

/-- Settles O5: each command is the data byte (`exec_triggerLed_eq_wdata`, `exec_triggerShutdown_eq_wdata`), which runs and is stored at
the pointer. -/
theorem triggerCommandsAreDataBytes : Obligations.TriggerCommandsAreDataBytes := by
  intro s v hp hactive hst hdir
  have hdata : awaitsData s.eng1 = true := awaitsData_iff.mpr ⟨hst, hdir⟩
  refine ⟨fun hptr hv => ?_, fun hptr => ?_⟩
  · have hrun := exec_wdata_of hp hactive hdata v
    exact ⟨_, (exec_triggerLed_eq_wdata hactive hdata hptr hv).trans hrun, hrun,
      fun hro => readByte_receiveData_at (i := .primary) (p := 11#8) hptr (by decide) hro v⟩
  · have hrun := exec_wdata_of hp hactive hdata 0xFF#8
    exact ⟨_, (exec_triggerShutdown_eq_wdata hactive hdata hptr).trans hrun, hrun,
      fun hro => readByte_receiveData_at (i := .primary) (p := 31#8) hptr (by decide) hro 0xFF#8⟩

/-! ## Operations outside their context (R108, R34) -/

theorem whenEnabled_of_not {s : State} (hp : s.powered = true) {e : Bool} (he : ¬ e = true) (t : State) :
    whenEnabled s e t = .refused .notEnabled := by
  simp [whenEnabled, hp, he]

theorem onActive_of_not {s : State} (hp : s.powered = true) {ok : Engine → Bool}
    (hnone : ∀ i, activeInst s = some i → ¬ ok (s.eng i) = true) (op : Inst → State) :
    onActive s ok op = .refused .notEnabled := by
  unfold onActive
  split
  next i hactive => exact whenEnabled_of_not hp (hnone i hactive) _
  next => exact whenEnabled_of_not hp Bool.false_ne_true _

/-- The operation of a step of the scan asks for the supply and for `spc` at that step (R201). -/
theorem exec_stepInstr {p : SeqStep} {pick : Byte} {i : Instr} (h : stepInstr p pick = some i) (s : State) :
    ∃ t, exec i s = whenEnabled s (atStep s p) t := by
  cases p <;> cases h <;> exact ⟨_, rfl⟩

theorem atStep_iff {s : State} {p : SeqStep} : atStep s p = true ↔ s.seq.spc = p := beq_iff_eq

theorem exec_restart_of_idle {s : State} (hp : s.powered = true) {j : Inst} (hj : s.cfg.present j = true)
    (hidle : (s.eng j).st = .idle) : exec (.restart j) s = .refused .notEnabled :=
  (if_pos hj).trans (whenEnabled_of_not hp (by simp [hidle]) _)

/-- Settles O54: every operation but the ones that name a device is `whenEnabled` or `onActive` under the condition of its rule, and those
first ask whether the device exists. -/
theorem operationsStopOutsideTheirContext : Obligations.OperationsStopOutsideTheirContext := by
  intro s hp
  refine ⟨fun p pick i hi hspc => ?_, fun v hspc => ?_, fun hst => ?_, fun hq => ?_, fun hq => ?_, fun b hnone => ?_, fun b hnone => ?_,
    fun hnone => ?_, fun j hj hidle => exec_restart_of_idle hp hj hidle, fun v hnot => ?_, fun hnot => ?_, fun hsec => ?_⟩
  · obtain ⟨t, ht⟩ := exec_stepInstr hi s
    rw [ht]
    exact whenEnabled_of_not hp (mt atStep_iff.mp hspc) t
  · exact whenEnabled_of_not hp (mt atStep_iff.mp hspc) _
  · exact whenEnabled_of_not hp (mt eq_of_beq hst) _
  · exact whenEnabled_of_not hp (by simpa using hq) _
  · exact whenEnabled_of_not hp (by simpa using hq) _
  · exact onActive_of_not hp (fun i hi => mt awaitsPointer_iff.mp (hnone i hi)) _
  · exact onActive_of_not hp (fun i hi => mt awaitsData_iff.mp (hnone i hi)) _
  · exact onActive_of_not hp (fun i hi => mt sendsData_iff.mp (hnone i hi)) _
  · refine whenEnabled_of_not hp (fun hen => hnot ?_) _
    obtain ⟨hat, hv⟩ := Bool.and_eq_true_iff.mp hen
    obtain ⟨hactive, hdata, hptr⟩ := awaitsDataAt_iff.mp hat
    obtain ⟨hst, hdir⟩ := awaitsData_iff.mp hdata
    exact ⟨hactive, hst, hdir, hptr, bne_iff_ne.mp hv⟩
  · refine whenEnabled_of_not hp (fun hat => hnot ?_) _
    obtain ⟨hactive, hdata, hptr⟩ := awaitsDataAt_iff.mp hat
    obtain ⟨hst, hdir⟩ := awaitsData_iff.mp hdata
    exact ⟨hactive, hst, hdir, hptr⟩
  · have habsent : ¬ s.cfg.present .secondary = true := by simp [Config.present, hsec]
    exact ⟨if_neg habsent, if_neg habsent, if_neg habsent, fun _ _ => if_neg habsent⟩

/-! ## What each event selects (the "selected by" column of R108) -/

theorem select_addr_of_match {s : State} {b : Byte} {i : Inst} (h : addrMatch s.cfg (addrField b) = some i) :
    select s (.addr b) = .op ⟨.A, [b]⟩ := by
  simp [select, h]

theorem select_seq_of_stepInstr {s : State} {pick : Byte} {i : Instr} (h : stepInstr s.seq.spc pick = some i) :
    select s (.seq pick) = .op (encode s.cfg i) := by
  rw [select, selectSeq]
  cases hspc : s.seq.spc <;> rw [hspc] at h <;> cases h <;> rfl

theorem wf_of_stepInstr {c : Config} {p : SeqStep} {pick : Byte} {i : Instr} (h : stepInstr p pick = some i) : i.wf c = true := by
  cases p <;> cases h <;> rfl

section Delivered

variable {s : State} {i : Inst} (hforeign : s.env.foreign = false) (hactive : activeInst s = some i)
include hforeign hactive

theorem select_rxByte_of_awaitsPointer (h : awaitsPointer (s.eng i) = true) (b : Byte) : select s (.rxByte b) = .op ⟨.P, [b]⟩ := by
  simp [select, selectRx, hforeign, hactive, h]

theorem select_rxByte_of_awaitsData (h : awaitsData (s.eng i) = true) (b : Byte) :
    select s (.rxByte b) =
      .op ⟨if i = .primary ∧ ((s.eng i).ptr = 11#8 ∨ (s.eng i).ptr = 31#8) then .MAPVALUE (s.eng i).ptr else .D, [b]⟩ := by
  simp only [select, selectRx, hforeign, hactive, awaitsPointer_of_awaitsData h, h, Bool.false_eq_true, if_false, if_true]
  split <;> rfl

theorem select_txReq_of_sendsData (h : sendsData (s.eng i) = true) : select s .txReq = .op ⟨.D, []⟩ := by
  simp [select, selectTx, hforeign, hactive, h]

end Delivered

/-! ## What each event makes a step run -/

section DataByte

variable {s : State} (hvalid : s.cfg.valid = true) (hp : s.powered = true) {b : Byte} (he : nextEvent s = .rxByte b)
  (hforeign : s.env.foreign = false)
include hvalid hp he hforeign

/-- R102: a nonzero data byte at offset 11 of the primary map is the update trigger. -/
theorem step_triggerLed (hactive : activeInst s = some .primary) (hdata : awaitsData s.eng1 = true) (hptr : s.eng1.ptr = 11#8)
    (hb : b ≠ 0#8) : step s = exec (.triggerLed b) (advance s) := by
  refine step_of_encoded hvalid hp he ?_ (bne_iff_ne.mpr hb)
  rw [select_rxByte_of_awaitsData hforeign hactive hdata]
  simp [State.eng, hptr, encode]

/-- R102: the byte 0xFF at offset 31 of the primary map is the shutdown trigger. -/
theorem step_triggerShutdown (hactive : activeInst s = some .primary) (hdata : awaitsData s.eng1 = true)
    (hptr : s.eng1.ptr = 31#8) (hb : b = 0xFF#8) : step s = exec .triggerShutdown (advance s) := by
  refine step_of_encoded hvalid hp he ?_ rfl
  rw [select_rxByte_of_awaitsData hforeign hactive hdata]
  simp [State.eng, hptr, hb, encode]

/-- R140 rows 4 and 5, at every offset: a command value is its data byte (`exec_triggerLed_eq_wdata`,
`exec_triggerShutdown_eq_wdata`). -/
theorem step_dataByte {i : Inst} (hactive : activeInst s = some i) (hdata : awaitsData (s.eng i) = true) :
    step s = exec (.wdata b) (advance s) := by
  have hsel := select_rxByte_of_awaitsData hforeign hactive hdata b
  by_cases hcommand : i = .primary ∧ ((s.eng i).ptr = 11#8 ∨ (s.eng i).ptr = 31#8)
  · rw [if_pos hcommand] at hsel
    obtain ⟨rfl, hptr | hptr⟩ := hcommand
    · by_cases hb : b = 0#8
      · exact step_of_op hvalid hp he hsel (by rw [hptr, decode_mapValue_trigger, if_pos hb])
      · exact (step_triggerLed hvalid hp he hforeign hactive hdata hptr hb).trans (exec_triggerLed_eq_wdata hactive hdata hptr hb)
    · by_cases hb : b = 0xFF#8
      · rw [step_triggerShutdown hvalid hp he hforeign hactive hdata hptr hb, hb]
        exact exec_triggerShutdown_eq_wdata hactive hdata hptr
      · exact step_of_op hvalid hp he hsel (by rw [hptr, decode_mapValue_shutdown, if_neg hb])
  · rw [if_neg hcommand] at hsel
    exact step_of_op hvalid hp he hsel rfl

end DataByte

/-- R92, R93: the address byte of a device that exists, by its direction bit. -/
theorem step_address {s : State} (hvalid : s.cfg.valid = true) (hp : s.powered = true) {b : Byte} (he : nextEvent s = .addr b)
    {i : Inst} (hi : s.cfg.present i = true) (haddr : addrField b = s.cfg.addr i) :
    step s = exec (if b.getLsbD 0 = true then .addrR i else .addrW i) (advance s) := by
  have hmatch : addrMatch s.cfg (addrField b) = some i := by rw [haddr, addrMatch_addr hvalid hi]
  rw [step_of_op hvalid hp he (select_addr_of_match hmatch) (decode_addr_of_match hmatch)]
  simp only [dirField_eq_R_iff]

theorem stepsAsSelected {s : State} (hvalid : s.cfg.valid = true) (hp : s.powered = true) : StepsAsSelected s where
  address _ _ he hi haddr := step_address hvalid hp he hi haddr
  pointerByte _ b he hforeign hactive hst hdir :=
    step_of_op hvalid hp he (select_rxByte_of_awaitsPointer hforeign hactive (awaitsPointer_iff.mpr ⟨hst, hdir⟩) b) rfl
  dataByte _ _ he hforeign hactive hst hdir := step_dataByte hvalid hp he hforeign hactive (awaitsData_iff.mpr ⟨hst, hdir⟩)
  commandByte _ he hforeign hactive hst hdir :=
    have hdata := awaitsData_iff.mpr ⟨hst, hdir⟩
    ⟨step_triggerLed hvalid hp he hforeign hactive hdata, step_triggerShutdown hvalid hp he hforeign hactive hdata⟩
  byteRequest _ he hforeign hactive hst hdir :=
    step_of_op hvalid hp he (select_txReq_of_sendsData hforeign hactive (sendsData_iff.mpr ⟨hst, hdir⟩)) rfl
  stop he := step_of_encoded hvalid hp he rfl rfl
  busErr he := step_of_encoded hvalid hp he rfl rfl
  arbLost he := step_of_encoded hvalid hp he rfl rfl
  scan _ _ he hi := step_of_encoded hvalid hp he (select_seq_of_stepInstr hi) (wf_of_stepInstr hi)
  wait _ he hspc := step_of_none hvalid hp he (by rw [select, selectSeq, hspc])
  fetchFrame he hst := step_of_encoded hvalid hp he (i := .ledFetch) (by rw [select, selectSer, hst]) rfl
  emitBit he hst hq := step_of_encoded hvalid hp he (i := .ledBit) (by simp [select, selectSer, hst, hq]) rfl
  endFrame he hst hq := step_of_encoded hvalid hp he (i := .ledDone) (by simp [select, selectSer, hst, hq]) rfl
  serializerIdle he hst := step_of_none hvalid hp he (by rw [select, selectSer, hst])
  answer _ he hspc := step_of_encoded hvalid hp he (if_pos hspc) rfl
  lateAnswer _ he hspc := step_of_none hvalid hp he (if_neg hspc)
  tick he := step_of_encoded hvalid hp he rfl rfl
  powerLoss he := step_of_encoded hvalid hp he rfl rfl
  reset he := step_of_encoded hvalid hp he rfl rfl
  pins _ he := step_of_pins hvalid hp he rfl
  setLed _ _ _ he := step_of_encoded hvalid hp he rfl rfl
  shutdown he := step_of_encoded hvalid hp he (i := .cmdShutdown) (by simp [select, encode]) rfl
  readAll he := step_of_encoded hvalid hp he (i := .cmdRead 0#8 32#8) rfl rfl
  readPart p m he := step_of_op hvalid hp he rfl (decode_countedRead s.cfg p m)
  line _ _ he hreject := step_of_reject hvalid hp he rfl hreject

/-- Settles O60: `step_of_op`, `advance_frame`, and a lemma for each kind of event (`stepsAsSelected`). -/
theorem stepRunsDecodedOperation : Obligations.StepRunsDecodedOperation :=
  fun s hvalid hp => ⟨fun _ _ hsel hdec => step_of_op hvalid hp rfl hsel hdec, advance_frame s, stepsAsSelected hvalid hp⟩

end Machine
end Sys2Proof

/-! # Proofs: the bus engine (41_bus_engine.md) -/

namespace Sys2Proof.Machine

/-! ## Address match, stop, repeated start, bus fault (R142, R143, R147 to R151) -/

theorem endActive_of_some {s : State} {j : Inst} (h : activeInst s = some j) : endActive s = endAndIdle s j := by
  rw [endActive, h]

theorem endActive_of_none {s : State} (h : activeInst s = none) : endActive s = s := by
  rw [endActive, h]

/-- The report of a transaction's end speaks of power-enable and the trace alone. -/
theorem burstReported_congr {s t u : State} {i : Inst} (hpower : u.powerEn = t.powerEn) (htrace : u.obs.trace = t.obs.trace)
    (h : BurstReported s t i) : BurstReported s u i := by
  simpa only [BurstReported, HookRun, hpower, htrace] using h

/-- Settles O1: the address match is `endActive`, which reports, and then the device's own state and direction. -/
theorem addressMatchAddressesInstance : Obligations.AddressMatchAddressesInstance := by
  intro s i d hp hi
  obtain ⟨hbus, hpower, htrace, hframe⟩ := addressMatch_frame s i d
  refine ⟨addressMatch s i d, ?_, ?_, ?_, fun j => ?_, fun j hj => ?_, fun j k => readByte_addressMatch s i j d k, hframe, hbus,
    fun hnone => ?_, fun j hactive => ?_⟩
  · cases d
    · exact exec_addrW_of hp hi
    · exact exec_addrR_of hp hi
  · rw [addressMatch_eng, if_pos rfl]
  · rw [addressMatch_eng, if_pos rfl]
  · rw [addressMatch_eng]
    split
    next hj => subst hj; exact ⟨rfl, rfl, rfl⟩
    next => split <;> exact ⟨rfl, rfl, rfl⟩
  · rw [addressMatch_eng, if_neg hj]
    split
    · exact ⟨rfl, .inr rfl⟩
    · exact ⟨rfl, .inl rfl⟩
  · rw [hpower, htrace, endActive_of_none hnone]
    exact ⟨rfl, rfl⟩
  · rw [endActive_of_some hactive] at hpower htrace
    exact burstReported_congr hpower htrace (endAndIdle_spec s j).1

/-- Settles O7: a stop with an active device is that device's `endAndIdle` (`stopAll_of_some`), and without one nothing. -/
theorem stopEndsTransaction : Obligations.StopEndsTransaction := by
  intro s hp one
  obtain ⟨hbus, hframe⟩ := stopAll_frame s
  refine ⟨stopAll s, exec_stop_of hp, fun j hj => ?_, readByte_stopAll s, hframe, hbus, stopAll_of_none, fun i hactive => ?_⟩
  · rw [stopAll_eng, if_pos hj]
  · rw [stopAll_of_some one hactive]
    exact (endAndIdle_spec s i).1

/-- Settles O8, by `endAndIdle_spec`. -/
theorem restartEndsActiveTransaction : Obligations.RestartEndsActiveTransaction := by
  intro s j hp hj hbusy
  obtain ⟨hreport, heng, hbus, hframe⟩ := endAndIdle_spec s j
  have hexec : exec (.restart j) s = .next (endAndIdle s j) := (if_pos hj).trans (whenEnabled_of hp (bne_iff_ne.mpr hbusy) _)
  refine ⟨endAndIdle s j, hexec, ?_, fun i hi => ?_, fun i k => readByte_endAndIdle s i j k, hframe, hbus, hreport⟩
  · rw [heng, if_pos rfl]
  · rw [heng, if_neg hi]

/-- Settles O9, by `hook_spec`. -/
theorem hookReportsBurst : Obligations.HookReportsBurst := by
  intro s i offset length hp hi
  obtain ⟨hrun, hbus, hframe⟩ := hook_spec s i offset length
  have hexec : exec (.wrhook i offset length) s = .next (hook s i offset length) := (if_pos hi).trans (whenEnabled_of hp rfl _)
  exact ⟨_, hexec, hrun, readByte_hook s i offset length, hframe, hbus⟩

/-- Settles O10: both faults are `raiseBusFault` with their kind. -/
theorem busFaultIdlesEngine : Obligations.BusFaultIdlesEngine := by
  intro s kind hp
  obtain ⟨heng, htrace, hframe, hbus⟩ := raiseBusFault_spec s kind
  refine ⟨raiseBusFault s kind, ?_, heng, readByte_raiseBusFault s kind, htrace, hframe, hbus⟩
  cases kind <;> exact whenEnabled_of hp rfl _

/-- With at most one device busy (R158), none is once the active transaction has ended. -/
theorem activeInst_endActive {s : State} (one : s.eng1.st = .idle ∨ s.eng2.st = .idle) : activeInst (endActive s) = none := by
  cases hnone : activeInst (endActive s) with
  | none => rfl
  | some j =>
    obtain ⟨hpresent, hbusy⟩ := activeInst_some hnone
    rw [endActive_cfg] at hpresent
    rw [endActive_eng] at hbusy
    split at hbusy
    next => exact absurd rfl hbusy
    next hj => exact absurd (activeInst_of_busy one hpresent hbusy) hj

/-- Ending the active transaction first changes nothing about an address match, which ends it itself (R148). -/
theorem addressMatch_endActive {s : State} (one : s.eng1.st = .idle ∨ s.eng2.st = .idle) (i : Inst) (d : Dir) :
    addressMatch (endActive s) i d = addressMatch s i d := by
  rw [addressMatch_eq, addressMatch_eq, endActive_of_none (activeInst_endActive one)]

/-- Settles O2: the stop is `endActive` (`stopAll_eq_endActive`), and `addressMatch_endActive`. -/
theorem repeatedStartIsStopThenMatch : Obligations.RepeatedStartIsStopThenMatch := by
  intro s u i one hstop
  obtain ⟨hp, -, rfl⟩ := whenEnabled_next hstop
  have hpowered : (stopAll s).powered = true := (busFrame_powered (busFrame_stopAll s)).trans hp
  have hmatch : ∀ d, addressMatch (stopAll s) i d = addressMatch s i d := by
    intro d
    rw [stopAll_eq_endActive one, addressMatch_endActive one]
  simp only [exec, execAddrW, execAddrR, whenEnabled, hp, hpowered, hmatch, stopAll_cfg, and_self]

/-! ## The bytes of a transaction (R144 to R146) -/

/-- Settles O3, by `selectRegister_spec`. -/
theorem pointerByteSetsPointer : Obligations.PointerByteSetsPointer := by
  intro s i b hp hactive hst hdir
  obtain ⟨heng, -, htrace, hbus, hframe⟩ := selectRegister_spec s i b
  have hexec : exec (.regsel b) s = .next (selectRegister s i b) :=
    onActive_of hp hactive (awaitsPointer_iff.mpr ⟨hst, hdir⟩) _
  refine ⟨_, hexec, ?_, fun j hj => ?_, fun j k => readByte_selectRegister s i j b k, hframe, htrace, hbus⟩
  · simp only [heng, if_true, hdir]
  · rw [heng, if_neg hj]

/-- Settles O4, by `receiveData_spec`. -/
theorem dataByteStoredAtPointer : Obligations.DataByteStoredAtPointer := by
  intro s i b hp hactive hst hdir
  obtain ⟨hbyte, heng, htrace, hbus, hframe⟩ := receiveData_spec s i b
  have hself := heng i
  rw [if_pos rfl] at hself
  refine ⟨_, exec_wdata_of hp hactive (awaitsData_iff.mpr ⟨hst, hdir⟩) b, hbyte, ?_, ?_, receiveData_ptr s i b, ?_, ?_,
    fun j hj => ?_, hframe, htrace, hbus⟩
  · rw [hself]
  · rw [hself, hdir]
  · rw [hself]
  · rw [hself]
  · rw [heng, if_neg hj]

/-- Settles O6, by `sendData_spec`. -/
theorem byteRequestReturnsByteAtPointer : Obligations.ByteRequestReturnsByteAtPointer := by
  intro s i hp hactive hst hdir
  obtain ⟨heng, -, htrace, hbus, hframe⟩ := sendData_spec s i
  have hself := heng i
  rw [if_pos rfl] at hself
  refine ⟨_, exec_rdata_of hp hactive (sendsData_iff.mpr ⟨hst, hdir⟩), hbus, ?_, ?_, fun j hj => ?_,
    fun j k => readByte_sendData s i j k, hframe, htrace⟩
  · rw [hself]
    exact satInc_toNat _
  · rw [hself]
  · rw [heng, if_neg hj]

/-- The pointer registers after a burst (R145): the pointer moves on, up to 255, and the count grows by the offsets below 32 that it
passed. -/
theorem receiveMany_eng (i : Inst) (ds : List Byte) (s : State) :
    ((receiveMany i ds s).eng i).ptr.toNat = min ((s.eng i).ptr.toNat + ds.length) 255 ∧
      ((receiveMany i ds s).eng i).blen = (s.eng i).blen +
        (if readOnly s.cfg i = false then min ((s.eng i).ptr.toNat + ds.length) 32 - min (s.eng i).ptr.toNat 32 else 0) ∧
      ((receiveMany i ds s).eng i).boff = (s.eng i).boff := by
  induction ds generalizing s with
  | nil =>
    have hlt := (s.eng i).ptr.isLt
    simp only [receiveMany, List.length_nil, Nat.add_zero, Nat.sub_self, ite_self, and_self, and_true]
    omega
  | cons b rest ih =>
    obtain ⟨hptr, hblen, hboff⟩ := ih (receiveData s i b)
    obtain ⟨-, heng, -⟩ := receiveData_spec s i b
    have hself := heng i
    rw [if_pos rfl] at hself
    rw [receiveData_ptr] at hptr hblen
    rw [receiveMany, List.length_cons]
    refine ⟨by omega, ?_, by rw [hboff, hself]⟩
    rw [hblen, receiveData_cfg, hself]
    cases readOnly s.cfg i with
    | true => simp
    | false =>
      simp only [and_true, if_true]
      split <;> omega

/-- Settles O11: a run of data bytes is `receiveMany` (`runInstrs_wdata`), whose bytes and registers are proved by induction on the burst
(`readByte_receiveMany`, `receiveMany_eng`). -/
theorem writeBurstFillsContiguousOffsets : Obligations.WriteBurstFillsContiguousOffsets := by
  intro s i ds hp hactive hst hdir
  exact ⟨_, runInstrs_wdata hp hactive (awaitsData_iff.mpr ⟨hst, hdir⟩) ds, readByte_receiveMany i ds s, receiveMany_eng i ds s⟩

/-! ## Read-only maps (R152) -/

section ReadOnly

variable {s : State} {j : Inst} (hro : readOnly s.cfg j = true)
include hro

theorem readByte_receiveMany_of_readOnly (i : Inst) (ds : List Byte) (k : Nat) :
    readByte (receiveMany i ds s) j k = readByte s j k := by
  rw [readByte_receiveMany, if_neg]
  rintro ⟨rfl, hwritable, -⟩
  simp [hro] at hwritable

theorem readByte_afterWrite_of_readOnly (i : Inst) (p : Byte) (ds : List Byte) (k : Nat) :
    readByte (afterWrite s i p ds) j k = readByte s j k := by
  rw [afterWrite, readByte_stopAll, readByte_receiveMany_of_readOnly (by rwa [openAt_cfg]), readByte_openAt]

end ReadOnly

/-- Settles O13: an operation of the engine that stores at all takes data bytes, one (`receiveMany` of a single byte) or those of a
write transaction (`afterWrite`), and none of them reaches a read-only map. -/
theorem readOnlyMapIsNotChangedByBus : Obligations.ReadOnlyMapIsNotChangedByBus := by
  intro s t i j k hbus hro h
  cases i with
  | wdata d =>
    obtain ⟨-, i, -, -, rfl⟩ := onActive_next h
    exact readByte_receiveMany_of_readOnly hro i [d] k
  | triggerLed d =>
    obtain ⟨-, -, rfl⟩ := whenEnabled_next h
    exact readByte_receiveMany_of_readOnly hro .primary [d] k
  | triggerShutdown =>
    obtain ⟨-, -, rfl⟩ := whenEnabled_next h
    exact readByte_receiveMany_of_readOnly hro .primary [s.cfg.shutdownSentinel] k
  | cmdSetLed r g b =>
    obtain ⟨-, -, rfl⟩ := whenEnabled_next h
    exact readByte_afterWrite_of_readOnly hro .primary 8#8 [r, g, b, 1#8] k
  | cmdShutdown =>
    obtain ⟨-, -, rfl⟩ := whenEnabled_next h
    exact readByte_afterWrite_of_readOnly hro .primary 31#8 [s.cfg.shutdownSentinel] k
  | msPublish _ | trigClear | adcStore _ | battEval | gpioRefresh | shdnAct | reset => cases hbus
  | _ => exact exec_readByte_of_storesNothing rfl h j k

/-! ## Events the engine ignores or refuses (R155, R156) -/

theorem step_of_refuse {s : State} (hvalid : s.cfg.valid = true) (hp : s.powered = true) {e : Event} (he : nextEvent s = e)
    {r : Refusal} (hsel : select s e = .refuse r) : step s = .refused r := by
  simp [step, fetch, hvalid, hp, he, hsel]

/-- Settles O15: in read direction the engine awaits neither a pointer nor data, and in write direction it sends nothing. -/
theorem unenabledBusEventsAreRefused : Obligations.UnenabledBusEventsAreRefused := by
  intro s i b hvalid hp hforeign hactive
  refine ⟨fun he hdir => step_of_refuse hvalid hp he ?_, fun he hdir => step_of_refuse hvalid hp he ?_⟩
  · simp [select, selectRx, hforeign, hactive, awaitsPointer, awaitsData, hdir]
  · simp [select, selectTx, hforeign, hactive, sendsData, hdir]

/-- With no device active a byte and a byte request select nothing, whosever they are. -/
theorem selectRx_of_no_active {s : State} (h : activeInst s = none) (b : Byte) : selectRx s b = .none := by
  simp [selectRx, h]

theorem selectTx_of_no_active {s : State} (h : activeInst s = none) : selectTx s = .none := by
  simp [selectTx, h]

/-- Settles O16: bytes select nothing, and a stop with nothing active does nothing (`stopAll_of_none`). -/
theorem eventsWhileIdleAreIgnored : Obligations.EventsWhileIdleAreIgnored := by
  intro s b hvalid hp hnone hevent
  refine ⟨?_, advance_frame s⟩
  rcases hevent with he | he | he
  · exact step_of_none hvalid hp he (selectRx_of_no_active hnone b)
  · exact step_of_none hvalid hp he (selectTx_of_no_active hnone)
  · have hidle : activeInst (advance s) = none := hnone
    rw [(stepsAsSelected hvalid hp).stop he, exec_stop_of (s := advance s) hp, stopAll_of_none hidle]

/-! ## The invariant of the block, in two parts

`BusInv` is what the engine and the maps must meet, one clause for both devices; `ScanInv` is what the serializer, the sequencer and
power-enable must meet. -/

/-- The part of the invariant about the maps and the engine registers, device by device. -/
structure BusInv (s : State) : Prop where
  maps : ∀ j, Memory.wf (resetByte s.cfg j) (s.map j)
  engines : ∀ j, EngineOk (readOnly s.cfg j) (s.eng j)
  oneActive : ∀ i j, j ≠ i → (s.eng i).st ≠ .idle → (s.eng j).st = .idle
  absent : ∀ j, s.cfg.present j = false → s.eng j = Engine.reset ∧ s.map j = []

/-- The part of the invariant about the configuration, the serializer, the sequencer and power-enable. -/
structure ScanInv (s : State) : Prop where
  valid : s.cfg.valid = true
  led : SerializerOk s.cfg s.led
  seq : SequencerOk s.cfg s.seq
  railDown : s.seq.hyst = 0 → s.powerEn = false

theorem blockInv_iff {s : State} : BlockInv s ↔ BusInv s ∧ ScanInv s := by
  constructor
  · rintro ⟨valid, map1, map2, one, absent, eng1, eng2, led, seq, rail⟩
    refine ⟨⟨?_, ?_, ?_, ?_⟩, ⟨valid, led, seq, rail⟩⟩
    · rintro (_ | _)
      · exact map1
      · exact map2
    · rintro (_ | _)
      · exact eng1
      · exact eng2
    · rintro (_ | _) (_ | _) hne hbusy
      · exact absurd rfl hne
      · exact one.resolve_left hbusy
      · exact one.resolve_right hbusy
      · exact absurd rfl hne
    · rintro (_ | _) hj
      · cases hj
      · exact absent hj
  · rintro ⟨⟨maps, engines, one, absent⟩, ⟨valid, led, seq, rail⟩⟩
    refine ⟨valid, maps .primary, maps .secondary, ?_, absent .secondary, engines .primary, engines .secondary, led, seq, rail⟩
    by_cases hidle : s.eng1.st = .idle
    · exact .inl hidle
    · exact .inr (one .primary .secondary nofun hidle)

/-! ## The engine's registers stay in order (R140, R145, R153) -/

theorem engineOk_registerSelect (ro : Bool) {e : Engine} (hdir : e.dir = .W) (b : Byte) :
    EngineOk ro { e with st := .registerSelect, ptr := b, boff := b, blen := 0 } :=
  ⟨nofun, nofun, fun _ => hdir, by simp, Nat.zero_le 32⟩

section EngineOk

variable {ro : Bool} {e : Engine} (h : EngineOk ro e)
include h

theorem EngineOk.setIdle : EngineOk ro { e with st := .idle } :=
  ⟨nofun, nofun, by simp, by simp, h.blenLe⟩

theorem EngineOk.setAddressed (d : Dir) : EngineOk ro { e with st := .addressed, dir := d } :=
  ⟨nofun, nofun, by simp, by simp, h.blenLe⟩

theorem EngineOk.sendByte (hdir : e.dir = .R) (p : Byte) : EngineOk ro { e with st := .readBurst, ptr := p } :=
  ⟨nofun, fun _ => hdir, by simp, by simp, h.blenLe⟩

/-- The stored bytes are still the contiguous offsets from the pointer byte on: the count grows exactly when the pointer passes an
offset below 32. -/
theorem EngineOk.receiveByte (hst : e.st = .registerSelect ∨ e.st = .writeBurst) :
    EngineOk ro
      { e with
        st := .writeBurst
        ptr := satInc e.ptr
        blen := if e.ptr.toNat < 32 ∧ ro = false then e.blen + 1 else e.blen } := by
  obtain ⟨hle, hblen⟩ := h.burst hst
  have hlt := e.ptr.isLt
  have hburst : e.boff.toNat ≤ min (e.ptr.toNat + 1) 255 ∧
      (if e.ptr.toNat < 32 ∧ ro = false then e.blen + 1 else e.blen) =
        if ro then 0 else min (min (e.ptr.toNat + 1) 255) 32 - min e.boff.toNat 32 := by
    refine ⟨by omega, ?_⟩
    rw [hblen]
    cases ro with
    | true => simp
    | false =>
      simp only [Bool.false_eq_true, if_false, and_true]
      split <;> omega
  refine ⟨nofun, nofun, fun _ => h.writeDir hst, fun _ => by rwa [satInc_toNat], ?_⟩
  simp only [hburst.2]
  split <;> omega

end EngineOk

/-! ## What keeps the engine's part of the invariant -/

theorem BusInv.not_busy_of_not_active {s : State} (h : BusInv s) {j : Inst} (hj : activeInst s ≠ some j) : (s.eng j).st = .idle := by
  by_contra hbusy
  cases hpresent : s.cfg.present j with
  | false => exact hbusy (by rw [(h.absent j hpresent).1]; rfl)
  | true =>
    have one : s.eng1.st = .idle ∨ s.eng2.st = .idle :=
      or_iff_not_imp_left.mpr fun hprimary => h.oneActive .primary .secondary nofun hprimary
    exact hj (activeInst_of_busy one hpresent hbusy)

/-- Devices gone idle, with everything else of theirs kept. -/
theorem BusInv.of_idled {s t : State} (h : BusInv s) (hcfg : t.cfg = s.cfg) (hmap : ∀ j, t.map j = s.map j)
    (heng : ∀ j, t.eng j = s.eng j ∨ t.eng j = { s.eng j with st := .idle }) : BusInv t where
  maps j := by rw [hcfg, hmap]; exact h.maps j
  engines j := by
    rw [hcfg]
    rcases heng j with he | he <;> rw [he]
    · exact h.engines j
    · exact (h.engines j).setIdle
  oneActive i j hne hbusy := by
    have hi : (s.eng i).st ≠ .idle := by
      rcases heng i with he | he <;> rw [he] at hbusy
      · exact hbusy
      · exact absurd rfl hbusy
    rcases heng j with he | he <;> rw [he]
    exact h.oneActive i j hne hi
  absent j hj := by
    rw [hcfg] at hj
    obtain ⟨hreset, hnil⟩ := h.absent j hj
    refine ⟨?_, (hmap j).trans hnil⟩
    rcases heng j with he | he <;> rw [he, hreset]
    rfl

/-- The registers and the map of one device that exists change, and no other is busy. -/
theorem BusInv.of_turn {s t : State} (h : BusInv s) {i : Inst} (hi : s.cfg.present i = true)
    (hothers : ∀ j, j ≠ i → (s.eng j).st = .idle) (hcfg : t.cfg = s.cfg)
    (hmaps : ∀ j, Memory.wf (resetByte t.cfg j) (t.map j)) (hmap : ∀ j, j ≠ i → t.map j = s.map j)
    (heng : ∀ j, j ≠ i → t.eng j = s.eng j) (hself : EngineOk (readOnly s.cfg i) (t.eng i)) : BusInv t where
  maps := hmaps
  engines j := by
    rw [hcfg]
    by_cases hj : j = i
    · rwa [hj]
    · rw [heng j hj]
      exact h.engines j
  oneActive i' j hne hbusy := by
    by_cases hi' : i' = i
    · rw [heng j (hi' ▸ hne)]
      exact hothers j (hi' ▸ hne)
    · rw [heng i' hi'] at hbusy
      exact absurd (hothers i' hi') hbusy
  absent j hj := by
    rw [hcfg] at hj
    have hne : j ≠ i := by
      rintro rfl
      simp [hi] at hj
    rw [heng j hne, hmap j hne]
    exact h.absent j hj

section EngineSteps

variable {s : State} (h : BusInv s)
include h

theorem busInv_endAndIdle (j : Inst) : BusInv (endAndIdle s j) := by
  obtain ⟨-, heng, -⟩ := endAndIdle_spec s j
  refine h.of_idled (endAndIdle_cfg s j) (endAndIdle_map s · j) fun i => ?_
  rw [heng]
  split
  next hi => exact .inr (by rw [hi])
  next => exact .inl rfl

theorem busInv_stopAll : BusInv (stopAll s) := by
  refine h.of_idled (stopAll_cfg s) (stopAll_map s) fun i => ?_
  rw [stopAll_eng]
  split
  · exact .inr rfl
  · exact .inl rfl

theorem busInv_raiseBusFault (kind : FaultKind) : BusInv (raiseBusFault s kind) :=
  h.of_idled rfl (fun j => by cases j <;> rfl) fun j => .inr ((raiseBusFault_spec s kind).1 j)

theorem busInv_hook (i : Inst) (offset : Byte) (length : Nat) : BusInv (hook s i offset length) := by
  obtain ⟨-, -, hframe⟩ := hook_spec s i offset length
  rw [hframe]
  exact h.of_idled rfl (fun j => by cases j <;> rfl) fun j => .inl (by cases j <;> rfl)

theorem busInv_endActive : BusInv (endActive s) := by
  unfold endActive
  split
  · exact busInv_endAndIdle h _
  · exact h

theorem endActive_idle (j : Inst) : ((endActive s).eng j).st = .idle := by
  rw [endActive_eng]
  split
  next => rfl
  next hj => exact h.not_busy_of_not_active hj

theorem busInv_addressMatch {i : Inst} (hi : s.cfg.present i = true) (d : Dir) : BusInv (addressMatch s i d) := by
  have hended := busInv_endActive h
  rw [addressMatch_eq]
  refine hended.of_turn (i := i) (by rwa [endActive_cfg]) (fun j _ => endActive_idle h j) (by simp)
    (fun j => by simpa using h.maps j) (fun j _ => by simp) (fun j hj => by simp [setEng_eng, hj]) ?_
  rw [respond_eng, setEng_eng_self]
  exact (hended.engines i).setAddressed d

section Active

variable {i : Inst} (hactive : activeInst s = some i)
include hactive

theorem BusInv.others_idle (j : Inst) (hj : j ≠ i) : (s.eng j).st = .idle :=
  h.oneActive i j hj (activeInst_some hactive).2

theorem busInv_selectRegister (hok : awaitsPointer (s.eng i) = true) (b : Byte) : BusInv (selectRegister s i b) := by
  obtain ⟨heng, hmap, -, -, hframe⟩ := selectRegister_spec s i b
  have hcfg : (selectRegister s i b).cfg = s.cfg := by rw [hframe]
  refine h.of_turn (activeInst_some hactive).1 (h.others_idle hactive) hcfg (fun j => by rw [hcfg, hmap]; exact h.maps j)
    (fun j _ => hmap j) (fun j hj => by rw [heng, if_neg hj]) ?_
  rw [heng, if_pos rfl]
  exact engineOk_registerSelect _ (awaitsPointer_iff.mp hok).2 b

theorem busInv_receiveData (hok : awaitsData (s.eng i) = true) (b : Byte) : BusInv (receiveData s i b) := by
  obtain ⟨-, heng, -⟩ := receiveData_spec s i b
  refine h.of_turn (activeInst_some hactive).1 (h.others_idle hactive) (receiveData_cfg s i b) (receiveData_wf h.maps i b)
    (fun j hj => receiveData_map_other s hj b) (fun j hj => by rw [heng, if_neg hj]) ?_
  rw [heng, if_pos rfl]
  exact (h.engines i).receiveByte (awaitsData_iff.mp hok).1

theorem busInv_sendData (hok : sendsData (s.eng i) = true) : BusInv (sendData s i) := by
  obtain ⟨heng, hmap, -⟩ := sendData_spec s i
  refine h.of_turn (activeInst_some hactive).1 (h.others_idle hactive) (sendData_cfg s i)
    (fun j => by rw [sendData_cfg, hmap]; exact h.maps j) (fun j _ => hmap j) (fun j hj => by rw [heng, if_neg hj]) ?_
  rw [heng, if_pos rfl]
  exact (h.engines i).sendByte (sendsData_iff.mp hok).2 _

end Active

end EngineSteps

theorem busInv_openAt {s : State} (h : BusInv s) {i : Inst} (hi : s.cfg.present i = true) (p : Byte) : BusInv (openAt s i p) := by
  refine busInv_selectRegister (busInv_addressMatch h hi .W) (activeInst_addressMatch hi .W) ?_ p
  rw [addressMatch_eng, if_pos rfl]
  rfl

theorem busInv_receiveMany {s : State} (h : BusInv s) {i : Inst} (hactive : activeInst s = some i)
    (hok : awaitsData (s.eng i) = true) (ds : List Byte) : BusInv (receiveMany i ds s) := by
  induction ds generalizing s with
  | nil => exact h
  | cons b rest ih =>
    exact ih (busInv_receiveData h hactive hok b) (activeInst_receiveData hactive b) (awaitsData_receiveData hok b)

theorem busInv_sendMany {s : State} (h : BusInv s) {i : Inst} (hactive : activeInst s = some i)
    (hok : sendsData (s.eng i) = true) (n : Nat) : BusInv (sendMany i n s) := by
  induction n generalizing s with
  | zero => exact h
  | succ n ih => exact ih (busInv_sendData h hactive hok) (activeInst_sendData hactive) (sendsData_sendData hok)

theorem busInv_afterWrite {s : State} (h : BusInv s) {i : Inst} (hi : s.cfg.present i = true) (p : Byte) (ds : List Byte) :
    BusInv (afterWrite s i p ds) := by
  refine busInv_stopAll (busInv_receiveMany (busInv_openAt h hi p) (activeInst_openAt hi p) ?_ ds)
  rw [openAt_eng]
  rfl

theorem busInv_afterRead {s : State} (h : BusInv s) {i : Inst} (hi : s.cfg.present i = true) (p : Byte) (n : Nat) :
    BusInv (afterRead s i p n) := by
  have hopen : (openAt s i p).cfg.present i = true := by rwa [openAt_cfg]
  refine busInv_stopAll (busInv_sendMany (busInv_addressMatch (busInv_openAt h hi p) hopen .R) (activeInst_addressMatch hopen .R) ?_ n)
  rw [addressMatch_eng, if_pos rfl]
  rfl

/-- An operation that checks its operand first and gives a next state has passed the check. -/
theorem cond_of_ite_next {t : State} {p : Prop} [Decidable p] {o : Host.Outcome State Fault Refusal} {r : Refusal}
    (h : (if p then o else .refused r) = .next t) : p := by
  by_contra hp
  rw [if_neg hp] at h
  cases h

/-- Every operation of the engine, and every host command, keeps the engine's part of the invariant. -/
theorem exec_busOp_keeps_busInv {s t : State} {i : Instr} (hbus : isBusOp i = true) (h : BusInv s) (hexec : exec i s = .next t) :
    BusInv t := by
  cases i with
  | addrW i | addrR i =>
    have hi := cond_of_ite_next hexec
    obtain rfl := ite_whenEnabled_next hexec
    exact busInv_addressMatch h hi _
  | regsel p =>
    obtain ⟨-, i, hactive, hok, rfl⟩ := onActive_next hexec
    exact busInv_selectRegister h hactive hok p
  | wdata d =>
    obtain ⟨-, i, hactive, hok, rfl⟩ := onActive_next hexec
    exact busInv_receiveData h hactive hok d
  | rdata =>
    obtain ⟨-, i, hactive, hok, rfl⟩ := onActive_next hexec
    exact busInv_sendData h hactive hok
  | stop =>
    obtain ⟨-, -, rfl⟩ := whenEnabled_next hexec
    exact busInv_stopAll h
  | restart j =>
    obtain rfl := ite_whenEnabled_next hexec
    exact busInv_endAndIdle h j
  | buserr | arblost =>
    obtain ⟨-, -, rfl⟩ := whenEnabled_next hexec
    exact busInv_raiseBusFault h _
  | wrhook i offset length =>
    obtain rfl := ite_whenEnabled_next hexec
    exact busInv_hook h i offset length
  | triggerLed v =>
    obtain ⟨-, hen, rfl⟩ := whenEnabled_next hexec
    obtain ⟨hat, -⟩ := Bool.and_eq_true_iff.mp hen
    obtain ⟨hactive, hok, -⟩ := awaitsDataAt_iff.mp hat
    exact busInv_receiveData h hactive hok v
  | triggerShutdown =>
    obtain ⟨-, hat, rfl⟩ := whenEnabled_next hexec
    obtain ⟨hactive, hok, -⟩ := awaitsDataAt_iff.mp hat
    exact busInv_receiveData h hactive hok _
  | cmdSetLed r g b =>
    obtain ⟨-, -, rfl⟩ := whenEnabled_next hexec
    exact busInv_afterWrite h rfl 8#8 [r, g, b, 1#8]
  | cmdShutdown =>
    obtain ⟨-, -, rfl⟩ := whenEnabled_next hexec
    exact busInv_afterWrite h rfl 31#8 [s.cfg.shutdownSentinel]
  | cmdRead p m =>
    obtain ⟨-, -, rfl⟩ := whenEnabled_next hexec
    exact busInv_afterRead h rfl p m.toNat
  | _ => cases hbus

/-! ## What the serializer, the sequencer and the environment can change -/

/-- All that an operation of the serializer, the sequencer or the environment but for reset can change: the primary map, kept in
canonical form, and the registers of those agents (R61, R108). -/
abbrev AgentFrame (s t : State) : Prop :=
  t = { s with map1 := t.map1, led := t.led, seq := t.seq, powerEn := t.powerEn, powered := t.powered, obs := t.obs } ∧
    (Memory.wf (resetByte s.cfg .primary) s.map1 → Memory.wf (resetByte s.cfg .primary) t.map1)

theorem agentFrame_refl (s : State) : AgentFrame s s := ⟨rfl, id⟩

theorem agentFrame_trans {s t u : State} (hst : AgentFrame s t) (htu : AgentFrame t u) : AgentFrame s u := by
  obtain ⟨hframe, hwf⟩ := hst
  obtain ⟨hframe', hwf'⟩ := htu
  rw [hframe] at hframe' hwf'
  exact ⟨hframe', fun h => hwf' (hwf h)⟩

/-- The sequencer's registers written (R39). -/
theorem agentFrame_setSeq (s : State) (q : Sequencer) : AgentFrame s { s with seq := q } := ⟨rfl, id⟩

theorem agentFrame_gotoStep (s : State) (p : SeqStep) : AgentFrame s (gotoStep s p) := ⟨rfl, id⟩

theorem agentFrame_mapStore (s : State) (k : Fin mapBytes) (v : Byte) : AgentFrame s (mapStore s .primary k v) :=
  ⟨rfl, fun h => Memory.wf_write h k.isLt v⟩

theorem agentFrame_memWriteByte (s : State) (off n v j : Nat) (h : off + n ≤ mapBytes) :
    AgentFrame s (memWriteByte s .primary off n v j h) := by
  unfold memWriteByte
  split
  · exact agentFrame_mapStore ..
  · exact agentFrame_refl s

theorem agentFrame_deassertPower (s : State) : AgentFrame s (deassertPower s) := by
  unfold deassertPower
  split
  · exact ⟨rfl, id⟩
  · exact agentFrame_refl s

theorem agentFrame_startLed (s : State) : AgentFrame s (startLed s).1 := by
  unfold startLed
  split
  · exact agentFrame_refl s
  · exact ⟨rfl, id⟩

theorem execPowerLoss_next {s t : State} (h : execPowerLoss s = .next t) : t = { s with powered := false } := by
  unfold execPowerLoss at h
  split at h
  · cases h
  · exact (whenEnabled_next h).2.2

theorem exec_agentFrame {s t : State} {i : Instr} (hbus : isBusOp i = false) (hreset : i ≠ .reset) (h : exec i s = .next t) :
    AgentFrame s t := by
  cases i <;> simp only [isBusOp, Bool.true_eq_false] at hbus
  case reset => exact absurd rfl hreset
  case ledStart n =>
    obtain rfl := ite_whenEnabled_next h
    exact agentFrame_startLed s
  case powerLoss =>
    obtain rfl := execPowerLoss_next h
    exact ⟨rfl, id⟩
  all_goals obtain ⟨-, -, rfl⟩ := whenEnabled_next h
  case ledFetch | ledBit | tick => exact ⟨rfl, id⟩
  case ledDone => split <;> exact ⟨rfl, id⟩
  case trigLoad | adcWait | shdnLoad => exact agentFrame_setSeq ..
  case msPublish pick =>
    split
    · exact agentFrame_setSeq ..
    · exact agentFrame_trans (agentFrame_memWriteByte ..) (agentFrame_setSeq ..)
  case trigAct =>
    split
    · exact agentFrame_trans (agentFrame_startLed s) (agentFrame_gotoStep ..)
    · exact agentFrame_gotoStep ..
  case trigClear => exact agentFrame_trans (agentFrame_mapStore ..) (agentFrame_gotoStep ..)
  case adcCheck => split <;> exact ⟨rfl, id⟩
  case adcStore pick => exact agentFrame_trans (agentFrame_memWriteByte ..) (agentFrame_setSeq ..)
  case battEval =>
    refine agentFrame_trans ?_ (agentFrame_mapStore ..)
    split
    · exact agentFrame_trans (agentFrame_setSeq ..) (agentFrame_deassertPower _)
    · exact agentFrame_setSeq ..
  case gpioRefresh => exact agentFrame_trans (agentFrame_setSeq ..) (agentFrame_mapStore ..)
  case shdnAct =>
    refine agentFrame_trans ?_ (agentFrame_gotoStep ..)
    split
    · exact agentFrame_trans (agentFrame_deassertPower s) (agentFrame_mapStore ..)
    · exact agentFrame_refl s

theorem agentFrame_cfg {s t : State} (h : AgentFrame s t) : t.cfg = s.cfg := (congrArg State.cfg h.1 :)

theorem exec_cfg {s t : State} {i : Instr} (h : exec i s = .next t) : t.cfg = s.cfg := by
  by_cases hreset : i = .reset
  · subst hreset
    cases h
    rfl
  · cases hbus : isBusOp i with
    | true => exact busFrame_cfg (exec_busFrame hbus h)
    | false => exact agentFrame_cfg (exec_agentFrame hbus hreset h)

/-- Settles O52: no operation changes the configuration (`exec_cfg`), and no turn without one changes more than the environment. -/
theorem configurationNeverChanges : Obligations.ConfigurationNeverChanges := by
  intro s t hstep
  rcases step_next hstep with ⟨i, -, hexec⟩ | ⟨u, hfetch, rfl⟩
  · have hcfg : (advance s).cfg = s.cfg := rfl
    rw [exec_cfg hexec, hcfg]
  · obtain ⟨-, hframe⟩ := fetch_idle hfetch
    rw [hframe]

theorem busInv_of_agentFrame {s t : State} (h : BusInv s) (hst : AgentFrame s t) : BusInv t := by
  have hcfg := agentFrame_cfg hst
  have hmap2 : t.map2 = s.map2 := (congrArg State.map2 hst.1 :)
  have heng : ∀ j, t.eng j = s.eng j := by
    intro j
    rw [hst.1]
    cases j <;> rfl
  obtain ⟨maps, engines, one, absent⟩ := h
  refine ⟨fun j => ?_, by simpa only [hcfg, heng], by simpa only [heng], fun j hj => ?_⟩
  · rw [hcfg]
    cases j with
    | primary => exact hst.2 (maps .primary)
    | secondary => rw [State.map, hmap2]; exact maps .secondary
  · rw [hcfg] at hj
    cases j with
    | primary => cases hj
    | secondary => rw [heng, State.map, hmap2]; exact absent .secondary hj

/-! ## What keeps the serializer in order (R37, R181 to R189) -/

theorem frameBits_length (o : ChannelOrder) (r g b : Byte) : (frameBits o r g b).length = 24 := by
  cases o <;> rfl

section SerializerOk

variable {c : Config} {l : Serializer} (h : SerializerOk c l)
include h

theorem SerializerOk.fetch (hst : l.st = .armed) {q : List Bool} (hq : q.length ≤ 24) :
    SerializerOk c { l with q := q, st := .shift } where
  busy := by simp [h.busy, hst]
  queue hne := absurd rfl hne
  queueLen := hq
  idx := h.idx
  idxBusy _ := h.idxBusy (by simp [hst])

theorem SerializerOk.bit (hst : l.st = .shift) (w : List Mark) : SerializerOk c { l with q := l.q.tail, wire := w } where
  busy := h.busy
  queue hne := absurd hst hne
  queueLen := by
    have hlen := h.queueLen
    simp only [List.length_tail]
    omega
  idx := h.idx
  idxBusy := h.idxBusy

theorem SerializerOk.nextLed (hst : l.st = .shift) (hq : l.q = []) (hidx : l.idx + 1 < c.nLeds) :
    SerializerOk c { l with idx := l.idx + 1, st := .armed } where
  busy := by simp [h.busy, hst]
  queue _ := hq
  queueLen := h.queueLen
  idx := Nat.le_of_lt hidx
  idxBusy _ := hidx

theorem SerializerOk.finish (hst : l.st = .shift) (hq : l.q = []) (w : List Mark) :
    SerializerOk c { l with idx := l.idx + 1, st := .idle, busy := false, wire := w } where
  busy := by simp
  queue _ := hq
  queueLen := h.queueLen
  idx := h.idxBusy (by simp [hst])
  idxBusy hne := absurd rfl hne

end SerializerOk

theorem serializerOk_startLed {s : State} (hleds : s.cfg.nLeds = 1) (h : SerializerOk s.cfg s.led) :
    SerializerOk s.cfg (startLed s).1.led := by
  unfold startLed
  split
  · exact h
  · exact ⟨by simp, by simp, by simp, by simp, by simp [hleds]⟩

@[simp] theorem gotoStep_led (s : State) (p : SeqStep) : (gotoStep s p).led = s.led := rfl

@[simp] theorem memWriteByte_led (s : State) (i : Inst) (off n v j : Nat) (h : off + n ≤ mapBytes) :
    (memWriteByte s i off n v j h).led = s.led := by
  rw [memWriteByte_frame]

theorem exec_keeps_serializerOk {s t : State} {i : Instr} (hbus : isBusOp i = false) (hreset : i ≠ .reset)
    (hleds : s.cfg.nLeds = 1) (h : SerializerOk s.cfg s.led) (hexec : exec i s = .next t) : SerializerOk s.cfg t.led := by
  cases i <;> simp only [isBusOp, Bool.true_eq_false] at hbus
  case reset => exact absurd rfl hreset
  case ledStart n =>
    obtain rfl := ite_whenEnabled_next hexec
    exact serializerOk_startLed hleds h
  case powerLoss =>
    obtain rfl := execPowerLoss_next hexec
    exact h
  all_goals obtain ⟨-, hen, rfl⟩ := whenEnabled_next hexec
  case ledFetch => exact h.fetch (eq_of_beq hen) (frameBits_length ..).le
  case ledBit =>
    obtain ⟨hst, -⟩ := Bool.and_eq_true_iff.mp hen
    exact h.bit (eq_of_beq hst) _
  case ledDone =>
    obtain ⟨hst, hq⟩ := Bool.and_eq_true_iff.mp hen
    split
    next hidx => exact h.nextLed (eq_of_beq hst) (List.isEmpty_iff.mp hq) hidx
    next => exact h.finish (eq_of_beq hst) (List.isEmpty_iff.mp hq) _
  case trigAct =>
    split
    · exact serializerOk_startLed hleds h
    · exact h
  case msPublish | adcCheck => split <;> simpa using h
  case battEval => simpa [apply_ite State.led] using h
  case shdnAct =>
    split
    · simpa [consume] using h
    · exact h
  all_goals simpa [consume] using h

/-! ## What keeps the sequencer in order (R28, R39, R202 to R214) -/

theorem setBit_lt {b : Byte} (hb : b.toNat < 32) {n : Nat} (hn : n < 5) (v : Bool) : (setBit b n v).toNat < 32 := by
  have hone : (1#8 <<< n).toNat < 2 ^ 5 := by
    rw [BitVec.toNat_shiftLeft, Nat.shiftLeft_eq, BitVec.toNat_ofNat]
    exact (Nat.mod_le _ _).trans_lt (by simpa using Nat.pow_lt_pow_right (by decide) hn)
  unfold setBit
  split
  · rw [BitVec.toNat_or]
    exact Nat.or_lt_two_pow (n := 5) hb hone
  · rw [BitVec.toNat_and]
    exact Nat.and_le_left.trans_lt hb

theorem refreshInputs_lt {inState : Byte} (h : inState.toNat < 32) (p : Pins) : (refreshInputs inState p).toNat < 32 := by
  have hkept : (inState &&& 0x10#8).toNat < 32 := by
    rw [BitVec.toNat_and]
    exact Nat.and_le_left.trans_lt h
  exact setBit_lt (setBit_lt (setBit_lt (setBit_lt hkept (by decide) _) (by decide) _) (by decide) _) (by decide) _

theorem nextHyst_le {hystInit hyst : Nat} (h : hyst ≤ hystInit) (low : Bool) : nextHyst hystInit hyst low ≤ hystInit := by
  unfold nextHyst
  split
  · exact Nat.zero_le _
  · split <;> omega

/-- The steps of the scan that neither store a multi-byte field nor wait for the converter (R201). -/
def isPlainStep : SeqStep → Bool
  | .msPublish => false
  | .adcStore => false
  | .adcWait => false
  | _ => true

/-- With no byte outstanding. -/
theorem sequencerOk_of_pend_nil {c : Config} {q : Sequencer} (hpend : q.pend = []) (hhyst : q.hyst ≤ c.hystInit)
    (hadc : q.adcPending = true ↔ q.spc = .adcWait) (hin : q.inState.toNat < 32) : SequencerOk c q :=
  ⟨hhyst, by simp [hpend], by simp [hpend], by simp [hpend], hadc, hin⟩

section SequencerOk

variable {c : Config} {q : Sequencer} (h : SequencerOk c q)
include h

theorem SequencerOk.pend_eq_nil (hms : q.spc ≠ .msPublish) (hadc : q.spc ≠ .adcStore) : q.pend = [] := by
  by_contra hne
  exact (h.pendAt hne).elim hms hadc

/-- From a plain step to one that does not wait for the converter. -/
theorem SequencerOk.move (hplain : isPlainStep q.spc = true) {q' : Sequencer} (hwait : q'.spc ≠ .adcWait)
    (hpend : q'.pend = q.pend) (hadc : q'.adcPending = q.adcPending) (hhyst : q'.hyst ≤ c.hystInit)
    (hin : q'.inState.toNat < 32) : SequencerOk c q' := by
  have hleft : ∀ {p}, isPlainStep p = false → q.spc ≠ p := by
    rintro p hp rfl
    simp [hplain] at hp
  refine sequencerOk_of_pend_nil (hpend.trans (h.pend_eq_nil (hleft rfl) (hleft rfl))) hhyst ?_ hin
  rw [hadc, h.adcPending]
  exact iff_of_false (hleft rfl) hwait

/-- After one byte store of a multi-byte field: the rest is outstanding at this step, or the scan goes on (R202, R208). -/
theorem SequencerOk.store {here next : SeqStep} {rest : List Nat} (hwait : q.spc ≠ .adcWait)
    (hhere : here = .msPublish ∨ here = .adcStore) (hnext : next ≠ .adcWait) (hrest : rest.Sublist [0, 1, 2, 3])
    (hrestAdc : here = .adcStore → rest.Sublist [0, 1]) :
    SequencerOk c { q with pend := rest, spc := if rest = [] then next else here } := by
  refine ⟨h.hyst, hrest, fun hne => ?_, fun hspc => ?_, ?_, h.inState⟩
  · simpa only [if_neg hne] using hhere
  · by_cases hnil : rest = []
    · rw [hnil]
      exact List.nil_sublist _
    · exact hrestAdc (by simpa only [if_neg hnil] using hspc)
  · have hleave : (if rest = [] then next else here) ≠ .adcWait := by
      split
      · exact hnext
      · rcases hhere with rfl | rfl <;> nofun
    exact h.adcPending.trans (iff_of_false hwait hleave)

end SequencerOk

@[simp] theorem startLed_seq (s : State) : (startLed s).1.seq = s.seq := by
  unfold startLed
  split <;> rfl

@[simp] theorem gotoStep_seq (s : State) (p : SeqStep) : (gotoStep s p).seq = { s.seq with spc := p } := rfl

theorem execBattEval_seq {s t : State} (h : execBattEval s = .next t) :
    t.seq = { s.seq with
      hyst := nextHyst s.cfg.hystInit s.seq.hyst (isLow s.cfg.adcLowThreshold s.seq.adcV)
      inState := setBatteryLow s.seq.inState (isLow s.cfg.adcLowThreshold s.seq.adcV)
      spc := .gpioRefresh } := by
  obtain ⟨-, -, rfl⟩ := whenEnabled_next h
  rw [mapStore_seq]
  split
  · exact deassertPower_seq _
  · rfl

theorem exec_keeps_sequencerOk {s t : State} {i : Instr} (hbus : isBusOp i = false) (hreset : i ≠ .reset)
    (h : SequencerOk s.cfg s.seq) (hexec : exec i s = .next t) : SequencerOk s.cfg t.seq := by
  cases i <;> simp only [isBusOp, Bool.true_eq_false] at hbus
  case reset => exact absurd rfl hreset
  case ledStart n =>
    obtain rfl := ite_whenEnabled_next hexec
    rwa [startLed_seq]
  case powerLoss =>
    obtain rfl := execPowerLoss_next hexec
    exact h
  case battEval =>
    obtain ⟨-, hen, -⟩ := whenEnabled_next hexec
    have hspc := atStep_iff.mp hen
    rw [execBattEval_seq hexec]
    exact h.move (by rw [hspc]; rfl) nofun rfl rfl (nextHyst_le h.hyst _) (setBit_lt h.inState (by decide) _)
  all_goals obtain ⟨-, hen, rfl⟩ := whenEnabled_next hexec
  case ledFetch | ledBit => exact h
  case ledDone => split <;> exact h
  case tick => exact ⟨h.hyst, h.pend, h.pendAt, h.pendAdc, h.adcPending, h.inState⟩
  all_goals have hspc := atStep_iff.mp hen
  case msPublish pick =>
    split
    next => exact ⟨h.hyst, List.Sublist.refl _, fun _ => .inl hspc, fun hadc => by simp [hspc] at hadc, h.adcPending, h.inState⟩
    next => exact h.store (by simp [hspc]) (.inl rfl) nofun (List.erase_sublist.trans h.pend) nofun
  case adcStore pick =>
    have hpend : (if s.seq.pend = [] then [0, 1] else s.seq.pend).Sublist [0, 1] := by
      split
      · exact List.Sublist.refl _
      · exact h.pendAdc hspc
    have hrest := fun j => (List.erase_sublist (a := j)).trans hpend
    exact h.store (by simp [hspc]) (.inr rfl) nofun ((hrest _).trans (by decide)) fun _ => hrest _
  case adcCheck =>
    split
    · exact sequencerOk_of_pend_nil (h.pend_eq_nil (by simp [hspc]) (by simp [hspc])) h.hyst (iff_of_true rfl rfl) h.inState
    · exact h.move (by rw [hspc]; rfl) nofun rfl rfl h.hyst h.inState
  case adcWait v =>
    exact sequencerOk_of_pend_nil (h.pend_eq_nil (by simp [hspc]) (by simp [hspc])) h.hyst (iff_of_false nofun nofun) h.inState
  case gpioRefresh =>
    exact h.move (by rw [hspc]; rfl) nofun rfl rfl h.hyst (refreshInputs_lt h.inState _)
  case trigAct =>
    split
    · rw [gotoStep_seq, startLed_seq]
      exact h.move (by rw [hspc]; rfl) nofun rfl rfl h.hyst h.inState
    · exact h.move (by rw [hspc]; rfl) nofun rfl rfl h.hyst h.inState
  case shdnAct =>
    have hseq : (if isSentinel s.cfg s.seq.t31 = true then consume (deassertPower s) offsetShutdown else s).seq = s.seq := by
      split <;> simp [consume]
    rw [gotoStep_seq, hseq]
    exact h.move (by rw [hspc]; rfl) nofun rfl rfl h.hyst h.inState
  all_goals exact h.move (by rw [hspc]; rfl) nofun rfl rfl h.hyst h.inState

/-! ## Every step keeps the invariant (R158, R189, R211, R221) -/

/-- Only a sample and reset write the hysteresis counter (R209, R300). -/
theorem exec_hyst {s t : State} {i : Instr} (heval : i ≠ .battEval) (hreset : i ≠ .reset) (h : exec i s = .next t) :
    t.seq.hyst = s.seq.hyst := by
  cases hbus : isBusOp i with
  | true => rw [(exec_busFrame hbus h).1]
  | false =>
    cases i <;> simp only [isBusOp, Bool.true_eq_false] at hbus
    case reset => exact absurd rfl hreset
    case battEval => exact absurd rfl heval
    case ledStart n =>
      obtain rfl := ite_whenEnabled_next h
      rw [startLed_seq]
    case powerLoss =>
      obtain rfl := execPowerLoss_next h
      rfl
    all_goals obtain ⟨-, -, rfl⟩ := whenEnabled_next h
    case ledDone | msPublish | adcCheck => split <;> rfl
    case trigAct => split <;> simp
    case shdnAct => rw [gotoStep_seq]; split <;> simp [consume]
    all_goals rfl

/-- The rail stays down once the counter is exhausted: only a sample exhausts it, which drops the rail, and only reset raises the
rail. -/
theorem exec_keeps_railDown {s t : State} {i : Instr} (hreset : i ≠ .reset) (h : s.seq.hyst = 0 → s.powerEn = false)
    (hexec : exec i s = .next t) (hzero : t.seq.hyst = 0) : t.powerEn = false := by
  by_cases heval : i = .battEval
  · subst heval
    rw [execBattEval_seq hexec] at hzero
    rw [execBattEval_powerEn hexec]
    split
    next => rfl
    next hc => exact h (by_contra fun hne => hc ⟨hne, hzero⟩)
  · have hdown := h ((exec_hyst heval hreset hexec).symm.trans hzero)
    cases exec_powerEnEffect hexec with
    | kept level => rw [level, hdown]
    | raised hi _ => exact absurd hi hreset
    | countedOut _ _ _ level | commanded _ _ level | hooked _ _ level => exact level

/-- Every operation keeps the invariant, whether or not the state selects it. -/
theorem exec_keeps_blockInv {s t : State} {i : Instr} (h : BlockInv s) (hexec : exec i s = .next t) : BlockInv t := by
  by_cases hreset : i = .reset
  · subst hreset
    cases hexec
    exact blockInv_resetWith h.valid s.env s.obs
  · obtain ⟨hengine, hscan⟩ := blockInv_iff.mp h
    obtain ⟨-, -, hleds⟩ := Config.valid_iff.mp h.valid
    have hcfg := exec_cfg hexec
    have hvalid : t.cfg.valid = true := by rw [hcfg]; exact h.valid
    have hrail := exec_keeps_railDown hreset h.railDown hexec
    cases hbus : isBusOp i with
    | true =>
      obtain ⟨hframe, -⟩ := exec_busFrame hbus hexec
      refine blockInv_iff.mpr ⟨exec_busOp_keeps_busInv hbus hengine hexec, hvalid, ?_, ?_, hrail⟩
      · rw [hframe]; exact h.led
      · rw [hframe]; exact h.seq
    | false =>
      refine blockInv_iff.mpr ⟨busInv_of_agentFrame hengine (exec_agentFrame hbus hreset hexec), hvalid, ?_, ?_, hrail⟩
      · rw [hcfg]; exact exec_keeps_serializerOk hbus hreset hleds h.led hexec
      · rw [hcfg]; exact exec_keeps_sequencerOk hbus hreset h.seq hexec

/-- The invariant does not read the environment. -/
theorem blockInv_setEnv {s : State} (h : BlockInv s) (e : Env) : BlockInv { s with env := e } :=
  ⟨h.valid, h.map1, h.map2, h.oneActive, h.absent, h.eng1, h.eng2, h.led, h.seq, h.railDown⟩

/-- Settles O56: a step is an operation (`exec_keeps_blockInv`) on the state whose event is taken out, or changes only the environment. -/
theorem stepKeepsInvariant : Obligations.StepKeepsInvariant := by
  intro s t h hstep
  rcases step_next hstep with ⟨i, -, hexec⟩ | ⟨u, hfetch, rfl⟩
  · have hadvance : BlockInv (advance s) := blockInv_setEnv h _
    exact exec_keeps_blockInv hadvance hexec
  · obtain ⟨-, hframe⟩ := fetch_idle hfetch
    rw [hframe]
    exact blockInv_setEnv h _

/-! ## Which steps are refused (R155, R220) -/

section EngineEnabled

variable {ro : Bool} {e : Engine} (h : EngineOk ro e) (hbusy : e.st ≠ .idle)
include h hbusy

/-- A busy engine in write direction takes every byte. -/
theorem EngineOk.awaits_of_write (hdir : e.dir = .W) : awaitsPointer e = true ∨ awaitsData e = true := by
  cases hst : e.st with
  | idle => exact absurd hst hbusy
  | error => exact absurd hst h.noError
  | readBurst => simp [h.readDir hst] at hdir
  | addressed => exact .inl (awaitsPointer_iff.mpr ⟨hst, hdir⟩)
  | registerSelect => exact .inr (awaitsData_iff.mpr ⟨.inl hst, hdir⟩)
  | writeBurst => exact .inr (awaitsData_iff.mpr ⟨.inr hst, hdir⟩)

/-- A busy engine in read direction answers every byte request. -/
theorem EngineOk.sends_of_read (hdir : e.dir = .R) : sendsData e = true := by
  cases hst : e.st with
  | idle => exact absurd hst hbusy
  | error => exact absurd hst h.noError
  | registerSelect => simp [h.writeDir (.inl hst)] at hdir
  | writeBurst => simp [h.writeDir (.inr hst)] at hdir
  | addressed => exact sendsData_iff.mpr ⟨.inl hst, hdir⟩
  | readBurst => exact sendsData_iff.mpr ⟨.inr hst, hdir⟩

end EngineEnabled

/-- The two kinds of input that are not enabled, each with the name of its refusal. -/
inductive UnenabledInput (s : State) : Refusal → Prop where
  | byteReceived (own : s.env.foreign = false) {i : Inst} (active : activeInst s = some i) {b : Byte} (event : nextEvent s = .rxByte b)
      (reading : (s.eng i).dir = .R) : UnenabledInput s .unenabledEvent
  | byteRequested (own : s.env.foreign = false) {i : Inst} (active : activeInst s = some i) (event : nextEvent s = .txReq)
      (writing : (s.eng i).dir = .W) : UnenabledInput s .unenabledEvent
  | supplyLost (event : nextEvent s = .powerLoss) (railUp : s.powerEn = true) : UnenabledInput s .supplyHeld

theorem unenabledInput_iff {s : State} {r : Refusal} :
    UnenabledInput s r ↔
      (r = .unenabledEvent ∧ s.env.foreign = false ∧ ∃ i, activeInst s = some i ∧
        (((∃ b, nextEvent s = .rxByte b) ∧ (s.eng i).dir = .R) ∨ (nextEvent s = .txReq ∧ (s.eng i).dir = .W))) ∨
      (r = .supplyHeld ∧ nextEvent s = .powerLoss ∧ s.powerEn = true) := by
  constructor
  · rintro (⟨own, active, event, reading⟩ | ⟨own, active, event, writing⟩ | ⟨event, railUp⟩)
    · exact .inl ⟨rfl, own, _, active, .inl ⟨⟨_, event⟩, reading⟩⟩
    · exact .inl ⟨rfl, own, _, active, .inr ⟨event, writing⟩⟩
    · exact .inr ⟨rfl, event, railUp⟩
  · rintro (⟨rfl, own, i, active, ⟨⟨b, event⟩, reading⟩ | ⟨event, writing⟩⟩ | ⟨rfl, event, railUp⟩)
    · exact .byteReceived own active event reading
    · exact .byteRequested own active event writing
    · exact .supplyLost event railUp

section Powered

variable {s : State} (hvalid : s.cfg.valid = true) (hp : s.powered = true)
include hvalid hp

theorem step_of_unenabledInput {r : Refusal} (h : UnenabledInput s r) : step s = .refused r := by
  cases h with
  | byteReceived own active event reading => exact (unenabledBusEventsAreRefused s _ _ hvalid hp own active).1 event reading
  | byteRequested own active event writing => exact (unenabledBusEventsAreRefused s _ 0#8 hvalid hp own active).2 event writing
  | supplyLost event railUp =>
    have hpower : ((advance s).powered && (advance s).powerEn) = true := Bool.and_eq_true_iff.mpr ⟨hp, railUp⟩
    exact ((stepsAsSelected hvalid hp).powerLoss event).trans (if_pos hpower)

/-- A line of host bytes is a command, which runs, or is taken as its bus events (R105). -/
theorem step_txn_next {bs : List Byte} (he : nextEvent s = .txn bs) : ∃ t, step s = .next t := by
  cases hdec : decode s.cfg ⟨.TXN, bs⟩ with
  | error q => exact ⟨_, step_of_reject hvalid hp he rfl hdec⟩
  | ok i =>
    rw [step_of_op hvalid hp he rfl hdec]
    obtain ⟨r, g, b, rfl⟩ | rfl | ⟨p, m, rfl⟩ := decodeTxn_ok hdec
    all_goals exact ⟨_, whenEnabled_of (s := advance s) hp rfl _⟩

theorem step_addr_next {b : Byte} (he : nextEvent s = .addr b) : ∃ t, step s = .next t := by
  cases hmatch : addrMatch s.cfg (addrField b) with
  | none => exact ⟨_, step_of_none hvalid hp he (select_addr_of_no_match hmatch)⟩
  | some i =>
    have hpresent : (advance s).cfg.present i = true := addrMatch_present hmatch
    rw [step_of_op hvalid hp he (select_addr_of_match hmatch) (decode_addr_of_match hmatch)]
    split
    · exact ⟨_, exec_addrR_of (s := advance s) hp hpresent⟩
    · exact ⟨_, exec_addrW_of (s := advance s) hp hpresent⟩

/-- The sequencer's turn runs the step that `spc` names, which is enabled, or waits for the converter. -/
theorem step_seq_next {pick : Byte} (he : nextEvent s = .seq pick) : ∃ t, step s = .next t := by
  cases hi : stepInstr s.seq.spc pick with
  | none =>
    have hwait : s.seq.spc = .adcWait := by
      cases hspc : s.seq.spc <;> rw [hspc] at hi <;> simp [stepInstr] at hi
    exact ⟨_, (stepsAsSelected hvalid hp).wait pick he hwait⟩
  | some i =>
    obtain ⟨t, ht⟩ := exec_stepInstr hi (advance s)
    have hat : atStep (advance s) s.seq.spc = true := atStep_iff.mpr rfl
    exact ⟨t, ((stepsAsSelected hvalid hp).scan pick i he hi).trans (ht.trans (whenEnabled_of (s := advance s) hp hat t))⟩

/-- The serializer's turn runs the operation of its state, which is enabled, or is idle. -/
theorem step_ser_next (he : nextEvent s = .ser) : ∃ t, step s = .next t := by
  have hsel := stepsAsSelected hvalid hp
  cases hst : s.led.st with
  | idle => exact ⟨_, hsel.serializerIdle he hst⟩
  | armed =>
    exact ⟨_, (hsel.fetchFrame he hst).trans (whenEnabled_of (s := advance s) hp (beq_iff_eq.mpr hst) _)⟩
  | shift =>
    by_cases hq : s.led.q = []
    · exact ⟨_, (hsel.endFrame he hst hq).trans (whenEnabled_of (s := advance s) hp (by simp [advance, hst, hq]) _)⟩
    · exact ⟨_, (hsel.emitBit he hst hq).trans (whenEnabled_of (s := advance s) hp (by simp [advance, hst, hq]) _)⟩

end Powered

/-- A powered block that meets the invariant takes every event but the ones of `UnenabledInput`. -/
theorem step_next_or_unenabledInput {s : State} (h : BlockInv s) (hp : s.powered = true) :
    (∃ t, step s = .next t) ∨ ∃ r, UnenabledInput s r := by
  have hvalid := h.valid
  have hsel := stepsAsSelected hvalid hp
  have hengine : BusInv s := (blockInv_iff.mp h).1
  cases he : nextEvent s with
  | addr b => exact .inl (step_addr_next hvalid hp he)
  | rxByte b =>
    cases hforeign : s.env.foreign with
    | true => exact .inl ⟨_, step_of_none hvalid hp he (selectRx_of_foreign hforeign b)⟩
    | false =>
      cases hactive : activeInst s with
      | none => exact .inl ⟨_, step_of_none hvalid hp he (selectRx_of_no_active hactive b)⟩
      | some i =>
        cases hdir : (s.eng i).dir with
        | R => exact .inr ⟨_, .byteReceived hforeign hactive he hdir⟩
        | W =>
          left
          rcases (hengine.engines i).awaits_of_write (activeInst_some hactive).2 hdir with hok | hok
          · have hst := (awaitsPointer_iff.mp hok).1
            exact ⟨_, (hsel.pointerByte i b he hforeign hactive hst hdir).trans (onActive_of (s := advance s) hp hactive hok _)⟩
          · exact ⟨_, (step_dataByte hvalid hp he hforeign hactive hok).trans (exec_wdata_of (s := advance s) hp hactive hok b)⟩
  | txReq =>
    cases hforeign : s.env.foreign with
    | true => exact .inl ⟨_, step_of_none hvalid hp he (selectTx_of_foreign hforeign)⟩
    | false =>
      cases hactive : activeInst s with
      | none => exact .inl ⟨_, step_of_none hvalid hp he (selectTx_of_no_active hactive)⟩
      | some i =>
        cases hdir : (s.eng i).dir with
        | W => exact .inr ⟨_, .byteRequested hforeign hactive he hdir⟩
        | R =>
          have hok := (hengine.engines i).sends_of_read (activeInst_some hactive).2 hdir
          have hst := (sendsData_iff.mp hok).1
          exact .inl ⟨_, (hsel.byteRequest i he hforeign hactive hst hdir).trans (exec_rdata_of (s := advance s) hp hactive hok)⟩
  | stop => exact .inl ⟨_, (hsel.stop he).trans (exec_stop_of (s := advance s) hp)⟩
  | busErr => exact .inl ⟨_, (hsel.busErr he).trans (whenEnabled_of (s := advance s) hp rfl _)⟩
  | arbLost => exact .inl ⟨_, (hsel.arbLost he).trans (whenEnabled_of (s := advance s) hp rfl _)⟩
  | seq pick => exact .inl (step_seq_next hvalid hp he)
  | ser => exact .inl (step_ser_next hvalid hp he)
  | tick => exact .inl ⟨_, (hsel.tick he).trans (whenEnabled_of (s := advance s) hp rfl _)⟩
  | adcDone v =>
    left
    by_cases hspc : s.seq.spc = .adcWait
    · have hat : atStep (advance s) .adcWait = true := atStep_iff.mpr hspc
      exact ⟨_, (hsel.answer v he hspc).trans (whenEnabled_of (s := advance s) hp hat _)⟩
    · exact ⟨_, hsel.lateAnswer v he hspc⟩
  | pin p => exact .inl ⟨_, hsel.pins p he⟩
  | powerLoss =>
    cases hrail : s.powerEn with
    | true => exact .inr ⟨_, .supplyLost he hrail⟩
    | false =>
      have hdown : ¬ ((advance s).powered && (advance s).powerEn) = true := by simp [hrail]
      exact .inl ⟨_, (hsel.powerLoss he).trans ((if_neg hdown).trans (whenEnabled_of (s := advance s) hp rfl _))⟩
  | reset => exact .inl ⟨_, hsel.reset he⟩
  | txn bs => exact .inl (step_txn_next hvalid hp he)

/-- R42: without supply every event is a step. -/
theorem step_next_of_unpowered {s : State} (hvalid : s.cfg.valid = true) (hs : s.powered = false) : ∃ t, step s = .next t := by
  by_cases he : nextEvent s = .reset
  · exact ⟨_, by rw [step, fetch_reset hvalid he]; rfl⟩
  · obtain ⟨t, ht⟩ := fetch_of_unpowered hs hvalid he
    exact ⟨t, by rw [step, ht]⟩

/-- Settles O55: an input of `UnenabledInput` is refused (`step_of_unenabledInput`), and every other one is a step
(`step_next_or_unenabledInput`, `step_next_of_unpowered`). -/
theorem stepRefusesOnlyUnenabledInputs : Obligations.StepRefusesOnlyUnenabledInputs := by
  intro s r h
  rw [← unenabledInput_iff]
  constructor
  · intro hrefused
    have hnext : ¬ ∃ t, step s = .next t := by
      rintro ⟨t, ht⟩
      rw [hrefused] at ht
      cases ht
    have hp : s.powered = true := by
      by_contra hs
      exact hnext (step_next_of_unpowered h.valid (Bool.not_eq_true _ ▸ hs))
    obtain ⟨r', hr'⟩ := (step_next_or_unenabledInput h hp).resolve_left hnext
    rw [step_of_unenabledInput h.valid hp hr'] at hrefused
    cases hrefused
    exact ⟨hp, hr'⟩
  · rintro ⟨hp, hr⟩
    exact step_of_unenabledInput h.valid hp hr

end Sys2Proof.Machine

/-! # Proofs: the LED serializer (42_led_serializer.md) -/

namespace Sys2Proof.Machine

/-! ## The bits of a frame (R103, R104) -/

@[simp] theorem bitsMsbFirst_length (b : Byte) : (bitsMsbFirst b).length = 8 := by
  simp [bitsMsbFirst]

theorem bitsMsbFirst_getElem? (b : Byte) {m : Nat} (hm : m < 8) : (bitsMsbFirst b)[m]? = some (b.getLsbD (7 - m)) := by
  simp [bitsMsbFirst, List.getElem?_range hm]

/-- Bytes written out bit by bit: bit `m` of byte `n` stands at `8 * n + m`. -/
theorem flatMap_bitsMsbFirst_getElem? (bs : List Byte) (n : Nat) {m : Nat} (hm : m < 8) :
    (bs.flatMap bitsMsbFirst)[8 * n + m]? = bs[n]?.map fun b => b.getLsbD (7 - m) := by
  induction bs generalizing n with
  | nil => simp
  | cons b bs ih =>
    rw [List.flatMap_cons]
    cases n with
    | zero =>
      rw [List.getElem?_append_left (by simpa using hm), Nat.mul_zero, Nat.zero_add, bitsMsbFirst_getElem? b hm]
      rfl
    | succ n =>
      rw [List.getElem?_append_right (by simp; omega), bitsMsbFirst_length, show 8 * (n + 1) + m - 8 = 8 * n + m by omega, ih,
        List.getElem?_cons_succ]

/-- The channel order permutes the three offsets as it permutes their bytes (R103, R184). -/
theorem permute_eq_map_wireOffsets (o : ChannelOrder) (f : Nat → Byte) : permute o (f 8) (f 9) (f 10) = (wireOffsets o).map f := by
  cases o <;> rfl

theorem wireOffsets_length (o : ChannelOrder) : (wireOffsets o).length = 3 := by
  cases o <;> rfl

/-- The frame that the map holds now, in wire order (R183). -/
def mapFrame (s : State) : List Bool :=
  frameBits s.cfg.channelOrder (readByte s .primary 8) (readByte s .primary 9) (readByte s .primary 10)

theorem mapFrame_length (s : State) : (mapFrame s).length = 24 := frameBits_length ..

theorem mapFrame_getElem? (s : State) {n m : Nat} (hn : n < 3) (hm : m < 8) :
    (mapFrame s)[8 * n + m]? =
      some ((readByte s .primary ((wireOffsets s.cfg.channelOrder).getD n 0)).getLsbD (7 - m)) := by
  have hlen : n < (wireOffsets s.cfg.channelOrder).length := by rwa [wireOffsets_length]
  rw [mapFrame, frameBits, flatMap_bitsMsbFirst_getElem? _ _ hm, permute_eq_map_wireOffsets _ (readByte s .primary), List.getElem?_map,
    List.getElem?_eq_getElem hlen, List.getD_eq_getElem _ _ hlen]
  rfl

theorem symbolOf_eq_ite (x : Bool) : symbolOf x = if x then .sym1 else .sym0 := by
  cases x <;> rfl

/-! ## What each operation of the serializer gives (R181 to R186) -/

/-- The state with the map's frame in the queue (R183). -/
def afterFetch (s : State) : State := { s with led := { s.led with q := mapFrame s, st := .shift } }

/-- The state after bit `x` has gone onto the wire and `rest` is left in the queue (R185). -/
def afterBit (s : State) (x : Bool) (rest : List Bool) : State :=
  driveWire { s with led := { s.led with q := rest } } (symbolOf x)

/-- The state after the latch gap, which ends the transmission (R186). -/
def afterLatch (s : State) : State :=
  driveWire { s with led := { s.led with idx := s.led.idx + 1, st := .idle, busy := false } } .latch

theorem exec_ledStart_of_ne_one (s : State) {n : Nat} (hn : n ≠ 1) : exec (.ledStart n) s = .refused .badLedCount := if_neg hn

section SerializerOps

variable {s : State} (hp : s.powered = true)
include hp

theorem exec_ledStart_one : exec (.ledStart 1) s = .next (startLed s).1 := whenEnabled_of hp rfl _

theorem exec_ledFetch_of (hst : s.led.st = .armed) : exec .ledFetch s = .next (afterFetch s) :=
  whenEnabled_of hp (beq_iff_eq.mpr hst) _

theorem exec_ledBit_of (hst : s.led.st = .shift) {x : Bool} {rest : List Bool} (hq : s.led.q = x :: rest) :
    exec .ledBit s = .next (afterBit s x rest) := by
  rw [exec, execLedBit, hq]
  exact whenEnabled_of hp (by simp [hst]) _

section EmptyQueue

variable (hst : s.led.st = .shift) (hq : s.led.q = [])
include hst hq

theorem exec_ledDone_of_more (hmore : s.led.idx + 1 < s.cfg.nLeds) :
    exec .ledDone s = .next { s with led := { s.led with idx := s.led.idx + 1, st := .armed } } := by
  rw [exec, execLedDone, if_pos hmore]
  exact whenEnabled_of hp (by simp [hst, hq]) _

theorem exec_ledDone_of_last (hlast : ¬ s.led.idx + 1 < s.cfg.nLeds) : exec .ledDone s = .next (afterLatch s) := by
  rw [exec, execLedDone, if_neg hlast]
  exact whenEnabled_of hp (by simp [hst, hq]) _

end EmptyQueue

end SerializerOps

/-- Settles O18: the two cases of `startLed_spec`, and the count that is checked before. -/
theorem ledStartArmsOrIsRejected : Obligations.LedStartArmsOrIsRejected := by
  intro s n hp
  have hexec := exec_ledStart_one hp
  obtain ⟨hbusy, hfree⟩ := startLed_spec s
  refine ⟨fun h => ?_, fun h => ?_, exec_ledStart_of_ne_one s⟩
  · rw [hfree h] at hexec
    exact ⟨_, hexec, hfree h, rfl, fun j k => exec_readByte_of_storesNothing rfl hexec j k, rfl⟩
  · rw [hbusy h] at hexec
    exact ⟨hexec, hbusy h⟩

/-- Settles O19: the queue after the fetch is `mapFrame`. -/
theorem ledFetchQueuesFrame : Obligations.LedFetchQueuesFrame := by
  intro s hp hst
  have hexec := exec_ledFetch_of hp hst
  exact ⟨_, hexec, mapFrame_length s, fun n m hn hm => mapFrame_getElem? s hn hm, rfl,
    fun j k => exec_readByte_of_storesNothing rfl hexec j k, rfl⟩

/-- Settles O20: `exec_ledBit_of`, with the symbol of the bit written out. -/
theorem ledBitEmitsHead : Obligations.LedBitEmitsHead := by
  intro s x rest hp hst hq
  have hexec := exec_ledBit_of hp hst hq
  rw [← symbolOf_eq_ite]
  exact ⟨_, hexec, rfl, rfl, rfl, fun j k => exec_readByte_of_storesNothing rfl hexec j k, rfl⟩

/-- Settles O21: `exec_ledDone_of_more` before the last LED, `exec_ledDone_of_last` at it. -/
theorem ledDoneEndsFrame : Obligations.LedDoneEndsFrame := by
  intro s hp hst hq
  by_cases hmore : s.led.idx + 1 < s.cfg.nLeds
  · have hexec := exec_ledDone_of_more hp hst hq hmore
    exact ⟨_, hexec, fun _ => ⟨rfl, rfl⟩, fun hlast => absurd hmore hlast, rfl,
      fun j k => exec_readByte_of_storesNothing rfl hexec j k, rfl⟩
  · have hexec := exec_ledDone_of_last hp hst hq hmore
    exact ⟨_, hexec, fun h => absurd h hmore, fun _ => ⟨rfl, rfl⟩, rfl,
      fun j k => exec_readByte_of_storesNothing rfl hexec j k, rfl⟩

/-! ## A whole transmission (R180) -/

/-- The state once the queue is empty and these marks stand on the wire and the trace (R185). -/
def afterShift (s : State) (marks : List Mark) : State :=
  { s with
    led := { s.led with q := [], wire := s.led.wire ++ marks }
    obs := { s.obs with trace := s.obs.trace ++ marks.map .led } }

theorem afterShift_nil {s : State} (hq : s.led.q = []) : afterShift s [] = s := by
  simp [afterShift, ← hq]

theorem afterShift_afterBit (s : State) (x : Bool) (rest : List Bool) (marks : List Mark) :
    afterShift (afterBit s x rest) marks = afterShift s (symbolOf x :: marks) := by
  simp [afterShift, afterBit, driveWire_spec]

/-- As many bits as the queue holds: each goes onto the wire as its symbol, in order. -/
theorem runInstrs_ledBits {s : State} (hp : s.powered = true) (hst : s.led.st = .shift) {q : List Bool} (hq : s.led.q = q) :
    runInstrs (List.replicate q.length .ledBit) s = .next (afterShift s (q.map symbolOf)) := by
  induction q generalizing s with
  | nil => rw [List.map_nil, afterShift_nil hq]; rfl
  | cons x rest ih =>
    have hrest := ih (s := afterBit s x rest) hp hst rfl
    rw [List.length_cons, List.replicate_succ, runInstrs_cons_of (exec_ledBit_of hp hst hq), hrest, afterShift_afterBit, List.map_cons]

/-- The state after a whole transmission of the one LED: the symbols of the map's frame, then the latch gap. -/
def afterTransmission (s : State) : State := afterLatch (afterShift (afterFetch s) ((mapFrame s).map symbolOf))

theorem runInstrs_transmission {s : State} (hp : s.powered = true) (hst : s.led.st = .armed) (hlast : ¬ s.led.idx + 1 < s.cfg.nLeds) :
    runInstrs ([.ledFetch] ++ List.replicate 24 .ledBit ++ [.ledDone]) s = .next (afterTransmission s) := by
  have hbits : runInstrs (List.replicate 24 .ledBit) (afterFetch s) = .next (afterShift (afterFetch s) ((mapFrame s).map symbolOf)) := by
    rw [← mapFrame_length s]
    exact runInstrs_ledBits (s := afterFetch s) hp rfl rfl
  have hdone : exec .ledDone (afterShift (afterFetch s) ((mapFrame s).map symbolOf)) = .next (afterTransmission s) :=
    exec_ledDone_of_last hp rfl rfl hlast
  rw [List.append_assoc, List.singleton_append, runInstrs_cons_of (exec_ledFetch_of hp hst), runInstrs_append_of hbits,
    runInstrs_cons_of hdone, runInstrs]

/-- Settles O22: the run ends in `afterTransmission` (`runInstrs_transmission`), whose marks are the symbols of `mapFrame`. -/
theorem transmissionEmitsFrame : Obligations.TransmissionEmitsFrame := by
  intro s hleds hp hst hidx
  have hlast : ¬ s.led.idx + 1 < s.cfg.nLeds := by omega
  refine ⟨afterTransmission s, runInstrs_transmission hp hst hlast, rfl, rfl, rfl, rfl, rfl, (mapFrame s).map symbolOf, rfl, ?_, ?_, ?_⟩
  · simp [afterTransmission, afterLatch, afterShift, afterFetch]
  · rw [List.length_map, mapFrame_length]
  · intro n m hn hm
    rw [List.getElem?_map, mapFrame_getElem? s hn hm, Option.map_some, symbolOf_eq_ite]

/-! ## What starts a transmission (R190) -/

/-- The operations that write the serializer's registers: its own, the start, and reset (R37, R204, R300). -/
def writesSerializer : Instr → Bool
  | .ledStart _ => true
  | .ledFetch => true
  | .ledBit => true
  | .ledDone => true
  | .trigAct => true
  | .reset => true
  | _ => false

theorem exec_led_of_not_writes {s t : State} {i : Instr} (hi : writesSerializer i = false) (h : exec i s = .next t) : t.led = s.led := by
  cases hbus : isBusOp i with
  | true => rw [(exec_busFrame hbus h).1]
  | false =>
    cases i <;> simp only [isBusOp, writesSerializer, Bool.true_eq_false] at hbus hi
    case powerLoss =>
      obtain rfl := execPowerLoss_next h
      rfl
    all_goals obtain ⟨-, -, rfl⟩ := whenEnabled_next h
    case msPublish | adcCheck => split <;> simp
    case battEval | shdnAct => simp [consume, apply_ite State.led]
    all_goals simp [consume]

/-- `TRIG_ACT` leaves the serializer alone unless a trigger is pending and the serializer is free (R204). -/
theorem exec_trigAct_led {s t : State} (h : exec .trigAct s = .next t) :
    t.led = s.led ∨ (s.seq.spc = .trigAct ∧ s.seq.t11 ≠ 0x00#8 ∧ s.led.busy = false) := by
  obtain ⟨-, hat, rfl⟩ := whenEnabled_next h
  split
  next hstart =>
    obtain ⟨hpending, hfree⟩ := hstart
    exact .inr ⟨atStep_iff.mp hat, by simpa [isPending] using hpending, hfree⟩
  next => exact .inl rfl

/-- Of all operations only `LED_START` and `TRIG_ACT`, which runs it, take the serializer out of its idle state. -/
theorem exec_leaves_idle {s t : State} {i : Instr} (h : exec i s = .next t) (hidle : s.led.st = .idle) (hleft : t.led.st ≠ .idle) :
    (∃ n, i = .ledStart n) ∨ (i = .trigAct ∧ s.seq.spc = .trigAct ∧ s.seq.t11 ≠ 0x00#8 ∧ s.led.busy = false) := by
  have hmoved : t.led ≠ s.led := fun heq => hleft (heq ▸ hidle)
  cases hi : writesSerializer i with
  | false => exact absurd (exec_led_of_not_writes hi h) hmoved
  | true =>
    cases i <;> simp only [writesSerializer, Bool.false_eq_true] at hi
    case ledStart n => exact .inl ⟨n, rfl⟩
    case trigAct => exact .inr ⟨rfl, (exec_trigAct_led h).resolve_left hmoved⟩
    case reset =>
      cases h
      exact absurd rfl hleft
    case ledFetch | ledBit | ledDone =>
      obtain ⟨-, hen, -⟩ := whenEnabled_next h
      simp [hidle] at hen

/-- `LED_START` is a part of `TRIG_ACT` and no event selects it by itself. -/
theorem fetch_ne_ledStart (s : State) (n : Nat) : fetch s ≠ .run (.ledStart n) := by
  intro h
  obtain ⟨-, ⟨-, hsel⟩ | ⟨-, -, hreset⟩⟩ := fetch_run h
  · cases he : nextEvent s with
    | seq pick =>
      rw [he] at hsel
      cases hspc : s.seq.spc <;> simp [Selects, stepInstr, hspc] at hsel
    | _ => simp [he, Selects] at hsel
  · cases hreset

/-- Settles O23: the step runs an operation, `exec_leaves_idle` names it, and `LED_START` is not fetched (`fetch_ne_ledStart`). -/
theorem transmissionStartsOnlyByTrigger : Obligations.TransmissionStartsOnlyByTrigger := by
  intro s t hstep hidle hleft
  rcases step_next hstep with ⟨i, hfetch, hexec⟩ | ⟨u, hfetch, rfl⟩
  · rcases exec_leaves_idle (s := advance s) hexec hidle hleft with ⟨n, rfl⟩ | ⟨rfl, hcond⟩
    · exact absurd hfetch (fetch_ne_ledStart s n)
    · exact ⟨hfetch, hcond⟩
  · obtain ⟨-, hframe⟩ := fetch_idle hfetch
    rw [hframe] at hleft
    exact absurd hidle hleft

end Sys2Proof.Machine

/-! # Proofs: the power sequencer (43_power_sequencer.md) -/

namespace Sys2Proof.Machine

/-! ## When a step of the scan runs (R201) -/

theorem whenEnabled_atStep {s : State} {p : SeqStep} (hp : s.powered = true) (hspc : s.seq.spc = p) (t : State) :
    whenEnabled s (atStep s p) t = .next t :=
  whenEnabled_of hp (atStep_iff.mpr hspc) t

/-! ## The steps that store nothing (R202 a, R203, R204, R206, R207, R213) -/

/-- What step a of R202 gives: the snapshot taken, its four bytes outstanding. -/
def afterSnapshot (s : State) : State := { s with seq := { s.seq with msSnap := s.seq.ms, pend := [0, 1, 2, 3] } }

theorem exec_msPublish_of_nil {s : State} (hp : s.powered = true) (hspc : s.seq.spc = .msPublish) (hpend : s.seq.pend = [])
    (pick : Byte) : exec (.msPublish pick) s = .next (afterSnapshot s) := by
  rw [exec, execMsPublish, whenEnabled_atStep hp hspc, hpend]
  rfl

/-- Settles O24, by `exec_msPublish_of_nil`. -/
theorem counterSnapshotTaken : Obligations.CounterSnapshotTaken := by
  intro s pick hp hspc hpend
  exact ⟨_, exec_msPublish_of_nil hp hspc hpend pick, rfl, readByte_setSeq s _, rfl⟩

/-- Settles O27: each load writes its latch, and a load stores to no map. -/
theorem triggerBytesLatched : Obligations.TriggerBytesLatched := by
  intro s hp
  refine ⟨fun hspc => ?_, fun hspc => ?_⟩
  · exact ⟨_, whenEnabled_atStep hp hspc _, rfl, readByte_setSeq s _, rfl⟩
  · exact ⟨_, whenEnabled_atStep hp hspc _, rfl, readByte_setSeq s _, rfl⟩

theorem isPending_iff {b : Byte} : isPending b = true ↔ b ≠ 0x00#8 := bne_iff_ne

theorem exec_trigAct_of_start {s : State} (hp : s.powered = true) (hspc : s.seq.spc = .trigAct) (ht : s.seq.t11 ≠ 0x00#8)
    (hfree : s.led.busy = false) : exec .trigAct s = .next (gotoStep (startLed s).1 .trigClear) := by
  rw [exec, execTrigAct, whenEnabled_atStep hp hspc, if_pos ⟨isPending_iff.mpr ht, hfree⟩]

theorem exec_trigAct_of_skip {s : State} (hp : s.powered = true) (hspc : s.seq.spc = .trigAct)
    (hskip : ¬(s.seq.t11 ≠ 0x00#8 ∧ s.led.busy = false)) : exec .trigAct s = .next (gotoStep s .adcCheck) := by
  rw [exec, execTrigAct, whenEnabled_atStep hp hspc, if_neg (by rwa [isPending_iff])]

/-- Settles O28: `exec_trigAct_of_start` with the start of `startLed_spec`, and `exec_trigAct_of_skip`. -/
theorem triggerStartsOrDefers : Obligations.TriggerStartsOrDefers := by
  intro s hp hspc
  by_cases hstart : s.seq.t11 ≠ 0x00#8 ∧ s.led.busy = false
  · obtain ⟨ht, hfree⟩ := hstart
    have hexec := exec_trigAct_of_start hp hspc ht hfree
    rw [(startLed_spec s).2 hfree] at hexec
    refine ⟨_, hexec, fun _ _ => ⟨rfl, rfl⟩, fun hskip => ?_, exec_readByte_of_storesNothing rfl hexec, rfl⟩
    simp [ht, hfree] at hskip
  · have hexec := exec_trigAct_of_skip hp hspc hstart
    exact ⟨_, hexec, fun ht hfree => absurd ⟨ht, hfree⟩ hstart, fun _ => ⟨rfl, rfl⟩,
      exec_readByte_of_storesNothing rfl hexec, rfl⟩

/-- The difference of R206 in naturals. -/
theorem sampleDue_iff {interval ms last : Word} :
    sampleDue interval ms last = true ↔ interval.toNat ≤ (ms.toNat + 2 ^ 32 - last.toNat) % 2 ^ 32 := by
  have hsub : (ms - last).toNat = (ms.toNat + 2 ^ 32 - last.toNat) % 2 ^ 32 := by
    have := last.isLt
    rw [BitVec.toNat_sub]
    congr 1
    omega
  rw [sampleDue, decide_eq_true_iff, BitVec.le_def, hsub]

theorem exec_adcCheck_of {s : State} (hp : s.powered = true) (hspc : s.seq.spc = .adcCheck) :
    exec .adcCheck s = .next (if sampleDue s.cfg.sampleInterval s.seq.ms s.seq.lastSample then
      { s with seq := { s.seq with lastSample := s.seq.ms, adcPending := true, spc := .adcWait } }.emit .adcReq
     else gotoStep s .gpioRefresh) :=
  whenEnabled_atStep hp hspc _

/-- Settles O30, by whether the sample is due (`sampleDue_iff`). -/
theorem sampleRequestedWhenDue : Obligations.SampleRequestedWhenDue := by
  intro s hp hspc
  have hexec := exec_adcCheck_of hp hspc
  by_cases hdue : sampleDue s.cfg.sampleInterval s.seq.ms s.seq.lastSample = true
  · rw [if_pos hdue] at hexec
    exact ⟨_, hexec, fun _ => ⟨rfl, rfl⟩, fun hnot => absurd (sampleDue_iff.mp hdue) hnot,
      exec_readByte_of_storesNothing rfl hexec, rfl, rfl⟩
  · rw [if_neg hdue] at hexec
    exact ⟨_, hexec, fun h => absurd (sampleDue_iff.mpr h) hdue, fun _ => ⟨rfl, rfl⟩,
      exec_readByte_of_storesNothing rfl hexec, rfl, rfl⟩

/-- Settles O31: the answer goes to the sequencer's registers alone. -/
theorem conversionTaken : Obligations.ConversionTaken := by
  intro s v hp hspc
  exact ⟨_, whenEnabled_atStep hp hspc _, rfl, readByte_setSeq s _, rfl⟩

/-! ## The environment (R217, R220) -/

/-- Settles O40: the counter is a word of 32 bits, whose addition is modulo 2^32. -/
theorem tickAdvancesCounter : Obligations.TickAdvancesCounter := by
  intro s hp
  exact ⟨_, whenEnabled_of hp rfl _, BitVec.toNat_add s.seq.ms 1#32, rfl, readByte_setSeq s _, rfl⟩

/-- Settles O41, by the level of power-enable, which `POWER_LOSS` asks for. -/
theorem supplyLostOnlyAfterRailDown : Obligations.SupplyLostOnlyAfterRailDown := by
  intro s hp
  refine ⟨fun hdown => ?_, fun hup => ?_⟩
  · rw [exec, execPowerLoss, if_neg (by simp [hdown]), whenEnabled_of hp rfl]
  · rw [exec, execPowerLoss, if_pos (by simp [hp, hup])]

/-! ## Fields published byte by byte (R67, R127, R202 b, R208)

The counter and the sample are published alike, so their store steps are treated as one: a field of the primary map, the number it
is filled with, and the steps of the scan at and after it. -/

/-- A field that the scan publishes by one byte store a step. -/
structure Field where
  off : Nat
  width : Nat
  fits : off + width ≤ mapBytes
  here : SeqStep
  next : SeqStep
  value : Sequencer → Nat
  /-- The number stands still while its bytes are stored. -/
  value_kept : ∀ q pend spc, value { q with pend := pend, spc := spc } = value q

/-- The counter's snapshot at offsets 4 to 7 (R202). -/
def counterField : Field where
  off := 4
  width := 4
  fits := by decide
  here := .msPublish
  next := .trigLoad
  value q := q.msSnap.toNat
  value_kept _ _ _ := rfl

/-- The converter's answer at offsets 12 and 13 (R208). -/
def sampleField : Field where
  off := 12
  width := 2
  fits := by decide
  here := .adcStore
  next := .battEval
  value q := q.adcV.toNat
  value_kept _ _ _ := rfl

/-- The state after byte `j` of the outstanding bytes `out` is stored. -/
def storeOutstanding (f : Field) (s : State) (out : List Nat) (j : Nat) : State :=
  { memWriteByte s .primary f.off f.width (f.value s.seq) j f.fits with
    seq := { s.seq with pend := out.erase j, spc := if out.erase j = [] then f.next else f.here } }

theorem storeOutstanding_seq (f : Field) (s : State) (out : List Nat) (j : Nat) :
    (storeOutstanding f s out j).seq =
      { s.seq with pend := out.erase j, spc := if out.erase j = [] then f.next else f.here } := rfl

theorem storeOutstanding_frame (f : Field) (s : State) (out : List Nat) (j : Nat) :
    storeOutstanding f s out j =
      { s with map1 := (storeOutstanding f s out j).map1, seq := (storeOutstanding f s out j).seq } := by
  rw [storeOutstanding, memWriteByte_primary]

theorem storeOutstanding_powered (f : Field) (s : State) (out : List Nat) (j : Nat) :
    (storeOutstanding f s out j).powered = s.powered := by
  rw [storeOutstanding_frame]

theorem readByte_storeOutstanding (f : Field) (s : State) (out : List Nat) {j : Nat} (hj : j < f.width) (i : Inst) (k : Nat) :
    readByte (storeOutstanding f s out j) i k =
      if i = .primary ∧ k = f.off + j then byteOf (f.value s.seq) j else readByte s i k := by
  rw [storeOutstanding, readByte_setSeq, readByte_memWriteByte]
  exact if_congr (by simp [hj]) rfl rfl

theorem exec_msPublish_of_outstanding {s : State} (hp : s.powered = true) (hspc : s.seq.spc = .msPublish) (hpend : s.seq.pend ≠ [])
    (pick : Byte) :
    exec (.msPublish pick) s = .next (storeOutstanding counterField s s.seq.pend (pickOf s.seq.pend pick)) := by
  rw [exec, execMsPublish, whenEnabled_atStep hp hspc]
  split
  · contradiction
  · rfl

/-- Both bytes are outstanding when the step is entered with none (log entry 7). -/
theorem exec_adcStore_of {s : State} (hp : s.powered = true) (hspc : s.seq.spc = .adcStore) {out : List Nat}
    (hout : out = if s.seq.pend = [] then [0, 1] else s.seq.pend) (pick : Byte) :
    exec (.adcStore pick) s = .next (storeOutstanding sampleField s out (pickOf out pick)) := by
  subst hout
  exact whenEnabled_atStep hp hspc _

/-- A store step takes any outstanding byte to its offset and nothing else: the bytes' side of R202 b and of R208. -/
theorem stores_any_outstanding {f : Field} {op : Byte → Instr} {s : State} {out : List Nat} (hne : out ≠ [])
    (hsub : out.Sublist (List.range f.width)) (hwidth : f.width ≤ 256)
    (hexec : ∀ pick, exec (op pick) s = .next (storeOutstanding f s out (pickOf out pick))) :
    (∀ pick, ∃ j ∈ out, ∃ t, exec (op pick) s = .next t ∧
      (∀ i k, readByte t i k = if i = .primary ∧ k = f.off + j then byteOf (f.value s.seq) j else readByte s i k) ∧
      t.seq = { s.seq with pend := out.erase j, spc := if out.erase j = [] then f.next else f.here } ∧
      t = { s with map1 := t.map1, seq := t.seq }) ∧
    (∀ j ∈ out, ∃ pick t, exec (op pick) s = .next t ∧ t.seq.pend = out.erase j) := by
  refine ⟨fun pick => ?_, fun j hj => ?_⟩
  · have hmem := pickOf_mem hne pick
    have hlt : pickOf out pick < f.width := List.mem_range.mp (hsub.subset hmem)
    exact ⟨_, hmem, _, hexec pick, readByte_storeOutstanding f s out hlt, rfl, storeOutstanding_frame f s out _⟩
  · have hlen : out.length ≤ 256 := by simpa using hsub.length_le.trans (by simpa using hwidth)
    obtain ⟨pick, rfl⟩ := exists_pickOf hlen hj
    exact ⟨pick, _, hexec pick, rfl⟩

/-- Settles O25: `stores_any_outstanding` for the counter. -/
theorem counterByteStored : Obligations.CounterByteStored := by
  intro s hp hspc hpend hsub
  exact stores_any_outstanding (f := counterField) hpend hsub (by decide) (exec_msPublish_of_outstanding hp hspc hpend)

/-- Settles O32: `stores_any_outstanding` for the sample, whose bytes are outstanding in either form of `pend`. -/
theorem sampleByteStored : Obligations.SampleByteStored := by
  intro s out hp hspc hsub hout
  have hshape : out ≠ [] ∧ out.Sublist [0, 1] := by
    rw [hout]
    split
    next => exact ⟨by simp, List.Sublist.refl _⟩
    next hne => exact ⟨hne, hsub⟩
  obtain ⟨hne, hsub⟩ := hshape
  exact stores_any_outstanding (f := sampleField) hne hsub (by decide) (exec_adcStore_of hp hspc hout)

/-! ## A field published whole, in any order (R202, R208, R127) -/

/-- While bytes are outstanding, the operation stores the one its operand picks. -/
def Field.StoredBy (f : Field) (op : Byte → Instr) : Prop :=
  ∀ s pick, s.powered = true → s.seq.spc = f.here → s.seq.pend ≠ [] →
    exec (op pick) s = .next (storeOutstanding f s s.seq.pend (pickOf s.seq.pend pick))

theorem counterField_storedBy : counterField.StoredBy .msPublish :=
  fun _ pick hp hspc hpend => exec_msPublish_of_outstanding hp hspc hpend pick

theorem sampleField_storedBy : sampleField.StoredBy .adcStore :=
  fun _ pick hp hspc hpend => exec_adcStore_of hp hspc (if_neg hpend).symm pick

/-- As many stores as bytes are outstanding, in any order, leave each of them at its offset: every store takes one byte out of the
outstanding ones, so none is left. -/
theorem runInstrs_stores {f : Field} {op : Byte → Instr} (hop : f.StoredBy op) (picks : List Byte) {s : State}
    (hp : s.powered = true) (hspc : s.seq.spc = if s.seq.pend = [] then f.next else f.here)
    (hlen : picks.length = s.seq.pend.length) (hlt : ∀ j ∈ s.seq.pend, j < f.width) :
    ∃ t, runInstrs (picks.map op) s = .next t ∧ t.seq = { s.seq with pend := [], spc := f.next } ∧
      ∀ i k, readByte t i k =
        if i = .primary ∧ f.off ≤ k ∧ k - f.off ∈ s.seq.pend then byteOf (f.value s.seq) (k - f.off) else readByte s i k := by
  induction picks generalizing s with
  | nil =>
    have hpend : s.seq.pend = [] := List.length_eq_zero_iff.mp hlen.symm
    rw [if_pos hpend] at hspc
    exact ⟨s, rfl, by rw [← hpend, ← hspc], by simp [hpend]⟩
  | cons pick picks ih =>
    have hne : s.seq.pend ≠ [] := by
      rintro hnil
      simp [hnil] at hlen
    rw [if_neg hne] at hspc
    have hmem := pickOf_mem hne pick
    have hexec := hop s pick hp hspc hne
    generalize pickOf s.seq.pend pick = j at hmem hexec
    have hbyte := readByte_storeOutstanding f s s.seq.pend (hlt j hmem)
    obtain ⟨t, hrun, hseq, hread⟩ := ih (s := storeOutstanding f s s.seq.pend j)
      ((storeOutstanding_powered ..).trans hp) rfl
      (by rw [storeOutstanding_seq, List.length_erase_of_mem hmem, ← hlen]; rfl)
      (fun a ha => hlt a (List.mem_of_mem_erase ha))
    refine ⟨t, (runInstrs_cons_of hexec _).trans hrun, hseq, fun i k => ?_⟩
    rw [hread, hbyte, storeOutstanding_seq, f.value_kept]
    by_cases hk : i = .primary ∧ k = f.off + j
    · obtain ⟨rfl, rfl⟩ := hk
      simp [hmem]
    · rw [if_neg hk]
      refine if_congr (and_congr_right fun hi => and_congr_right fun hle => ?_) rfl rfl
      exact List.mem_erase_of_ne fun heq => hk ⟨hi, by omega⟩

/-- All stores of a field, in any order: its number is published, little-endian, and no other byte changes. -/
theorem runInstrs_publish {f : Field} {op : Byte → Instr} (hop : f.StoredBy op) {picks : List Byte} (hlen : picks.length = f.width)
    (hpos : 0 < f.width) {s : State} (hp : s.powered = true) (hspc : s.seq.spc = f.here) (hpend : s.seq.pend = List.range f.width) :
    ∃ t, runInstrs (picks.map op) s = .next t ∧
      memRead t .primary f.off f.width f.fits = f.value s.seq % 256 ^ f.width ∧
      t.seq = { s.seq with pend := [], spc := f.next } ∧
      ∀ i k, ¬(i = .primary ∧ f.off ≤ k ∧ k < f.off + f.width) → readByte t i k = readByte s i k := by
  have hne : s.seq.pend ≠ [] := by
    rw [hpend, Ne, List.range_eq_nil]
    exact hpos.ne'
  obtain ⟨t, hrun, hseq, hread⟩ := runInstrs_stores hop picks hp (by rw [hspc, if_neg hne]) (by simp [hlen, hpend])
    (fun j hj => List.mem_range.mp (hpend ▸ hj))
  rw [hpend] at hread
  refine ⟨t, hrun, memRead_of_bytes f.fits fun j hj => ?_, hseq, fun i k hk => ?_⟩
  · rw [hread, if_pos ⟨rfl, Nat.le_add_right .., List.mem_range.mpr (by omega)⟩, Nat.add_sub_cancel_left]
  · rw [hread, if_neg]
    rintro ⟨hi, hle, hin⟩
    rw [List.mem_range] at hin
    exact hk ⟨hi, hle, by omega⟩

/-- Settles O26: the snapshot, then `runInstrs_publish` for the counter. -/
theorem counterPublishedInAnyOrder : Obligations.CounterPublishedInAnyOrder := by
  intro s p0 p1 p2 p3 p4 hp hspc hpend
  obtain ⟨t, hrun, hpublished, hseq, hframe⟩ :=
    runInstrs_publish counterField_storedBy (picks := [p1, p2, p3, p4]) (s := afterSnapshot s) rfl (by decide) hp hspc rfl
  refine ⟨t, (runInstrs_cons_of (exec_msPublish_of_nil hp hspc hpend p0) _).trans hrun, ?_, ?_, fun i k hk => ?_⟩
  · exact hpublished.trans (Nat.mod_eq_of_lt s.seq.ms.isLt)
  · rw [hseq, afterSnapshot, ← hpend]
    rfl
  · rw [hframe i k fun ⟨hi, hle, hlt⟩ => hk ⟨hi, hle, Nat.le_of_lt_succ hlt⟩]
    exact readByte_setSeq ..

/-- The state with both bytes of the sample outstanding (log entry 7). -/
def withSampleOutstanding (s : State) : State := { s with seq := { s.seq with pend := [0, 1] } }

/-- An entry with nothing in `pend` is one with both bytes there. -/
theorem exec_adcStore_of_nil {s : State} (hp : s.powered = true) (hspc : s.seq.spc = .adcStore) (hpend : s.seq.pend = []) (pick : Byte) :
    exec (.adcStore pick) s = exec (.adcStore pick) (withSampleOutstanding s) := by
  rw [exec_adcStore_of (s := s) hp hspc (if_pos hpend).symm, exec_adcStore_of (s := withSampleOutstanding s) (out := [0, 1]) hp hspc rfl,
    storeOutstanding, storeOutstanding, memWriteByte, memWriteByte]
  split <;> rfl

/-- Settles O33: `runInstrs_publish` for the sample. -/
theorem samplePublishedInAnyOrder : Obligations.SamplePublishedInAnyOrder := by
  intro s p q hp hspc hpend
  obtain ⟨t, hrun, hpublished, hseq, hframe⟩ :=
    runInstrs_publish sampleField_storedBy (picks := [p, q]) (s := withSampleOutstanding s) rfl (by decide) hp hspc rfl
  refine ⟨t, ?_, ?_, ?_, fun i k hk => ?_⟩
  · rw [runInstrs, exec_adcStore_of_nil hp hspc hpend]
    exact hrun
  · exact hpublished.trans (Nat.mod_eq_of_lt s.seq.adcV.isLt)
  · rw [hseq, withSampleOutstanding, ← hpend]
    rfl
  · rw [hframe i k fun ⟨hi, hle, hlt⟩ => hk ⟨hi, hle, Nat.le_of_lt_succ hlt⟩]
    exact readByte_setSeq ..

/-! ## Trigger bytes consumed (R126, R205, R214) -/

theorem readByte_consume (s : State) (k : Fin mapBytes) (i : Inst) (n : Nat) :
    readByte (consume s k) i n = if i = .primary ∧ n = k.val then 0x00#8 else readByte s i n :=
  readByte_mapStore ..

/-- Settles O29: the store of `consume` asks for nothing. -/
theorem triggerConsumed : Obligations.TriggerConsumed := by
  intro s hp hspc
  refine ⟨_, whenEnabled_atStep hp hspc _, fun j k => ?_, rfl, rfl⟩
  rw [readByte_gotoStep]
  exact readByte_consume ..

theorem exec_shdnAct_of_sentinel {s : State} (hp : s.powered = true) (hspc : s.seq.spc = .shdnAct) (ht : s.seq.t31 = 0xFF#8) :
    exec .shdnAct s = .next (gotoStep (consume (deassertPower s) offsetShutdown) .msPublish) := by
  rw [exec, execShdnAct, whenEnabled_atStep hp hspc, if_pos (by simp [isSentinel, ht])]

theorem exec_shdnAct_of_other {s : State} (hp : s.powered = true) (hspc : s.seq.spc = .shdnAct) (ht : s.seq.t31 ≠ 0xFF#8) :
    exec .shdnAct s = .next (gotoStep s .msPublish) := by
  rw [exec, execShdnAct, whenEnabled_atStep hp hspc, if_neg (by simp [isSentinel, ht])]

/-- Settles O36: `deassertPower_spec` and `readByte_consume` on the sentinel, nothing on another value. -/
theorem sentinelDropsRail : Obligations.SentinelDropsRail := by
  intro s hp hspc
  by_cases ht : s.seq.t31 = 0xFF#8
  · obtain ⟨hdown, htrace, hbus, hframe⟩ := deassertPower_spec s
    refine ⟨_, exec_shdnAct_of_sentinel hp hspc ht, fun _ => ⟨hdown, htrace, fun j k => ?_⟩, fun hne => absurd ht hne, ?_, ?_, hbus⟩
    · rw [readByte_gotoStep, readByte_consume, readByte_deassertPower]
      rfl
    · rw [hframe]
      rfl
    · rw [hframe]
      rfl
  · exact ⟨_, exec_shdnAct_of_other hp hspc ht, fun heq => absurd heq ht, fun _ => ⟨rfl, rfl, readByte_gotoStep s _⟩, rfl, rfl,
      rfl⟩

/-! ## Bits of the input-state byte (R28, R209, R212) -/

theorem setBit_getLsbD (b : Byte) (m : Nat) (v : Bool) {n : Nat} (hn : n < 8) :
    (setBit b m v).getLsbD n = if n = m then v else b.getLsbD n := by
  have hone : (1#8 <<< m).getLsbD n = decide (n = m) := by
    rw [BitVec.getLsbD_shiftLeft, BitVec.getLsbD_one]
    by_cases h : n = m
    · simp [h, h ▸ hn]
    · simp [h, hn]
      omega
  unfold setBit
  cases v with
  | true =>
    rw [if_pos rfl, BitVec.getLsbD_or, hone]
    by_cases h : n = m <;> simp [h]
  | false =>
    rw [if_neg Bool.false_ne_true, BitVec.getLsbD_and, BitVec.getLsbD_not, hone]
    by_cases h : n = m <;> simp [h, hn]

theorem setBatteryLow_getLsbD (b : Byte) (low : Bool) {n : Nat} (hn : n < 8) :
    (setBatteryLow b low).getLsbD n = if n = 4 then low else b.getLsbD n :=
  setBit_getLsbD b 4 low hn

theorem refreshInputs_getLsbD (b : Byte) (p : Pins) {n : Nat} (hn : n < 8) :
    (refreshInputs b p).getLsbD n =
      if n = 3 then p.button else if n = 2 then p.radio else if n = 1 then p.standby else if n = 0 then p.charge
      else (b &&& 0x10#8).getLsbD n := by
  rw [refreshInputs, setBit_getLsbD _ _ _ hn, setBit_getLsbD _ _ _ hn, setBit_getLsbD _ _ _ hn, setBit_getLsbD _ _ _ hn]

theorem refreshInputs_mask (b : Byte) (p : Pins) : refreshInputs (b &&& 0x10#8) p = refreshInputs b p := by
  rw [refreshInputs, BitVec.and_assoc, BitVec.and_self]
  rfl

/-- Bits 7 to 5 are masked off, whatever the byte was. -/
theorem refreshInputs_toNat_lt (b : Byte) (p : Pins) : (refreshInputs b p).toNat < 32 := by
  rw [← refreshInputs_mask]
  refine refreshInputs_lt ?_ p
  rw [BitVec.toNat_and]
  exact Nat.and_le_right.trans_lt (by decide)

theorem exec_gpioRefresh_of {s : State} (hp : s.powered = true) (hspc : s.seq.spc = .gpioRefresh) :
    exec .gpioRefresh s =
      .next (mapStore { s with seq := { s.seq with inState := refreshInputs s.seq.inState s.env.pins, spc := .shdnLoad } } .primary 14
        (refreshInputs s.seq.inState s.env.pins)) :=
  whenEnabled_atStep hp hspc _

/-- Settles O35: the bits by `refreshInputs_getLsbD`, the store by `readByte_mapStore`. -/
theorem pinsCopied : Obligations.PinsCopied := by
  intro s hp hspc
  have hbit := fun n (hn : n < 8) => refreshInputs_getLsbD s.seq.inState s.env.pins hn
  refine ⟨_, exec_gpioRefresh_of hp hspc, hbit 0 (by decide), hbit 1 (by decide), hbit 2 (by decide), hbit 3 (by decide), ?_,
    refreshInputs_toNat_lt .., fun j k => ?_, rfl, rfl⟩
  · exact (hbit 4 (by decide)).trans (by simp)
  · rw [readByte_mapStore, readByte_setSeq]
    rfl

/-! ## A sample classified (R209, R210, R211) -/

theorem isLow_iff {threshold v : Half} : isLow threshold v = true ↔ v.toNat ≤ threshold.toNat := by
  rw [isLow, decide_eq_true_iff, BitVec.le_def]

/-- The sequencer's registers after the sample in `adcV`. -/
def afterSample (s : State) : Sequencer :=
  { s.seq with
    hyst := nextHyst s.cfg.hystInit s.seq.hyst (isLow s.cfg.adcLowThreshold s.seq.adcV)
    inState := setBatteryLow s.seq.inState (isLow s.cfg.adcLowThreshold s.seq.adcV)
    spc := .gpioRefresh }

/-- The state after the count, before the flag goes to the map: the rail is dropped when the count runs out. -/
def afterCount (s : State) : State :=
  if s.seq.hyst ≠ 0 ∧ (afterSample s).hyst = 0 then deassertPower { s with seq := afterSample s } else { s with seq := afterSample s }

theorem exec_battEval_of {s : State} (hp : s.powered = true) (hspc : s.seq.spc = .battEval) :
    exec .battEval s = .next (mapStore (afterCount s) .primary 14 (afterSample s).inState) :=
  whenEnabled_atStep hp hspc _

theorem afterCount_spec (s : State) :
    (afterCount s).obs.trace = s.obs.trace ++
        (if s.seq.hyst ≠ 0 ∧ (afterSample s).hyst = 0 ∧ s.powerEn = true then [.powerEn false] else []) ∧
      (afterCount s).obs.busOut = s.obs.busOut ∧
      afterCount s = { s with seq := afterSample s, powerEn := (afterCount s).powerEn, obs := (afterCount s).obs } := by
  unfold afterCount
  by_cases hout : s.seq.hyst ≠ 0 ∧ (afterSample s).hyst = 0
  · obtain ⟨-, htrace, hbus, hframe⟩ := deassertPower_spec { s with seq := afterSample s }
    rw [if_pos hout]
    refine ⟨htrace.trans (congrArg _ (if_congr ?_ rfl rfl)), hbus, hframe⟩
    rw [← and_assoc, and_iff_right hout]
  · rw [if_neg hout, if_neg fun ⟨hcounting, hzero, _⟩ => hout ⟨hcounting, hzero⟩, List.append_nil]
    exact ⟨rfl, rfl, rfl⟩

theorem readByte_afterCount (s : State) (i : Inst) (k : Nat) : readByte (afterCount s) i k = readByte s i k := by
  obtain ⟨-, -, hframe⟩ := afterCount_spec s
  rw [hframe]
  exact readByte_congr rfl rfl rfl i k

theorem afterSample_hyst (s : State) :
    (afterSample s).hyst = if s.seq.hyst = 0 then 0
      else if s.seq.adcV.toNat ≤ s.cfg.adcLowThreshold.toNat then s.seq.hyst - 1 else s.cfg.hystInit := by
  simp only [afterSample, nextHyst, isLow_iff]

theorem afterSample_inState_getLsbD (s : State) {n : Nat} (hn : n < 8) :
    (afterSample s).inState.getLsbD n =
      if n = 4 then decide (s.seq.adcV.toNat ≤ s.cfg.adcLowThreshold.toNat) else s.seq.inState.getLsbD n := by
  rw [afterSample, setBatteryLow_getLsbD _ _ hn]
  rfl

/-- What a sample does to the sequencer and to power-enable, in the terms of the claims. -/
theorem exec_battEval_next {s t : State} (h : exec .battEval s = .next t) :
    t.seq = afterSample s ∧ t.powerEn = if s.seq.hyst ≠ 0 ∧ (afterSample s).hyst = 0 then false else s.powerEn :=
  ⟨execBattEval_seq h, execBattEval_powerEn h⟩

/-- Settles O34: `exec_battEval_next` for the registers and the rail, `afterCount_spec` for the edge and the frame. -/
theorem sampleClassifiedAndCounted : Obligations.SampleClassifiedAndCounted := by
  intro s hp hspc
  have hexec := exec_battEval_of hp hspc
  obtain ⟨hseq, hpower⟩ := exec_battEval_next hexec
  obtain ⟨htrace, hbus, hframe⟩ := afterCount_spec s
  refine ⟨_, hexec, ?_⟩
  rw [hseq, hpower]
  refine ⟨afterSample_hyst s, fun n => afterSample_inState_getLsbD s, fun j k => ?_, rfl, ?_, rfl, ?_, ?_⟩
  · rw [readByte_mapStore, readByte_afterCount]
    rfl
  · rw [mapStore_obs, htrace]
  · rw [← hpower, mapStore_primary, hframe]
  · rw [mapStore_obs, hbus]

/-! ## A run of samples (R211, R215) -/

@[simp] theorem withSample_cfg (s : State) (v : Half) : (withSample s v).cfg = s.cfg := rfl

@[simp] theorem withSample_obs (s : State) (v : Half) : (withSample s v).obs = s.obs := rfl

@[simp] theorem withSample_hyst (s : State) (v : Half) : (withSample s v).seq.hyst = s.seq.hyst := rfl

/-- One low sample, while the rail is up exactly as long as the count has not run out: the count goes down, the rail keeps that
relation to it, and the edge is emitted where the count runs out. -/
theorem exec_battEval_low {s : State} (hp : s.powered = true) (hspc : s.seq.spc = .battEval)
    (hrail : s.powerEn = true ↔ 0 < s.seq.hyst) (hlow : s.seq.adcV.toNat ≤ s.cfg.adcLowThreshold.toNat) :
    ∃ u, exec .battEval s = .next u ∧ u.cfg = s.cfg ∧ u.powered = true ∧ u.seq.hyst = s.seq.hyst - 1 ∧
      (u.powerEn = true ↔ 0 < s.seq.hyst - 1) ∧
      u.obs.trace = s.obs.trace ++ (if s.seq.hyst = 1 then [.powerEn false] else []) := by
  obtain ⟨u, hexec, hhyst, -, -, hpower, htrace, -, hframe, -⟩ := sampleClassifiedAndCounted s hp hspc
  have hcount : u.seq.hyst = s.seq.hyst - 1 := by
    rw [hhyst, if_pos hlow]
    split <;> omega
  rw [hcount] at hpower htrace
  refine ⟨u, hexec, (congrArg State.cfg hframe :), (congrArg State.powered hframe).trans hp, hcount, ?_, ?_⟩
  · rw [hpower]
    split
    next hlast => simp [hlast]
    next hmore =>
      rw [hrail]
      omega
  · rw [htrace]
    exact congrArg _ (if_congr (by rw [hrail]; omega) rfl rfl)

/-- A run of low samples counts down, drops the rail where the count runs out, and emits the edge there and nowhere else. -/
theorem runSamples_low (vs : List Half) {s : State} (hp : s.powered = true) (hrail : s.powerEn = true ↔ 0 < s.seq.hyst)
    (hlow : ∀ v ∈ vs, v.toNat ≤ s.cfg.adcLowThreshold.toNat) :
    ∃ t, runSamples vs s = .next t ∧ t.seq.hyst = s.seq.hyst - vs.length ∧ (t.powerEn = true ↔ vs.length < s.seq.hyst) ∧
      t.obs.trace = s.obs.trace ++ (if 0 < s.seq.hyst ∧ s.seq.hyst ≤ vs.length then [.powerEn false] else []) := by
  induction vs generalizing s with
  | nil =>
    have hnone : ¬(0 < s.seq.hyst ∧ s.seq.hyst ≤ 0) := by omega
    exact ⟨s, rfl, rfl, hrail, by rw [List.length_nil, if_neg hnone, List.append_nil]⟩
  | cons v vs ih =>
    obtain ⟨hv, hvs⟩ := List.forall_mem_cons.mp hlow
    obtain ⟨u, hexec, hcfg, hpu, hcount, hrailu, hedge⟩  :=
      exec_battEval_low (s := withSample s v) hp rfl hrail hv
    rw [withSample_cfg] at hcfg
    rw [withSample_hyst] at hcount hrailu hedge
    rw [withSample_obs] at hedge
    obtain ⟨t, hrun, hhyst, hpower, htrace⟩ := ih hpu (by rw [hcount, hrailu]) (by rwa [hcfg])
    rw [hcount] at hhyst hpower htrace
    refine ⟨t, by rw [runSamples, hexec]; exact hrun, ?_, ?_, ?_⟩
    · rw [hhyst, List.length_cons]
      omega
    · rw [hpower, List.length_cons]
      omega
    · rw [htrace, hedge, List.length_cons, List.append_assoc]
      congr 1
      by_cases hlast : s.seq.hyst = 1
      · simp [hlast]
      · rw [if_neg hlast, List.nil_append]
        exact if_congr (by omega) rfl rfl

/-- Settles O37: `runSamples_low` from a full counter with the rail up. -/
theorem lowRunDropsRailExactlyOnce : Obligations.LowRunDropsRailExactlyOnce := by
  intro s vs hp hup hinit hfull hlow
  have hpos : 0 < s.seq.hyst := by omega
  obtain ⟨t, hrun, hhyst, hpower, htrace⟩ := runSamples_low vs hp (iff_of_true hup hpos) hlow
  rw [hfull] at hhyst hpower htrace
  refine ⟨t, hrun, hhyst, hpower, ?_⟩
  rw [htrace, ← ite_not]
  exact congrArg _ (if_congr (by omega) rfl rfl)

/-! ## The supervisor's states (R40, R218) -/

theorem supervisorOf_eq_shutdown_iff {s : State} : supervisorOf s = .shutdown ↔ s.powerEn = false := by
  unfold supervisorOf
  cases s.powerEn with
  | false => simp
  | true => cases s.seq.inState.getLsbD bitBatteryLow <;> simp

theorem supervisorOf_of_powerEn {s : State} (hup : s.powerEn = true) :
    supervisorOf s = if s.seq.inState.getLsbD bitBatteryLow then .lowWarning else .normal := by
  rw [supervisorOf, hup]
  rfl

/-- Settles O38: by the invariant a rail that is up means a count that has not run out, and `afterSample_hyst` says what the sample makes
of it. -/
theorem supervisorFollowsSample : Obligations.SupervisorFollowsSample := by
  intro s t hinv hexec
  obtain ⟨hseq, hpower⟩ := exec_battEval_next hexec
  simp only [ne_eq, supervisorOf_eq_shutdown_iff, Bool.not_eq_false]
  have hbit : t.seq.inState.getLsbD bitBatteryLow = decide (s.seq.adcV.toNat ≤ s.cfg.adcLowThreshold.toNat) := by
    rw [hseq]
    exact afterSample_inState_getLsbD s (by decide)
  refine ⟨fun hdown => by simp [hpower, hdown], fun hup => ?_⟩
  have hcounting : s.seq.hyst ≠ 0 := fun hzero => by simp [hinv.railDown hzero] at hup
  have hhyst := afterSample_hyst s
  rw [if_neg hcounting] at hhyst
  have hstays : (afterSample s).hyst ≠ 0 → t.powerEn = true := fun hmore => by rw [hpower, if_neg fun h => hmore h.2, hup]
  rw [hseq]
  refine ⟨fun hnormal => ?_, fun hlow hmore => ?_, fun hlow hlast => ?_⟩
  · obtain ⟨-, hinit, -⟩ := Config.valid_iff.mp hinv.valid
    rw [if_neg (by omega)] at hhyst
    rw [supervisorOf_of_powerEn (hstays (by omega)), hbit, if_neg (by simpa using hnormal)]
    exact ⟨rfl, hhyst⟩
  · rw [if_pos hlow] at hhyst
    rw [supervisorOf_of_powerEn (hstays (by omega)), hbit, if_pos (by simpa using hlow)]
    exact ⟨rfl, hhyst⟩
  · rw [if_pos hlow, hlast] at hhyst
    have hdown : t.powerEn = false := by rw [hpower, if_pos ⟨hcounting, hhyst⟩]
    exact ⟨hdown, hhyst, hdown⟩

end Sys2Proof.Machine

/-! # Proofs: the host client (44_host_client.md) -/

namespace Sys2Proof.Machine

/-! ## A command is the run of its transaction (R240 to R243) -/

theorem exec_cmdSetLed (r g b : Byte) (s : State) :
    exec (.cmdSetLed r g b) s = whenEnabled s true (afterWrite s .primary 8#8 [r, g, b, 0x01#8]) := rfl

theorem exec_cmdShutdown (s : State) : exec .cmdShutdown s = whenEnabled s true (afterWrite s .primary 31#8 [0xFF#8]) :=
  congrArg (fun v => whenEnabled s true (afterWrite s .primary 31#8 [v])) (cfg_shutdownSentinel s.cfg)

theorem exec_cmdRead (p m : Byte) (s : State) :
    exec (.cmdRead p m) s = whenEnabled s true (afterRead s .primary p m.toNat) := rfl

section Transaction

variable {s : State} {i : Inst} (hi : s.cfg.present i = true)
include hi

theorem runInstrs_addrW_of_unpowered (hs : s.powered = false) (rest : List Instr) :
    runInstrs (.addrW i :: rest) s = .refused .unpowered := by
  have hexec : exec (.addrW i) s = .refused .unpowered := (if_pos hi).trans (whenEnabled_of_unpowered hs true _)
  rw [runInstrs, hexec]

/-- A write transaction needs only the supply, and is refused at its first operation without it (R42). -/
theorem runInstrs_writeOps_eq (p : Byte) (ds : List Byte) :
    runInstrs (writeOps i p ds) s = whenEnabled s true (afterWrite s i p ds) := by
  cases hs : s.powered with
  | true => rw [runInstrs_writeOps hs hi, whenEnabled_of hs rfl]
  | false => rw [writeOps, runInstrs_addrW_of_unpowered hi hs, whenEnabled_of_unpowered hs]

/-- The same for a read transaction. -/
theorem runInstrs_readOps_eq (p : Byte) (n : Nat) :
    runInstrs (readOps i p n) s = whenEnabled s true (afterRead s i p n) := by
  cases hs : s.powered with
  | true => rw [runInstrs_readOps hs hi, whenEnabled_of hs rfl]
  | false => rw [readOps, runInstrs_addrW_of_unpowered hi hs, whenEnabled_of_unpowered hs]

end Transaction

/-- Settles O47: the commands are the two kinds of transaction, on the primary map. -/
theorem commandsAreTheirTransactions : Obligations.CommandsAreTheirTransactions := by
  intro s r g b p m
  refine ⟨?_, ?_, ?_⟩
  · exact (runInstrs_writeOps_eq rfl 8#8 [r, g, b, 0x01#8]).symm
  · exact (exec_cmdShutdown s).trans (runInstrs_writeOps_eq rfl 31#8 [0xFF#8]).symm
  · exact (runInstrs_readOps_eq rfl p m.toNat).symm

/-! ## The other device during a transaction (R147, R148, R158) -/

/-- A device's registers as they were, but perhaps idle. -/
abbrev KeptOrIdled (s t : State) (j : Inst) : Prop := t.eng j = s.eng j ∨ t.eng j = { s.eng j with st := .idle }

theorem keptOrIdled_trans {s t u : State} {j : Inst} (hst : KeptOrIdled s t j) (htu : KeptOrIdled t u j) : KeptOrIdled s u j := by
  rcases htu with h | h <;> rcases hst with h' | h' <;> rw [KeptOrIdled, h, h'] <;> simp

theorem keptOrIdled_stopAll (s : State) (j : Inst) : KeptOrIdled s (stopAll s) j := by
  rw [KeptOrIdled, stopAll_eng]
  split
  · exact .inr rfl
  · exact .inl rfl

theorem keptOrIdled_addressMatch (s : State) {i j : Inst} (hj : j ≠ i) (d : Dir) : KeptOrIdled s (addressMatch s i d) j := by
  rw [KeptOrIdled, addressMatch_eng, if_neg hj]
  split
  · exact .inr rfl
  · exact .inl rfl

/-- A transaction begun while nothing was active: its stop ends it, and finds no other device to end. Unlike `stopAll_of_some` this
asks nothing of a device that does not exist. -/
theorem stopAll_of_only {s u : State} {i : Inst} (hnone : activeInst s = none) (hcfg : u.cfg = s.cfg)
    (hi : s.cfg.present i = true) (hbusy : (u.eng i).st ≠ .idle) (hothers : ∀ j, j ≠ i → u.eng j = s.eng j) :
    stopAll u = endAndIdle u i := by
  have hself : ∀ v : State, v.cfg = u.cfg → v.eng i = u.eng i → stopInst v i = endAndIdle v i := fun v hc he =>
    if_pos ⟨by rw [hc, hcfg, hi], by rwa [he]⟩
  have hother : ∀ (v : State) (j : Inst), j ≠ i → v.cfg = u.cfg → v.eng j = u.eng j → stopInst v j = v := by
    refine fun v j hj hc he => if_neg fun h => h.2 ?_
    rw [he, hothers j hj]
    exact activeInst_none hnone j (by rw [← hcfg, ← hc, h.1])
  cases i with
  | primary =>
    have hkept : (endAndIdle u .primary).eng .secondary = u.eng .secondary := (endAndIdle_spec u .primary).2.1 .secondary
    rw [stopAll, hself u rfl rfl, hother _ .secondary nofun (endAndIdle_cfg ..) hkept]
  | secondary => rw [stopAll, hother u .primary nofun rfl rfl, hself u rfl rfl]

/-! ## A write transaction (R242, R243) -/

/-- The state after the last data byte of `S Ai+W p d0 ...`, before the stop. -/
def burstWritten (s : State) (i : Inst) (p : Byte) (ds : List Byte) : State := receiveMany i ds (openAt s i p)

theorem afterWrite_eq (s : State) (i : Inst) (p : Byte) (ds : List Byte) : afterWrite s i p ds = stopAll (burstWritten s i p ds) := rfl

/-- Data bytes leave the other device, power-enable and the trace alone (R80, R145). -/
theorem receiveMany_frame (i : Inst) (ds : List Byte) (s : State) :
    (∀ j, j ≠ i → (receiveMany i ds s).eng j = s.eng j ∧ (receiveMany i ds s).map j = s.map j) ∧
      (receiveMany i ds s).powerEn = s.powerEn ∧ (receiveMany i ds s).obs.trace = s.obs.trace := by
  induction ds generalizing s with
  | nil => exact ⟨fun _ _ => ⟨rfl, rfl⟩, rfl, rfl⟩
  | cons b rest ih =>
    obtain ⟨hothers, hpower, htrace⟩ := ih (receiveData s i b)
    obtain ⟨-, heng, htrace1, -⟩ := receiveData_spec s i b
    refine ⟨fun j hj => ?_, hpower.trans (receiveData_powerEn s i b), htrace.trans htrace1⟩
    obtain ⟨he, hm⟩ := hothers j hj
    exact ⟨by rw [receiveMany, he, heng, if_neg hj], hm.trans (receiveData_map_other s hj b)⟩

theorem receiveMany_dir (i : Inst) (ds : List Byte) (s : State) : ((receiveMany i ds s).eng i).dir = (s.eng i).dir := by
  induction ds generalizing s with
  | nil => rfl
  | cons b rest ih =>
    obtain ⟨-, heng, -⟩ := receiveData_spec s i b
    rw [receiveMany, ih, heng, if_pos rfl]

theorem receiveMany_st (i : Inst) {ds : List Byte} (hne : ds ≠ []) (s : State) : ((receiveMany i ds s).eng i).st = .writeBurst := by
  induction ds generalizing s with
  | nil => exact absurd rfl hne
  | cons b rest ih =>
    obtain ⟨-, heng, -⟩ := receiveData_spec s i b
    rw [receiveMany]
    cases rest with
    | nil => rw [receiveMany, heng, if_pos rfl]
    | cons c rest => exact ih nofun (receiveData s i b)

theorem burstWritten_cfg (s : State) (i : Inst) (p : Byte) (ds : List Byte) : (burstWritten s i p ds).cfg = s.cfg :=
  (busFrame_cfg (busFrame_receiveMany i ds _)).trans (openAt_cfg s i p)

/-- The registers of a burst that fits into a writable map. -/
theorem burstWritten_eng {s : State} {i : Inst} {p : Byte} {ds : List Byte} (hro : readOnly s.cfg i = false)
    (hfit : p.toNat + ds.length ≤ 32) (hne : ds ≠ []) :
    (burstWritten s i p ds).eng i =
      { st := .writeBurst, dir := .W, ptr := p + BitVec.ofNat 8 ds.length, boff := p, blen := ds.length } := by
  have hst := receiveMany_st i hne (openAt s i p)
  have hdir := receiveMany_dir i ds (openAt s i p)
  obtain ⟨hptr, hblen, hboff⟩ := receiveMany_eng i ds (openAt s i p)
  rw [openAt_eng] at hdir hptr hblen hboff
  rw [openAt_cfg, if_pos hro] at hblen
  rw [burstWritten]
  generalize (receiveMany i ds (openAt s i p)).eng i = e at *
  obtain ⟨st, dir, ptr, boff, blen⟩ := e
  dsimp only at hst hdir hptr hblen hboff
  have hptr' : ptr = p + BitVec.ofNat 8 ds.length := by
    refine BitVec.eq_of_toNat_eq ?_
    rw [BitVec.toNat_add, BitVec.toNat_ofNat]
    omega
  have hblen' : blen = ds.length := by omega
  rw [hst, hdir, hptr', hboff, hblen']

theorem keptOrIdled_afterWrite (s : State) {i j : Inst} (hj : j ≠ i) (p : Byte) (ds : List Byte) :
    KeptOrIdled s (afterWrite s i p ds) j := by
  obtain ⟨hothers, -⟩ := receiveMany_frame i ds (openAt s i p)
  obtain ⟨-, -, hopen, -⟩ := openAt_spec s i p
  exact keptOrIdled_trans (hopen j hj) (keptOrIdled_trans (.inl (hothers j hj).1) (keptOrIdled_stopAll _ j))

/-- What the host reads after a write transaction (R145, R152). -/
theorem readByte_afterWrite_eq (s : State) (i : Inst) (p : Byte) (ds : List Byte) (j : Inst) (k : Nat) :
    readByte (afterWrite s i p ds) j k =
      if j = i ∧ readOnly s.cfg i = false ∧ k < 32 ∧ p.toNat ≤ k ∧ k < p.toNat + ds.length then ds.getD (k - p.toNat) 0x00#8
      else readByte s j k := by
  rw [afterWrite, readByte_stopAll, readByte_receiveMany, openAt_eng, openAt_cfg, readByte_openAt]

/-- A write transaction on the primary map leaves the secondary one alone. -/
theorem afterWrite_primary_frame (s : State) (p : Byte) (ds : List Byte) :
    afterWrite s .primary p ds =
      { s with
        map1 := (afterWrite s .primary p ds).map1
        eng1 := (afterWrite s .primary p ds).eng1
        eng2 := (afterWrite s .primary p ds).eng2
        powerEn := (afterWrite s .primary p ds).powerEn
        obs := (afterWrite s .primary p ds).obs } := by
  have hmap : (afterWrite s .primary p ds).map2 = s.map2 := by
    obtain ⟨hothers, -⟩ := receiveMany_frame .primary ds (openAt s .primary p)
    obtain ⟨-, hopen, -⟩ := openAt_spec s .primary p
    calc (afterWrite s .primary p ds).map .secondary
        = (openAt s .primary p).map .secondary := (stopAll_map _ _).trans (hothers .secondary nofun).2
      _ = s.map .secondary := by rw [hopen]; rfl
  have hframe := (busFrame_afterWrite s .primary p ds).1
  rwa [hmap] at hframe

/-- Until its stop a write transaction begun while nothing was active has reported nothing and left the other device alone. -/
theorem burstWritten_of_none {s : State} (hnone : activeInst s = none) (i : Inst) (p : Byte) (ds : List Byte) :
    (burstWritten s i p ds).powerEn = s.powerEn ∧ (burstWritten s i p ds).obs.trace = s.obs.trace ∧
      ∀ j, j ≠ i → (burstWritten s i p ds).eng j = s.eng j := by
  obtain ⟨hothers, hpower, htrace⟩ := receiveMany_frame i ds (openAt s i p)
  obtain ⟨-, -, -, hopen⟩ := openAt_spec s i p
  obtain ⟨htrace0, hpower0, hothers0⟩ := hopen hnone
  exact ⟨hpower.trans hpower0, htrace.trans htrace0, fun j hj => (hothers j hj).1.trans (hothers0 j hj)⟩

section FittingBurst

variable {s : State} {i : Inst} {p : Byte} {ds : List Byte} (hi : s.cfg.present i = true) (hro : readOnly s.cfg i = false)
  (hfit : p.toNat + ds.length ≤ 32) (hne : ds ≠ [])
include hi hro hfit hne

theorem afterWrite_eng : (afterWrite s i p ds).eng i =
    { st := .idle, dir := .W, ptr := p + BitVec.ofNat 8 ds.length, boff := p, blen := ds.length } := by
  rw [afterWrite_eq, stopAll_eng, burstWritten_cfg, if_pos hi, burstWritten_eng hro hfit hne]

/-- From an idle engine the stop reports the burst, once (R149), and leaves the other device alone. The hook judges the map as the
transaction leaves it. -/
theorem afterWrite_of_none (hnone : activeInst s = none) :
    (afterWrite s i p ds).powerEn = (if HookShutsDown (afterWrite s i p ds) i p ds.length then false else s.powerEn) ∧
      (afterWrite s i p ds).obs.trace = s.obs.trace ++ [.wrHook i p ds.length] ++
        (if HookShutsDown (afterWrite s i p ds) i p ds.length ∧ s.powerEn = true then [.powerEn false] else []) ∧
      ∀ j, j ≠ i → (afterWrite s i p ds).eng j = s.eng j := by
  have heng := burstWritten_eng hro hfit hne
  have hbusy : ((burstWritten s i p ds).eng i).st ≠ .idle := by
    rw [heng]
    exact EngSt.noConfusion
  obtain ⟨hpower, htrace, hothers⟩ := burstWritten_of_none hnone i p ds
  have hstop : afterWrite s i p ds = endAndIdle (burstWritten s i p ds) i :=
    stopAll_of_only hnone (burstWritten_cfg s i p ds) hi hbusy hothers
  have hmap : HookShutsDown (burstWritten s i p ds) i p ds.length ↔ HookShutsDown (afterWrite s i p ds) i p ds.length := by
    simp only [HookShutsDown, afterWrite_eq, stopAll_cfg, readByte_stopAll]
  obtain ⟨hreport, hidled, -⟩ := endAndIdle_spec (burstWritten s i p ds) i
  rw [BurstReported, heng, if_pos rfl, ← hstop, HookRun, hpower, htrace] at hreport
  simp only [hmap] at hreport
  obtain ⟨hpower', htrace'⟩ := hreport
  exact ⟨hpower', htrace', fun j hj => by rw [hstop, hidled, if_neg hj, hothers j hj]⟩

end FittingBurst

/-- Settles O44: the command is the burst of the three colours and the trigger byte at offset 8 (`afterWrite`), which does not reach
offset 31, so the hook only reports it. -/
theorem setLedCommandWritesColourAndTrigger : Obligations.SetLedCommandWritesColourAndTrigger := by
  intro s r g b hp (hro : readOnly s.cfg .primary = false)
  have hfit : (8#8).toNat + [r, g, b, 0x01#8].length ≤ 32 := by simp
  have hmiss : ∀ t, ¬HookShutsDown t .primary 8#8 [r, g, b, 0x01#8].length := by
    rintro t ⟨-, -, -, -, hreach, -⟩
    simp at hreach
  have heng := afterWrite_eng (s := s) (i := .primary) rfl hro hfit nofun
  refine ⟨_, (exec_cmdSetLed r g b s).trans (whenEnabled_of hp rfl _), fun j k => ?_,
    heng, keptOrIdled_afterWrite s (i := .primary) (j := .secondary) nofun _ _, afterWrite_primary_frame .., fun hnone => ?_⟩
  · rw [readByte_afterWrite_eq]
    by_cases hin : j = .primary ∧ 8 ≤ k ∧ k < 12
    · obtain ⟨rfl, hlo, hhi⟩ := hin
      rw [if_pos ⟨rfl, hro, by omega, by simpa using hlo, by simpa using hhi⟩]
      interval_cases k <;> rfl
    · have hout : ∀ n, 8 ≤ n → n < 12 → ¬(j = .primary ∧ k = n) := by
        rintro n hlo hhi ⟨rfl, rfl⟩
        exact hin ⟨rfl, hlo, hhi⟩
      rw [if_neg fun ⟨hj, _, _, hlo, hhi⟩ => hin ⟨hj, hlo, hhi⟩, if_neg (hout 8 (by decide) (by decide)),
        if_neg (hout 9 (by decide) (by decide)), if_neg (hout 10 (by decide) (by decide)), if_neg (hout 11 (by decide) (by decide))]
  · obtain ⟨hpower, htrace, hothers⟩ := afterWrite_of_none (i := .primary) rfl hro hfit nofun hnone
    rw [if_neg (hmiss _)] at hpower
    rw [if_neg fun h => hmiss _ h.1, List.append_nil] at htrace
    exact ⟨htrace, hpower, hothers .secondary nofun⟩

/-- Settles O45: the command is the burst of the sentinel at offset 31 (`afterWrite`), which the hook finds there. -/
theorem shutdownCommandWritesSentinel : Obligations.ShutdownCommandWritesSentinel := by
  intro s hp (hro : readOnly s.cfg .primary = false)
  have hfit : (31#8).toNat + [0xFF#8].length ≤ 32 := by simp
  have hbyte : ∀ j k, readByte (afterWrite s .primary 31#8 [0xFF#8]) j k =
      if j = .primary ∧ k = 31 then 0xFF#8 else readByte s j k := by
    intro j k
    rw [readByte_afterWrite_eq]
    by_cases hin : j = .primary ∧ k = 31
    · obtain ⟨rfl, rfl⟩ := hin
      rw [if_pos ⟨rfl, hro, by simp⟩]
      rfl
    · rw [if_neg hin, if_neg]
      rintro ⟨hj, -, hend, (hstart : 31 ≤ k), -⟩
      exact hin ⟨hj, by omega⟩
  have hhit : HookShutsDown (afterWrite s .primary 31#8 [0xFF#8]) .primary 31#8 1 ↔ s.cfg.hookImmediateShutdown = true := by
    rw [HookShutsDown, busFrame_cfg (busFrame_afterWrite ..), hbyte]
    simp
  have heng := afterWrite_eng (s := s) (i := .primary) rfl hro hfit nofun
  refine ⟨_, (exec_cmdShutdown s).trans (whenEnabled_of hp rfl _), hbyte,
    heng, keptOrIdled_afterWrite s (i := .primary) (j := .secondary) nofun _ _, afterWrite_primary_frame .., fun hnone => ?_⟩
  obtain ⟨hpower, htrace, hothers⟩ := afterWrite_of_none (i := .primary) rfl hro hfit nofun hnone
  simp only [List.length_singleton, hhit] at hpower htrace
  exact ⟨hpower, htrace, hothers .secondary nofun⟩

/-! ## A read transaction (R241) -/

/-- The state after the last byte of `S Ai+W p Sr Ai+R <r0 ...`, before the stop. -/
def burstRead (s : State) (i : Inst) (p : Byte) (n : Nat) : State := sendMany i n (addressMatch (openAt s i p) i .R)

theorem afterRead_eq (s : State) (i : Inst) (p : Byte) (n : Nat) : afterRead s i p n = stopAll (burstRead s i p n) := rfl

theorem burstRead_cfg (s : State) (i : Inst) (p : Byte) (n : Nat) : (burstRead s i p n).cfg = s.cfg := by
  rw [burstRead, sendMany_cfg, addressMatch_cfg, openAt_cfg]

/-- The registers of the device that is read: the burst's offset and count are those of the write half, which wrote nothing. -/
theorem burstRead_eng (s : State) (i : Inst) (p : Byte) (n : Nat) :
    ((burstRead s i p n).eng i).st = (if n = 0 then .addressed else .readBurst) ∧
      ((burstRead s i p n).eng i).ptr.toNat = min (p.toNat + n) 255 ∧ ((burstRead s i p n).eng i).boff = p ∧
      ((burstRead s i p n).eng i).blen = 0 := by
  obtain ⟨-, hptr, hboff, hblen, hst, -⟩ := sendMany_spec i n (addressMatch (openAt s i p) i .R)
  rw [addressMatch_eng, if_pos rfl, openAt_eng] at hptr hboff hblen hst
  exact ⟨hst, hptr, hboff, hblen⟩

theorem readByte_afterRead (s : State) (i : Inst) (p : Byte) (n : Nat) (j : Inst) (k : Nat) :
    readByte (afterRead s i p n) j k = readByte s j k := by
  rw [afterRead, readByte_stopAll, readByte_sendMany, readByte_addressMatch, readByte_openAt]

theorem keptOrIdled_afterRead (s : State) {i j : Inst} (hj : j ≠ i) (p : Byte) (n : Nat) : KeptOrIdled s (afterRead s i p n) j := by
  obtain ⟨hothers, -⟩ := sendMany_spec i n (addressMatch (openAt s i p) i .R)
  obtain ⟨-, -, hopen, -⟩ := openAt_spec s i p
  exact keptOrIdled_trans (hopen j hj) (keptOrIdled_trans (keptOrIdled_addressMatch _ hj .R)
    (keptOrIdled_trans (.inl (hothers j hj)) (keptOrIdled_stopAll _ j)))

theorem afterRead_frame (s : State) (i : Inst) (p : Byte) (n : Nat) :
    afterRead s i p n =
      { s with
        eng1 := (afterRead s i p n).eng1
        eng2 := (afterRead s i p n).eng2
        powerEn := (afterRead s i p n).powerEn
        obs := (afterRead s i p n).obs } := by
  obtain ⟨-, hopen, -⟩ := openAt_spec s i p
  obtain ⟨-, -, -, hmatch⟩ := addressMatch_frame (openAt s i p) i .R
  obtain ⟨-, -, -, -, -, -, -, -, hsend⟩ := sendMany_spec i n (addressMatch (openAt s i p) i .R)
  obtain ⟨-, hstop⟩ := stopAll_frame (burstRead s i p n)
  have hburst : burstRead s i p n =
      { addressMatch (openAt s i p) i .R with
        eng1 := (burstRead s i p n).eng1
        eng2 := (burstRead s i p n).eng2
        powerEn := (burstRead s i p n).powerEn
        obs := (burstRead s i p n).obs } := by
    rw [show (burstRead s i p n).powerEn = _ from sendMany_powerEn ..]
    exact hsend
  exact engineFrame_trans hopen (engineFrame_trans hmatch (engineFrame_trans hburst hstop))

section Read

variable {s : State} {i : Inst} (hi : s.cfg.present i = true)
include hi

/-- The repeated start of a read ends a burst of no bytes, which is not reported (R149). -/
theorem addressMatch_openAt_quiet (p : Byte) (d : Dir) :
    (addressMatch (openAt s i p) i d).powerEn = (openAt s i p).powerEn ∧
      (addressMatch (openAt s i p) i d).obs.trace = (openAt s i p).obs.trace ∧
      ∀ j, j ≠ i → (addressMatch (openAt s i p) i d).eng j = (openAt s i p).eng j := by
  obtain ⟨-, hpower, htrace, -⟩ := addressMatch_frame (openAt s i p) i d
  obtain ⟨hreport, -⟩ := endAndIdle_spec (openAt s i p) i
  rw [BurstReported, openAt_eng, if_neg nofun] at hreport
  obtain ⟨hpower', htrace'⟩ := hreport
  have hactive := activeInst_openAt hi p
  rw [endActive_of_some hactive] at hpower htrace
  refine ⟨hpower.trans hpower', htrace.trans htrace', fun j hj => ?_⟩
  rw [addressMatch_eng, if_neg hj, hactive, if_neg fun h => hj (Option.some.inj h).symm]

theorem afterRead_eng (p : Byte) (n : Nat) : (afterRead s i p n).eng i = { (burstRead s i p n).eng i with st := .idle } := by
  rw [afterRead_eq, stopAll_eng, burstRead_cfg, if_pos hi]

/-- From an idle engine a read reports nothing and leaves the other device alone. -/
theorem afterRead_of_none (hnone : activeInst s = none) (p : Byte) (n : Nat) :
    (afterRead s i p n).obs.trace = s.obs.trace ∧ (afterRead s i p n).powerEn = s.powerEn ∧
      ∀ j, j ≠ i → (afterRead s i p n).eng j = s.eng j := by
  obtain ⟨-, -, -, hopen⟩ := openAt_spec s i p
  obtain ⟨htrace0, hpower0, hothers0⟩ := hopen hnone
  obtain ⟨hpower1, htrace1, hothers1⟩ := addressMatch_openAt_quiet hi p .R
  obtain ⟨hothers2, -, -, -, -, -, htrace2, -⟩ := sendMany_spec i n (addressMatch (openAt s i p) i .R)
  have hothers : ∀ j, j ≠ i → (burstRead s i p n).eng j = s.eng j := fun j hj =>
    (hothers2 j hj).trans ((hothers1 j hj).trans (hothers0 j hj))
  obtain ⟨hst, -⟩ := burstRead_eng s i p n
  have hreads : ((burstRead s i p n).eng i).st ≠ .idle ∧ ((burstRead s i p n).eng i).st ≠ .writeBurst := by
    rw [hst]
    split <;> exact ⟨nofun, nofun⟩
  obtain ⟨hbusy, hquiet⟩ := hreads
  have hstop : afterRead s i p n = endAndIdle (burstRead s i p n) i :=
    stopAll_of_only hnone (burstRead_cfg s i p n) hi hbusy hothers
  obtain ⟨hreport, hidled, -⟩ := endAndIdle_spec (burstRead s i p n) i
  rw [BurstReported, if_neg hquiet, ← hstop] at hreport
  obtain ⟨hpower, htrace⟩ := hreport
  refine ⟨?_, ?_, fun j hj => by rw [hstop, hidled, if_neg hj, hothers j hj]⟩
  · rw [htrace, burstRead, htrace2, htrace1, htrace0]
  · rw [hpower, burstRead, sendMany_powerEn, hpower1, hpower0]

end Read

/-- Settles O46: the command is a read transaction (`afterRead`), whose bytes are `afterRead_busOut`. -/
theorem readCommandReturnsBytes : Obligations.ReadCommandReturnsBytes := by
  intro s p m hp
  obtain ⟨-, hptr, hboff, hblen⟩ := burstRead_eng s .primary p m.toNat
  have heng : (afterRead s .primary p m.toNat).eng1 = { (burstRead s .primary p m.toNat).eng .primary with st := .idle } :=
    afterRead_eng (s := s) (i := .primary) rfl p m.toNat
  refine ⟨_, (exec_cmdRead p m s).trans (whenEnabled_of hp rfl _), afterRead_busOut .., ?_,
    keptOrIdled_afterRead s (i := .primary) (j := .secondary) nofun _ _, readByte_afterRead s .primary p m.toNat,
    afterRead_frame .., fun hnone => ?_⟩
  · rw [heng]
    exact ⟨rfl, hptr, hboff, hblen⟩
  · obtain ⟨htrace, hpower, hothers⟩ := afterRead_of_none (i := .primary) rfl hnone p m.toNat
    exact ⟨htrace, hpower, hothers .secondary nofun⟩

end Sys2Proof.Machine

/-! # Proofs: the exceptions (60_exceptions.md) -/

namespace Sys2Proof.Machine

/-! ## The conversion that never ends (R207, R271) -/

/-- The operations that write no register of the sequencer: the serializer's, the loss of the supply, and those of the bus engine and of
the host. What is left are the steps of the scan, the tick, and reset (R202 to R214, R217, R300). -/
def sparesSequencer : Instr → Bool
  | .ledStart _ => true
  | .ledFetch => true
  | .ledBit => true
  | .ledDone => true
  | .powerLoss => true
  | i => isBusOp i

theorem exec_seq_of_spares {s t : State} {i : Instr} (hi : sparesSequencer i = true) (h : exec i s = .next t) : t.seq = s.seq := by
  cases i with
  | ledStart n =>
    obtain rfl := ite_whenEnabled_next h
    rw [startLed_seq]
  | ledFetch | ledBit =>
    obtain ⟨-, -, rfl⟩ := whenEnabled_next h
    rfl
  | ledDone =>
    obtain ⟨-, -, rfl⟩ := whenEnabled_next h
    split <;> rfl
  | powerLoss =>
    obtain rfl := execPowerLoss_next h
    rfl
  | _ =>
    obtain ⟨hframe, -⟩ := exec_busFrame (by exact hi) h
    rw [hframe]

/-- At `ADC_WAIT` the scan has no operation to select, so of the events other than an answer and reset only a tick selects one that writes
the sequencer. -/
theorem selects_at_adcWait {s : State} {e : Event} {i : Instr} (hspc : s.seq.spc = .adcWait) (hanswer : ∀ v, e ≠ .adcDone v)
    (hreset : e ≠ .reset) (hsel : Selects s e i) : (e = .tick ∧ i = .tick) ∨ sparesSequencer i = true := by
  cases e with
  | tick => exact .inl ⟨rfl, hsel⟩
  | adcDone v => exact absurd rfl (hanswer v)
  | reset => exact absurd rfl hreset
  | seq pick =>
    rw [Selects, hspc] at hsel
    cases hsel
  | pin p => exact hsel.elim
  | addr b =>
    obtain ⟨j, -, rfl | rfl⟩ := hsel <;> exact .inr rfl
  | rxByte b =>
    obtain ⟨j, -, ⟨-, rfl⟩ | ⟨-, rfl | ⟨-, ⟨-, -, rfl⟩ | ⟨-, rfl⟩⟩⟩⟩ := hsel <;> exact .inr rfl
  | txReq =>
    obtain ⟨j, -, -, rfl⟩ := hsel
    exact .inr rfl
  | ser =>
    obtain ⟨-, rfl⟩ | ⟨-, -, rfl⟩ | ⟨-, -, rfl⟩ := hsel <;> exact .inr rfl
  | txn bs =>
    obtain ⟨r, g, b, rfl⟩ | rfl | ⟨p, m, rfl⟩ := hsel <;> exact .inr rfl
  | stop | busErr | arbLost | powerLoss =>
    cases hsel
    exact .inr rfl

/-- Settles O39: what the event selects is a tick or writes no register of the sequencer (`selects_at_adcWait`), and a step that selects
nothing changes only the environment. -/
theorem conversionHangHoldsSequencer : Obligations.ConversionHangHoldsSequencer := by
  intro s t hp hspc hstep hanswer hreset
  have hkept : t.seq = s.seq → t.seq = { s.seq with ms := t.seq.ms } ∧ (nextEvent s ≠ .tick → t.seq.ms = s.seq.ms) := fun hseq => by
    rw [hseq]
    exact ⟨rfl, fun _ => rfl⟩
  rcases step_next hstep with ⟨i, hfetch, hexec⟩ | ⟨u, hfetch, rfl⟩
  · obtain ⟨-, ⟨-, hsel⟩ | ⟨hunpowered, -⟩⟩ := fetch_run hfetch
    · rcases selects_at_adcWait hspc hanswer hreset hsel with ⟨htick, rfl⟩ | hspares
      · obtain ⟨-, -, rfl⟩ := whenEnabled_next hexec
        exact ⟨rfl, fun hne => absurd htick hne⟩
      · exact hkept (exec_seq_of_spares (s := advance s) hspares hexec)
    · exact absurd (hp.symm.trans hunpowered) nofun
  · obtain ⟨-, hframe⟩ := fetch_idle hfetch
    exact hkept (by rw [hframe])

end Sys2Proof.Machine

/-! # Proofs: reset (70_reset_and_hazards.md) -/

namespace Sys2Proof.Machine

/-- R300: `RESET` has no enabling condition; the configuration, the environment and the output record are what it carries over. -/
theorem exec_reset (s : State) : exec .reset s = .next (State.resetWith s.cfg s.env s.obs) := rfl

/-- Settles O42: whatever the state, `RESET` leads to `State.resetWith` of its own configuration, which has the values of R46. -/
theorem resetGivesResetValues : Obligations.ResetGivesResetValues := fun s =>
  ⟨State.resetWith s.cfg s.env s.obs, exec_reset s, hasResetValues_resetWith s.cfg s.env s.obs, rfl⟩

end Sys2Proof.Machine
